-- ==== Sys2Proof/Word.lean ====
section
/-! DEFINITION. The words of the A3 HLL sketch engine: their widths (`spec/00_scope.md` R8, R9, R12).
Bit 0 is the least significant bit of every word (R10). -/

namespace Sys2Proof

/-- One element of the register array: an unsigned 8-bit counter (R8, `RW = 8`). -/
abbrev Byte := BitVec 8

/-- A digest, the operand of ADD: 32 bits (R8, `DW = 32`). -/
abbrev Digest := BitVec 32

/-- A command word: 34 bits, `op = cmd[33:32]`, `arg = cmd[31:0]` (R9, R61, `CW = 34`). -/
abbrev CommandWord := BitVec 34

/-- A response word: 64 bits (R9, R67, `XW = 64`). -/
abbrev ResponseWord := BitVec 64

/-- An IEEE 754 binary64 value, held as its 64-bit interchange pattern (R12, R150): sign bit 63, exponent bits
62 to 52, fraction bits 51 to 0.  `f64bits` of R158 is therefore the identity. -/
abbrev F64 := BitVec 64

end Sys2Proof
end

