-- ==== Sys2Proof/Config.lean ====
section
/-! DEFINITION. What the spec fixes for this hardware (R8), the values this model names for state the spec leaves
unspecified after power-on reset, and the free values: constants with no body, of which no proof can use a value. -/

namespace Sys2Proof.Config

/-- `DW`: the width of a digest in bits (R8). -/
def digestWidth : Nat := 32

/-- `PMIN`: the least legal precision (R8). -/
def precisionMin : Nat := 4

/-- `PMAX`: the greatest legal precision (R8). -/
def precisionMax : Nat := 16

/-- What an index of the register array that the state does not list reads as: 0, the value INIT gives every
register (R82).  DESIGN CHOICE only for the time before the first INIT (log entry 2). -/
def unlistedRegister : Byte := 0#8

/-- The value this model names for `P` after power-on reset, which the spec leaves unspecified (R22, R200).
DESIGN CHOICE (log entry 1). -/
def resetPrecision : BitVec 5 := 0#5

/-- Free value: where the rounding of the natural-logarithm unit turns from down to up.  `lnRoundsUpFrom c` belongs
to the gap between the binary64 value `c` and the next one: of the operands whose logarithm falls into that gap,
those at or above `lnRoundsUpFrom c` give the upper end and the others the lower end.  This is exactly the freedom
that R160 (a) and (c) leave an `LN` (log entry 5). -/
opaque lnRoundsUpFrom : F64 → F64

/-- Free value: the natural-logarithm unit at an operand that is not a finite positive number, where R160 requires
nothing of it (log entry 6). -/
opaque lnOutsideDomain : F64 → F64

/-- The binary64 operations that round. -/
inductive FloatOp where
  | add | mul | div
  deriving DecidableEq, Repr

/-- Free value: a binary64 operation on an operand outside what R153 to R155 define (a NaN, an infinity, a zero
divisor), which R163 lets a model leave unspecified (log entry 6). -/
opaque floatOutsideDomain : FloatOp → F64 → F64 → F64

/-- Free value: the comparison `fle` on an operand that is not finite (R157, R163, log entry 6). -/
opaque fleOutsideDomain : F64 → F64 → Bool

/-- Free value: the comparison `fgt` on an operand that is not finite (R157, R163, log entry 6). -/
opaque fgtOutsideDomain : F64 → F64 → Bool

end Sys2Proof.Config
end

