-- ==== Sys2Proof/Syntax.lean ====
section
/-! DEFINITION. The commands of the engine (R60, R62): one constructor per row of `spec/opcode_table.json`. -/

namespace Sys2Proof

/-- A command with its operand field (R62, R63).  EST and RCNT ignore their operand field (R63); the constructor
keeps it, so that no bit of a command word is lost in decoding (DESIGN CHOICE, safe, log entry 12). -/
inductive Instr where
  /-- INIT: construct a sketch.  The operand is the caller-supplied precision, a signed 32-bit integer (R63, R80). -/
  | init (precision : Int)
  /-- ADD: fold one digest into the sketch (R90). -/
  | add (digest : Digest)
  /-- EST: answer the cardinality estimate (R110). -/
  | est (ignored : BitVec 32)
  /-- RCNT: answer the register count (R83). -/
  | rcnt (ignored : BitVec 32)
  deriving DecidableEq, Repr

end Sys2Proof
end

