-- ==== Sys2Proof/WellFormed.lean ====
section
/-! DEFINITION. Which commands a 34-bit command word can carry (R61, R63, R68). -/

namespace Sys2Proof

/-- The range of the INIT operand: `-2^31 <= sarg <= 2^31 - 1` (R63). -/
def precisionFits (n : Int) : Bool := decide (-2147483648 ≤ n ∧ n ≤ 2147483647)

/-- A command is well formed when its operand fits the 32-bit operand field.  Only the INIT operand is written as an
integer that might not; no value of the other operands is illegal (R64). -/
def Instr.wellFormed : Instr → Bool
  | .init n => precisionFits n
  | .add _ => true
  | .est _ => true
  | .rcnt _ => true

end Sys2Proof
end

