-- ==== Sys2Proof/Decode.lean ====
section
/-! DEFINITION. The decoder of command words and, after it, the encoder (R61 to R65, R68).
Every 34-bit word decodes (R64), and decoding does not depend on any state (R65). -/

namespace Sys2Proof

/-- The opcode field `op = cmd[33:32]` (R61). -/
def opField (w : CommandWord) : BitVec 2 := w.extractLsb' 32 2

/-- The operand field `arg = cmd[31:0]` (R61). -/
def argField (w : CommandWord) : BitVec 32 := w.extractLsb' 0 32

/-- The opcode map (R62) with the operand readings of R63.  The four opcode values are all assigned, so the last
branch is RCNT's own, `op = 0b11`. -/
def decode (w : CommandWord) : Instr :=
  if opField w = 0b00#2 then .init (argField w).toInt
  else if opField w = 0b01#2 then .add (argField w)
  else if opField w = 0b10#2 then .est (argField w)
  else .rcnt (argField w)

/-- Why a number is no command word. -/
inductive DecodeReject where
  /-- "A word is never more than 34 bits" (R61, `spec/95_test_vectors.md` 2.1). -/
  | widerThanCommandWord
  deriving DecidableEq, Repr

/-- The decoder on any number: a number that fits 34 bits is a command word, a wider one is rejected by name
(DESIGN CHOICE, safe, log entry 15). -/
def decodeNumber (n : Nat) : Except DecodeReject Instr :=
  if n < 2 ^ 34 then .ok (decode (BitVec.ofNat 34 n)) else .error .widerThanCommandWord

/-- The command the decoder reads from a row of the opcode table whose lowest `nbits` bits are `w`; the bits above
`nbits` are 0. -/
def decodeTableWord (nbits w : Nat) : Option Instr :=
  match decodeNumber (w % 2 ^ nbits) with
  | .ok i => some i
  | .error _ => none

/-- The opcode of a command (R62). -/
def opcode : Instr → BitVec 2
  | .init _ => 0b00#2
  | .add _ => 0b01#2
  | .est _ => 0b10#2
  | .rcnt _ => 0b11#2

/-- The operand field of a command: for INIT `trunc_32(n)`, two's complement (R68). -/
def operand : Instr → BitVec 32
  | .init n => BitVec.ofInt 32 n
  | .add d => d
  | .est a => a
  | .rcnt a => a

/-- The command word of a command: `op` in the high bits, `arg` below it (R61). -/
def encode (i : Instr) : CommandWord := opcode i ++ operand i

end Sys2Proof
end

