-- ==== Sys2Proof/Machine/State.lean ====
section
/-! DEFINITION. The state of the engine, the reasons a step can stop, and the state after power-on reset
(`spec/10_state.md`, `spec/70_reset_and_hazards.md`). -/

namespace Sys2Proof.Machine

/-- What the host drives on the engine's input ports at one rising clock edge (R66): `rst`; `cmd_valid` with
`cmd_word`; `rsp_ready`.  The edges at which a command is still executing are left out: no cycle count is modelled
(R208, R209, log entry 4). -/
structure PortInput where
  /-- `rst`, synchronous and active high. -/
  rst : Bool
  /-- `cmd_valid = 1` with this `cmd_word`, or `cmd_valid = 0`. -/
  command : Option CommandWord
  /-- `rsp_ready`. -/
  rspReady : Bool
  deriving DecidableEq, Repr

/-- The state: the three items of R20 (`CON`, `P`, `M`); the response waiting on the response port (R31, R66); and, for
the model to be run, the two lists of which R66 and R210 speak: what the host presents and the response words
delivered to it. -/
structure State where
  /-- The constructed bit (R22). -/
  CON : Bool
  /-- The precision register, 5 bits (R21). -/
  P : BitVec 5
  /-- The register array (R23): the pairs (index, value) of the registers that differ from
  `Config.unlistedRegister`, indexes strictly rising.  The index domain is `0 .. 2^P - 1` (R40). -/
  M : List Host.Cell
  /-- The response port (R66): `rsp_valid = 1` with this `rsp_word`, or `rsp_valid = 0`. -/
  response : Option ResponseWord
  /-- The host's inputs at the edges to come, the next one first.  The model's own field, not storage of the engine. -/
  inputs : List PortInput
  /-- The response words delivered, the oldest first (R47 (c), R210).  The model's own field. -/
  delivered : List ResponseWord
  deriving DecidableEq, Repr

/-- Why the machine would stop with a fault.  The engine has no exception of its own (R180). -/
inductive Fault where
  /-- An access to an index that the address space `0 .. 2^P - 1` does not have (R40).  Raised by the shared register
  access `withRegister`, and reached by no command in any state (R43).  Safe: the model stops. -/
  | noSuchRegister (index : Nat)
  deriving DecidableEq, Repr

/-- Why the model gives a command no meaning. -/
inductive Refusal where
  /-- The instruction has no meaning in this model yet; raised by `exec` alone.  Safe: the model stops. -/
  | notModelled (mnemonic : String)
  /-- ADD, EST or RCNT while `CON = 0`: `refuse(Unconstructed)` (R184).  Raised by `whenConstructed`.  Safe: the
  spec gives the run no meaning from that command on. -/
  | unconstructed
  deriving DecidableEq, Repr

/-- The state right after power-on reset (R34, R200): `CON = 0` and `rsp_valid = 0`.  `P` and `M` are unspecified
there; the values below are the model's own (log entries 1 and 2), and no command can tell (R22, R184).  The host has
presented nothing and received nothing (R201). -/
def State.reset : State where
  CON := false
  P := Config.resetPrecision
  M := []
  response := none
  inputs := []
  delivered := []

end Sys2Proof.Machine
end

