-- ==== Sys2Proof/Machine/Ops.lean ====
section
/-! DEFINITION. The named operations over the state: the register array, the admission of a command, the response,
INIT's writing of a whole sketch, the power-on reset event, and the host's side of the ports.
The engine takes no exception and returns from none (R180, R186), so there is no operation for either. -/

namespace Sys2Proof.Machine

/-! ## The register array as sparse data in one canonical form -/

/-- `M[i]` (R13): the listed value, or what an unlisted register reads as. -/
def Memory.read : List Host.Cell → Nat → Byte
  | [], _ => Config.unlistedRegister
  | (a, v) :: rest, i => if a = i then v else Memory.read rest i

/-- `M[i] <- v` (R13), keeping the indexes rising and listing no register that reads as an unlisted one. -/
def Memory.write : List Host.Cell → Nat → Byte → List Host.Cell
  | [], i, v => if v = Config.unlistedRegister then [] else [(i, v)]
  | (a, u) :: rest, i, v =>
    if i < a then
      if v = Config.unlistedRegister then (a, u) :: rest else (i, v) :: (a, u) :: rest
    else if i = a then
      if v = Config.unlistedRegister then rest else (i, v) :: rest
    else (a, u) :: Memory.write rest i v

/-- The canonical form: indexes strictly rising, and no entry equal to what an unlisted register reads as. -/
abbrev Memory.wf (M : List Host.Cell) : Prop :=
  M.Pairwise (fun c c' => c.1 < c'.1) ∧ ∀ c ∈ M, c.2 ≠ Config.unlistedRegister

/-- Every listed index lies in the address space `0 .. 2^p - 1` (R40). -/
abbrev Memory.inDomain (p : Nat) (M : List Host.Cell) : Prop := ∀ c ∈ M, c.1 < 2 ^ p

/-! ## Accessors of the state -/

/-- The precision as a number. -/
def State.precision (s : State) : Nat := s.P.toNat

/-- `m = 2^P`, derived and not stored (R29). -/
def State.registerCount (s : State) : Nat := 2 ^ s.precision

/-- Reading one register in a command: the continuation gets `M[i]`; an index outside the address space does not
exist (R40) and stops the machine by name (DEDUCED, safe, log entry 11). -/
def withRegister (s : State) (i : Nat) (k : Byte → Host.Outcome State Fault Refusal) :
    Host.Outcome State Fault Refusal :=
  if i < s.registerCount then k (Memory.read s.M i) else .fault (.noSuchRegister i)

/-- Writing one register: `M[i] <- v`, nothing else (R96). -/
def State.setRegister (s : State) (i : Nat) (v : Byte) : State := { s with M := Memory.write s.M i v }

/-- `respond(v)` (R13, R67): the response word of the current command is placed on the response port. -/
def State.respond (s : State) (v : ResponseWord) : State := { s with response := some v }

/-- INIT's writes: `P <- p`, every register of the new array 0, `CON <- 1` (R80, R82).  With every register 0 the
canonical form lists none. -/
def State.construct (s : State) (p : BitVec 5) : State := { s with CON := true, P := p, M := [] }

/-- Admission (R184): ADD, EST and RCNT have a meaning only while `CON = 1`; the refused outcome is
the mark that R184 keeps for the rest of the run (DEDUCED, safe, log entry 10).  A reset edge still to come after a
refused command begins no new run in the model: the machine has stopped (DESIGN CHOICE, safe, log entry 10). -/
def whenConstructed (s : State) (meaning : Host.Outcome State Fault Refusal) : Host.Outcome State Fault Refusal :=
  if s.CON then meaning else .refused .unconstructed

/-! ## The power-on reset event -/

/-- The reset event (R200, R202): `CON <- 0`, a response not yet delivered is dropped, and `P` and `M` are
unspecified, for which the model takes the values `State.reset` names (log entry 3).  The inputs still to come and the
responses already delivered belong to the host and stay. -/
def State.powerOnReset (s : State) : State := { State.reset with inputs := s.inputs, delivered := s.delivered }

/-! ## The ports (R66) -/

/-- `cmd_ready`: the engine takes a command when no response of an earlier one is undelivered. -/
def State.cmdReady (s : State) : Bool := s.response.isNone

/-- `rsp_valid`. -/
def State.rspValid (s : State) : Bool := s.response.isSome

/-- The waiting response, if there is one, is delivered to the host. -/
def State.deliver (s : State) : State :=
  match s.response with
  | none => s
  | some v => { s with response := none, delivered := s.delivered ++ [v] }

/-- What one clock edge brings. -/
inductive Edge where
  /-- `rst` is sampled high. -/
  | reset (s : State)
  /-- A command word is accepted: `cmd_valid` and `cmd_ready` are both 1. -/
  | command (word : CommandWord) (s : State)
  /-- No command is accepted and no reset sampled: the engine is idle, or its response waits or is delivered. -/
  | quiet (s : State)
  deriving DecidableEq, Repr

/-- One rising clock edge (R66).  Reset wins over everything (R183, R202).  Where `rst`, `rsp_valid` and `rsp_ready` are
all 1 at one edge, no rule says whether the response is delivered (R66) or dropped (R202): here it is dropped
(DESIGN CHOICE, unsafe, log entry 18).  While a response waits, `cmd_ready = 0` and
no command is accepted; the response is held until `rsp_ready` and then delivered.  Otherwise a presented command
word is accepted.  With no input left the host does nothing more and the engine is idle (R195). -/
def clockEdge (s : State) : Edge :=
  match s.inputs with
  | [] => .quiet s
  | e :: rest =>
    if e.rst then .reset { s with inputs := rest }
    else if s.cmdReady then
      match e.command with
      | some w => .command w { s with inputs := rest }
      | none => .quiet { s with inputs := rest }
    else if e.rspReady then .quiet (State.deliver { s with inputs := rest })
    else .quiet { s with inputs := rest }

/-- The host presents a command word at this edge. -/
def presenting (w : CommandWord) : PortInput := { rst := false, command := some w, rspReady := false }

/-- The host presents nothing at this edge and is ready to take a response. -/
def taking : PortInput := { rst := false, command := none, rspReady := true }

/-- The host presents a command word at the next edge, with any waiting response out of its way. -/
def State.presentFirst (s : State) (w : CommandWord) : State :=
  { s.deliver with inputs := presenting w :: s.inputs }

/-- The inputs of a host that presents each word of a program in turn and takes each response (R207, R210). -/
def programInputs : List CommandWord → List PortInput
  | [] => []
  | w :: rest => presenting w :: taking :: programInputs rest

/-- The host presents a program, a finite list of command words, after what it already presents (R68, R210). -/
def State.present (s : State) (ws : List CommandWord) : State := { s with inputs := s.inputs ++ programInputs ws }

end Sys2Proof.Machine
end

