-- ==== Sys2Proof/Machine/Operands.lean ====
section
/-! DEFINITION. The integer units of the engine: the clamp of INIT (R81) and the bucket indexer, the remaining-bits
word, the leading-zero count, the rank unit, the rank clamp and the maximum-merger of ADD (R91 to R96, R140). -/

namespace Sys2Proof.Machine

/-- `clamp(s) = 4 if s < 4; 16 if s > 16; s otherwise`, compared as signed integers (R81). -/
def clampPrecision (n : Int) : BitVec 5 :=
  if n < Config.precisionMin then BitVec.ofNat 5 Config.precisionMin
  else if (Config.precisionMax : Int) < n then BitVec.ofNat 5 Config.precisionMax
  else BitVec.ofInt 5 n

/-- Bucket indexer: `idx = d >> (32 - P)`, the top `P` bits of the digest (R91). -/
def bucketIndex (p : Nat) (d : Digest) : Nat := (d >>> (Config.digestWidth - p)).toNat

/-- Remaining-bits word: `w = trunc_32(d << P)` (R92). -/
def remainingBits (p : Nat) (d : Digest) : BitVec 32 := d <<< p

/-- The recursion of R143: bit `j` of `x` is looked at with `n` zero bits counted so far. -/
def lzcGo (x : BitVec 32) : Nat → Nat → Nat
  | 0, n => if x.getLsbD 0 then n else 32
  | j + 1, n => if x.getLsbD (j + 1) then n else lzcGo x j (n + 1)

/-- `LZC32(x)`: 32 for `x = 0`, else the number of zero bits above the highest set bit (R140, R143). -/
def lzc32 (x : BitVec 32) : Nat := lzcGo x 31 0

/-- The unclamped rank: `rank0 = LZC32(w) + 1` (R93). -/
def rank0 (p : Nat) (d : Digest) : Nat := lzc32 (remainingBits p d) + 1

/-- `MAXRANK = (32 - P) + 1 = 33 - P` (R8, R95). -/
def maxRank (p : Nat) : Nat := 33 - p

/-- The rank clamp: `rank = min(rank0, MAXRANK)` (R95). -/
def rank (p : Nat) (d : Digest) : Nat := min (rank0 p d) (maxRank p)

/-- Maximum-merger: the greater of the stored value and `zext_8(rank)`, compared as unsigned bytes (R96). -/
def mergeMax (old : Byte) (r : Nat) : Byte := if old < BitVec.ofNat 8 r then BitVec.ofNat 8 r else old

end Sys2Proof.Machine
end

