-- ==== Sys2Proof/Machine/Construction.lean ====
section
/-! DEFINITION. The construction family: INIT and RCNT (`spec/40_construction.md`). -/

namespace Sys2Proof.Machine

/-- INIT (R80): clamp the operand, write `P`, zero the whole new array, `CON <- 1`; no response.  Admitted in either
value of `CON`; the state before has no influence on the new sketch (R84). -/
def execInit (precision : Int) (s : State) : Host.Outcome State Fault Refusal :=
  .next (s.construct (clampPrecision precision))

/-- RCNT (R83): respond `zext_64(2^P)`; nothing is written.  The operand field is ignored (R63). -/
def execRcnt (_ignored : BitVec 32) (s : State) : Host.Outcome State Fault Refusal :=
  whenConstructed s (.next (s.respond (BitVec.ofNat 64 s.registerCount)))

end Sys2Proof.Machine
end

