-- ==== Sys2Proof/Machine/Float.lean ====
section
/-! DEFINITION. The binary64 primitives of the estimation pipeline (`spec/44_binary64_numerics.md` R150 to R158).
A finite pattern is read as the exact rational it stands for; an operation computes the exact rational result and
rounds it once (R12, R151).  What R153 to R157 do not define (NaN, infinity, a zero divisor) is a free value of
`Config` (R163, log entry 6).  Subnormal numbers and overflow to infinity are those of IEEE 754, which R150 names;
no command reaches either (R126, log entry 7). -/

namespace Sys2Proof.Machine

/-! ## Patterns and their values -/

/-- The pattern of positive infinity: the least pattern that is not finite. -/
def f64Infinity : Nat := 2047 * 2 ^ 52

/-- The sign bit, bit 63. -/
def f64Sign (a : F64) : Bool := a.msb

/-- The biased exponent, bits 62 to 52. -/
def f64Exponent (a : F64) : Nat := (a.extractLsb' 52 11).toNat

/-- The fraction, bits 51 to 0. -/
def f64Fraction (a : F64) : Nat := (a.extractLsb' 0 52).toNat

/-- Neither a NaN nor an infinity. -/
def f64Finite (a : F64) : Bool := decide (f64Exponent a < 2047)

/-- `2^k` for any integer `k`, as an exact rational. -/
def ratPow2 (k : Int) : ℚ := if 0 ≤ k then ((2 ^ k.toNat : Nat) : ℚ) else mkRat 1 (2 ^ (-k).toNat)

/-- The magnitude of a finite pattern: `(2^52 + f) * 2^(e - 1075)` for a normal number, `f * 2^-1074` otherwise
(R150). -/
def f64Magnitude (a : F64) : ℚ :=
  if f64Exponent a = 0 then f64Fraction a * ratPow2 (-1074)
  else (2 ^ 52 + f64Fraction a : Nat) * ratPow2 (f64Exponent a - 1075)

/-- The exact value of a finite pattern (R150). -/
def f64ToRat (a : F64) : ℚ := if f64Sign a then -f64Magnitude a else f64Magnitude a

/-- `a` with its sign bit set to `neg`. -/
def f64WithSign (neg : Bool) (magnitude : Nat) : F64 := BitVec.ofBool neg ++ BitVec.ofNat 63 magnitude

/-! ## Rounding -/

/-- `n / d` rounded to an integer, to nearest, ties to even (R151). -/
def divNearest (n d : Nat) : Nat :=
  if 2 * (n % d) < d then n / d
  else if d < 2 * (n % d) then n / d + 1
  else n / d + n / d % 2

/-- `n / d` rounded down. -/
def divDown (n d : Nat) : Nat := n / d

/-- `n / d` rounded up. -/
def divUp (n d : Nat) : Nat := if n % d = 0 then n / d else n / d + 1

/-- The integer `k` with `2^k <= n/d < 2^(k+1)`, for positive `n` and `d`. -/
def floorLog2 (n d : Nat) : Int :=
  let k : Int := (n.log2 : Int) - (d.log2 : Int)
  if d * 2 ^ k.toNat ≤ n * 2 ^ (-k).toNat then k else k - 1

/-- The 63-bit magnitude pattern of `n/d`, whose significand is rounded by `round`.  The unit in the last place of
`n/d` is `2^q`; with the significand (its leading bit included) counted in units of `2^q`, the pattern is
`(q + 1074) * 2^52 + significand`, for normal and subnormal results alike, and a carry out of the significand runs
into the exponent field as it should. -/
def roundMagnitude (round : Nat → Nat → Nat) (n d : Nat) : Nat :=
  if n = 0 then 0
  else
    let q : Int := max (floorLog2 n d) (-1022) - 52
    min ((q + 1074).toNat * 2 ^ 52 + round (n * 2 ^ (-q).toNat) (d * 2 ^ q.toNat)) f64Infinity

/-- A rational magnitude rounded to nearest, ties to even, under a given sign. -/
def roundSigned (neg : Bool) (r : ℚ) : F64 := f64WithSign neg (roundMagnitude divNearest r.num.natAbs r.den)

/-- `F(q)`: the binary64 value nearest to `q`, ties to even (R152).  An exact zero is `+0.0`. -/
def fround (r : ℚ) : F64 := roundSigned (decide (r < 0)) r

/-- The greatest binary64 value that is at most `r`. -/
def froundDown (r : ℚ) : F64 :=
  f64WithSign (decide (r < 0)) (roundMagnitude (if r < 0 then divUp else divDown) r.num.natAbs r.den)

/-- The least binary64 value that is at least `r`. -/
def froundUp (r : ℚ) : F64 :=
  f64WithSign (decide (r < 0)) (roundMagnitude (if r < 0 then divDown else divUp) r.num.natAbs r.den)

/-! ## Operations -/

/-- `fneg(a)` inverts bit 63 and nothing else (R158). -/
def fneg (a : F64) : F64 := a ^^^ (1#64 <<< 63)

/-- `fadd(a, b)`: the exact sum rounded once (R153).  An exact zero is `+0.0`, unless both operands are negative
zeros (IEEE 754). -/
def fadd (a b : F64) : F64 :=
  if f64Finite a && f64Finite b then
    if f64ToRat a + f64ToRat b = 0 then f64WithSign (f64Sign a && f64Sign b) 0
    else fround (f64ToRat a + f64ToRat b)
  else Config.floatOutsideDomain .add a b

/-- `fsub(a, b)`: the exact difference rounded once (R153). -/
def fsub (a b : F64) : F64 := fadd a (fneg b)

/-- `fmul(a, b)`: the exact product rounded once; the sign is the exclusive-or of the signs (R154). -/
def fmul (a b : F64) : F64 :=
  if f64Finite a && f64Finite b then
    roundSigned (f64Sign a ^^ f64Sign b) (f64Magnitude a * f64Magnitude b)
  else Config.floatOutsideDomain .mul a b

/-- `fdiv(a, b)`: the exact quotient rounded once, for a non-zero `b` (R155). -/
def fdiv (a b : F64) : F64 :=
  if f64Finite a && f64Finite b && decide (f64Magnitude b ≠ 0) then
    roundSigned (f64Sign a ^^ f64Sign b) (f64Magnitude a / f64Magnitude b)
  else Config.floatOutsideDomain .div a b

/-- `i2f(n)`: the binary64 value equal to the integer `n`, for `|n| <= 2^53` (R12, R156).  Beyond that, where neither
rule gives a value and which no state reaches, `n` is rounded to nearest (DESIGN CHOICE, unsafe, log entry 17). -/
def i2f (n : Int) : F64 := fround n

/-- `pow2(k)`: the binary64 value `2^k`, bit pattern `(k + 1023) << 52`, for `-1022 <= k <= 1023` (R156).  Outside that
range, where R156 gives no value and which no state reaches, the low bits of `k + 1023` are shifted into place
(DESIGN CHOICE, unsafe, log entry 17). -/
def pow2 (k : Int) : F64 := BitVec.ofInt 64 (k + 1023) <<< 52

/-- `fle(a, b)`: `a <= b` as real numbers (R157). -/
def fle (a b : F64) : Bool :=
  if f64Finite a && f64Finite b then decide (f64ToRat a ≤ f64ToRat b) else Config.fleOutsideDomain a b

/-- `fgt(a, b)`: `a > b` as real numbers (R157). -/
def fgt (a b : F64) : Bool :=
  if f64Finite a && f64Finite b then decide (f64ToRat b < f64ToRat a) else Config.fgtOutsideDomain a b

/-- `f64bits(a)`: the 64-bit pattern of `a` (R158). -/
def f64bits (a : F64) : ResponseWord := a

end Sys2Proof.Machine
end

