-- ==== Sys2Proof/Machine/Logarithm.lean ====
section
/-! DEFINITION. The natural-logarithm unit `LN` of the estimation pipeline (R159 to R162).

The spec leaves `LN` open but for R159 and R160: `LN(1) = +0.0`; at every other finite positive operand one of the two
binary64 values around the real logarithm; monotone.  This file computes those two values from a rational enclosure
of the real logarithm, and the choice between them, which is all the spec leaves open, is the free value
`Config.lnRoundsUpFrom` (log entry 5).

The enclosure: for `x = 2^e * f` with `1 <= f < 2`, `ln x = e * ln 2 + ln f`, `ln f = 2 artanh((f - 1)/(f + 1))` and
`ln 2 = 2 artanh(1/3)`; the series of `artanh` is summed in units of `2^-lnScale`. -/

namespace Sys2Proof.Machine

/-- The enclosure is counted in units of `2^-lnScale`. -/
def lnScale : Nat := 320

/-- How many terms of the series of `artanh` are summed: enough for an argument of at most 1/3. -/
def lnTerms : Nat := 101

/-- The first `k` terms of `artanh(n/d) = Σ (n/d)^(2j+1) / (2j+1)`, each rounded down to a multiple of
`2^-lnScale`. -/
def artanhSum (n d : Nat) : Nat → Nat
  | 0 => 0
  | k + 1 => artanhSum n d k + 2 ^ lnScale * n ^ (2 * k + 1) / ((2 * k + 1) * d ^ (2 * k + 1))

/-- `artanh(n/d)` is at least this many units. -/
def artanhLow (n d : Nat) : Nat := artanhSum n d lnTerms

/-- `artanh(n/d)` is at most this many units, for `n/d <= 1/3`: one unit for each term and one for the rest. -/
def artanhHigh (n d : Nat) : Nat := artanhSum n d lnTerms + lnTerms + 1

/-- The significand of a positive finite pattern as a whole number (R150). -/
def f64Significand (x : F64) : Nat := if f64Exponent x = 0 then f64Fraction x else 2 ^ 52 + f64Fraction x

/-- The exponent `e` of `x = 2^e * f`, `1 <= f < 2`. -/
def lnExponent (x : F64) : Int :=
  (if f64Exponent x = 0 then -1074 else (f64Exponent x : Int) - 1075) + (f64Significand x).log2

/-- `(f - 1)/(f + 1)` over `2^l`, the leading bit of the significand: the numerator. -/
def lnNumerator (x : F64) : Nat := f64Significand x - 2 ^ (f64Significand x).log2

/-- `(f - 1)/(f + 1)`: the denominator. -/
def lnDenominator (x : F64) : Nat := f64Significand x + 2 ^ (f64Significand x).log2

/-- A lower bound of `ln x` in units of `2^-lnScale`. -/
def lnLow (x : F64) : Int :=
  2 * (lnExponent x * (if 0 ≤ lnExponent x then artanhLow 1 3 else artanhHigh 1 3)
    + artanhLow (lnNumerator x) (lnDenominator x))

/-- An upper bound of `ln x` in units of `2^-lnScale`. -/
def lnHigh (x : F64) : Int :=
  2 * (lnExponent x * (if 0 ≤ lnExponent x then artanhHigh 1 3 else artanhLow 1 3)
    + artanhHigh (lnNumerator x) (lnDenominator x))

/-- A whole number of units as a rational. -/
def lnUnits (n : Int) : ℚ := mkRat n (2 ^ lnScale)

/-- The binary64 value below the real `ln x`: the greatest one that the enclosure allows. -/
def lnBelow (x : F64) : F64 := froundDown (lnUnits (lnHigh x))

/-- The binary64 value above the real `ln x`: the least one that the enclosure allows. -/
def lnAbove (x : F64) : F64 := froundUp (lnUnits (lnLow x))

/-- A finite positive pattern: the operands of which R160 speaks. -/
def f64FinitePositive (x : F64) : Bool := decide (0 < x.toNat ∧ x.toNat < f64Infinity)

/-- The engine's logarithm unit (R159, R160): `+0.0` at 1; at any other finite positive operand the value below or the
value above the real logarithm, as the free value says; elsewhere free. -/
def LN (x : F64) : F64 :=
  if x = 0x3FF0000000000000#64 then 0x0000000000000000#64
  else if f64FinitePositive x then
    if (Config.lnRoundsUpFrom (lnBelow x)).toNat ≤ x.toNat then lnAbove x else lnBelow x
  else Config.lnOutsideDomain x

/-- The reference instance `LN_ref` (R161): the real logarithm rounded to nearest.  The engine does not use it; the
spec's test vectors do (log entry 8). -/
def lnRef (x : F64) : F64 :=
  if x = 0x3FF0000000000000#64 then 0x0000000000000000#64
  else if f64FinitePositive x then fround (lnUnits (lnLow x))
  else Config.lnOutsideDomain x

end Sys2Proof.Machine
end

