-- ==== Sys2Proof/Machine/Estimation.lean ====
section
/-! DEFINITION. The estimation family: EST (`spec/42_estimate.md`), stage by stage.  Every stage that takes a
logarithm takes the logarithm unit `ln` as an argument (R9, R159); the engine's own unit is `LN`. -/

namespace Sys2Proof.Machine

/-- Zero count: the number of indexes `i` in `0 .. 2^P - 1` with `M[i] = 0` (R112). -/
def zeroCount (p : Nat) (M : List Host.Cell) : Nat :=
  (List.range (2 ^ p)).countP fun i => Memory.read M i = 0#8

/-- The exact accumulator: `ZACC = Σ_i 2^(MAXRANK - M[i])` over all indexes (R113).  No register exceeds `MAXRANK`
(R25); the difference is cut off at 0 in states that no run reaches (log entry 9). -/
def zAcc (p : Nat) (M : List Host.Cell) : Nat :=
  ((List.range (2 ^ p)).map fun i => 2 ^ (maxRank p - (Memory.read M i).toNat)).sum

/-- `Z = ZACC * 2^(-MAXRANK)`: `fmul(i2f(ZACC), pow2(P - 33))` (R110, R113). -/
def harmonicSum (p : Nat) (M : List Host.Cell) : F64 := fmul (i2f (zAcc p M)) (pow2 ((p : Int) - 33))

/-- `i2f(2^P)`, the register count as a binary64 value. -/
def registerCountF (p : Nat) : F64 := i2f (2 ^ p : Nat)

/-- The bias constant, a pure function of the register count (R115). -/
def alpha (p : Nat) : F64 :=
  if p = 4 then fround (mkRat 673 1000)
  else if p = 5 then fround (mkRat 697 1000)
  else if p = 6 then fround (mkRat 709 1000)
  else fdiv (fround (mkRat 7213 10000)) (fadd (fround 1) (fdiv (fround (mkRat 1079 1000)) (registerCountF p)))

/-- Raw estimate: `fdiv(fmul(fmul(alpha, i2f(m)), i2f(m)), Z)` (R117). -/
def rawEstimate (p : Nat) (M : List Host.Cell) : F64 :=
  fdiv (fmul (fmul (alpha p) (registerCountF p)) (registerCountF p)) (harmonicSum p M)

/-- The small-range threshold: `fmul(F(2.5), i2f(2^P))` (R118). -/
def smallThreshold (p : Nat) : F64 := fmul (fround (mkRat 5 2)) (registerCountF p)

/-- Whether step 3 replaces the estimate: `E <= 2.5 * m` and `zeros > 0` (R118, R119). -/
def smallRangeApplies (p zeros : Nat) (e : F64) : Bool := fle e (smallThreshold p) && decide (0 < zeros)

/-- The linear-counting estimate: `fmul(i2f(2^P), LN(fdiv(i2f(2^P), i2f(zeros))))` (R118). -/
def linearCount (ln : F64 → F64) (p zeros : Nat) : F64 :=
  fmul (registerCountF p) (ln (fdiv (registerCountF p) (i2f zeros)))

/-- Step 3, the small-range correction (R118, R119). -/
def smallRange (ln : F64 → F64) (p zeros : Nat) (e : F64) : F64 :=
  if smallRangeApplies p zeros e then linearCount ln p zeros else e

/-- `T_LARGE = fdiv(pow2(32), F(30))` (R122). -/
def tLarge : F64 := fdiv (pow2 32) (fround 30)

/-- `x = fsub(F(1), fmul(E, pow2(-32)))` (R120). -/
def largeArgument (e : F64) : F64 := fsub (fround 1) (fmul e (pow2 (-32)))

/-- Whether step 4 replaces the estimate: `E > T_LARGE` and the logarithm guard `x > 0` (R120, R121). -/
def largeRangeApplies (e : F64) : Bool := fgt e tLarge && fgt (largeArgument e) (fround 0)

/-- Step 4, the large-range correction: `fneg(fmul(pow2(32), LN(x)))` (R120, R121). -/
def largeRange (ln : F64 → F64) (e : F64) : F64 :=
  if largeRangeApplies e then fneg (fmul (pow2 32) (ln (largeArgument e))) else e

/-- The estimate of a sketch: steps 1 to 4 in this order; step 4 tests what step 3 left (R110, R111). -/
def estimate (ln : F64 → F64) (p : Nat) (M : List Host.Cell) : F64 :=
  largeRange ln (smallRange ln p (zeroCount p M) (rawEstimate p M))

/-- EST (R110): respond `f64bits(E)`; nothing is written (R129).  The operand field is ignored (R63). -/
def execEst (_ignored : BitVec 32) (s : State) : Host.Outcome State Fault Refusal :=
  whenConstructed s (.next (s.respond (f64bits (estimate LN s.precision s.M))))

end Sys2Proof.Machine
end

