-- ==== Sys2Proof/Machine/Update.lean ====
section
/-! DEFINITION. The update family: ADD (`spec/41_add.md`). -/

namespace Sys2Proof.Machine

/-- ADD (R90): `M[idx] <- max(M[idx], rank)` for the bucket and the rank of the digest, one indivisible
read-modify-write (R46, R96); no response. -/
def execAdd (digest : Digest) (s : State) : Host.Outcome State Fault Refusal :=
  whenConstructed s
    (withRegister s (bucketIndex s.precision digest) fun old =>
      .next (s.setRegister (bucketIndex s.precision digest) (mergeMax old (rank s.precision digest))))

end Sys2Proof.Machine
end

