-- ==== Sys2Proof/Machine/Dispatch.lean ====
section
/-! DEFINITION. One arm per command (R60, R62), each a call of its meaning. -/

namespace Sys2Proof.Machine

def exec (i : Instr) (s : State) : Host.Outcome State Fault Refusal :=
  match i with
  | .init precision => Sys2Proof.Machine.execInit precision s
  | .add digest => Sys2Proof.Machine.execAdd digest s
  | .est ignored => Sys2Proof.Machine.execEst ignored s
  | .rcnt ignored => Sys2Proof.Machine.execRcnt ignored s

end Sys2Proof.Machine
end

