-- ==== Sys2Proof/Machine/Step.lean ====
section
/-! DEFINITION. One step: one clock edge at which the engine is not executing (R46, R47, R66). -/

namespace Sys2Proof.Machine

/-- One step.  A command word is accepted: decode it and execute the command, atomically (R46; DEDUCED,
log entry 16).  Reset: the reset event (R200, R202).  Neither: the engine is idle, its state unchanged (R195, R201),
or its response waits or is delivered (R66). -/
def step (s : State) : Host.Outcome State Fault Refusal :=
  match clockEdge s with
  | .command w s' => exec (decode w) s'
  | .reset s' => .next s'.powerOnReset
  | .quiet s' => .next s'

/-- The state in which the next command word the engine accepts is the one whose lowest `nbits` bits are `w`.  The
engine fetches nothing (R27, R51): its next instruction is the host's next command word, and for the engine to accept
it no response may be waiting. -/
def State.withFetchWord (s : State) (nbits w : Nat) : State := s.presentFirst (BitVec.ofNat 34 (w % 2 ^ nbits))

end Sys2Proof.Machine
end

