-- ==== Sys2Proof/Machine/Text.lean ====
section
/-! DEFINITION. The textual syntax of commands and command words (R68), over lists of characters.  The source has
none; this is the spec's, and the points R68 leaves open are log entry 13. -/

namespace Sys2Proof.Machine

/-- The digit for a value below 16, the letters in capitals: `0` is character 48 and `A`, for ten, character 65. -/
def digitChar (n : Nat) : Char := Char.ofNat (if n < 10 then 48 + n else 55 + n)

/-- The value of a digit of a base: the number whose digit it is.  A letter may be small or capital (DESIGN CHOICE,
log entry 13). -/
def digitValue (base : Nat) (c : Char) : Option Nat := (List.range base).find? fun n => digitChar n = c.toUpper

/-- The `k` lowest hexadecimal digits of a number. -/
def hexDigits : Nat → Nat → List Char
  | 0, _ => []
  | k + 1, n => hexDigits k (n / 16) ++ [digitChar (n % 16)]

/-- The decimal digits of a number that has at most `k + 1` of them, without leading zeros. -/
def decDigits : Nat → Nat → List Char
  | 0, n => [digitChar (n % 10)]
  | k + 1, n => if n < 10 then [digitChar n] else decDigits k (n / 10) ++ [digitChar (n % 10)]

/-- Reading at least one digit of a base, the most significant first. -/
def readDigits (base : Nat) (cs : List Char) : Option Nat :=
  if cs = [] then none else (cs.mapM (digitValue base)).map fun vs => vs.foldl (fun n v => n * base + v) 0

/-- `0xHHHHHHHH`: a 32-bit value as eight hexadecimal digits. -/
def readHex32 (cs : List Char) : Option (BitVec 32) :=
  if ['0', 'x'].isPrefixOf cs ∧ cs.length = 10 then (readDigits 16 (cs.drop 2)).map (BitVec.ofNat 32) else none

/-- A decimal integer with an optional minus sign. -/
def readInt (cs : List Char) : Option Int :=
  if ['-'].isPrefixOf cs then (readDigits 10 (cs.drop 1)).map fun n => -(n : Int)
  else (readDigits 10 cs).map fun n => (n : Int)

/-- The operand of `INIT n`: a hexadecimal 32-bit value, read as signed, or a decimal integer in the signed 32-bit
range. -/
def readPrecision (cs : List Char) : Option Int :=
  match readHex32 cs with
  | some v => some v.toInt
  | none =>
    match readInt cs with
    | some n => if precisionFits n then some n else none
    | none => none

/-- The operand of `ADD`: eight hexadecimal digits, or a decimal integer `0 .. 4294967295`. -/
def readDigest (cs : List Char) : Option Digest :=
  match readHex32 cs with
  | some v => some v
  | none =>
    match readDigits 10 cs with
    | some n => if n < 2 ^ 32 then some (BitVec.ofNat 32 n) else none
    | none => none

/-- `INIT` and the space before its operand. -/
def initText : List Char := ['I', 'N', 'I', 'T', ' ']

/-- `ADD` and the space before its operand. -/
def addText : List Char := ['A', 'D', 'D', ' ']

/-- `EST`. -/
def estText : List Char := ['E', 'S', 'T']

/-- `RCNT`. -/
def rcntText : List Char := ['R', 'C', 'N', 'T']

/-- One line of a program as a command (R68): EST and RCNT get the operand field 0. -/
def assemble (line : List Char) : Option Instr :=
  if line = estText then some (.est 0)
  else if line = rcntText then some (.rcnt 0)
  else if initText.isPrefixOf line then (readPrecision (line.drop 5)).map .init
  else if addText.isPrefixOf line then (readDigest (line.drop 4)).map .add
  else none

/-- A program, a finite list of lines, as the list of command words the host presents. -/
def assembleProgram (lines : List (List Char)) : Option (List CommandWord) :=
  lines.mapM fun line => (assemble line).map encode

/-- A signed 32-bit integer in decimal. -/
def intText (n : Int) : List Char := if n < 0 then '-' :: decDigits 9 n.natAbs else decDigits 9 n.natAbs

/-- The line of a command; EST and RCNT without their ignored operand. -/
def disassemble : Instr → List Char
  | .init n => initText ++ intText n
  | .add d => addText ++ ['0', 'x'] ++ hexDigits 8 d.toNat
  | .est _ => estText
  | .rcnt _ => rcntText

/-- A command word as nine hexadecimal digits, the first being `op`. -/
def wordText (w : CommandWord) : List Char := ['0', 'x'] ++ hexDigits 9 w.toNat

end Sys2Proof.Machine
end

