-- ==== Sys2Proof/Safety.lean ====
section
/-! DEFINITION. What counts as a safe state and a safe run, in the terms the statements use. -/

namespace Sys2Proof.Machine

/-- A legal precision: 4 to 16 inclusive (R21). -/
abbrev legalPrecision (p : Nat) : Prop := 4 ≤ p ∧ p ≤ 16

/-- No register exceeds `MAXRANK` (R25). -/
abbrev Memory.ranksBounded (p : Nat) (M : List Host.Cell) : Prop := ∀ c ∈ M, c.2.toNat ≤ maxRank p

/-- The invariant of the engine: the register array keeps its canonical form and its index domain, and a constructed
engine holds a legal precision (R21) and registers of at most `MAXRANK` (R25). -/
abbrev State.Inv (s : State) : Prop :=
  Memory.wf s.M ∧ Memory.inDomain s.precision s.M ∧
    (s.CON = true → legalPrecision s.precision ∧ Memory.ranksBounded s.precision s.M)

/-- Whether a command answers with a response word (R67). -/
def answers : Instr → Bool
  | .init _ => false
  | .add _ => false
  | .est _ => true
  | .rcnt _ => true

/-- The host's one duty before ADD, EST and RCNT (R184, R204): the engine is constructed or the first command of the list
is INIT. -/
def initFirst (con : Bool) : List Instr → Bool
  | [] => true
  | .init _ :: _ => true
  | .add _ :: _ => con
  | .est _ :: _ => con
  | .rcnt _ :: _ => con

/-- Executing a list of commands one after another, each response delivered before the next command, stopping at the
first fault or refusal (R46, R47): the run as a function from a list of commands, without ports. -/
def execAll : List Instr → State → Host.Outcome State Fault Refusal
  | [], s => .next s
  | i :: rest, s =>
    match exec i s with
    | .next t => execAll rest t.deliver
    | .fault f => .fault f
    | .refused r => .refused r

/-- `n` steps of the machine behind the host's interface. -/
abbrev runSteps (n : Nat) (s : State) : Host.Outcome State Fault Refusal := Sys2Proof.core.run n s

/-- Two states the host cannot tell apart: they agree on `CON`, on the ports, on what is still presented and on what
was delivered, and entirely once they are constructed.  `P` and `M` are unspecified while `CON = 0` (R22). -/
def State.sameToHost (s t : State) : Prop :=
  s.CON = t.CON ∧ s.response = t.response ∧ s.inputs = t.inputs ∧ s.delivered = t.delivered ∧
    (s.CON = true → s = t)

/-- Two outcomes the host cannot tell apart. -/
def sameOutcomeToHost : Host.Outcome State Fault Refusal → Host.Outcome State Fault Refusal → Prop
  | .next s, .next t => s.sameToHost t
  | .fault f, .fault f' => f = f'
  | .refused r, .refused r' => r = r'
  | _, _ => False

/-- A logarithm unit as R159 and R160 require it, on the finite positive operands. -/
structure ConformingLn (ln : F64 → F64) : Prop where
  /-- `LN(1) = +0.0` (R159). -/
  one : ln 0x3FF0000000000000#64 = 0x0000000000000000#64
  /-- The result is a finite binary64 value. -/
  finite : ∀ x, f64FinitePositive x = true → f64Finite (ln x) = true
  /-- Faithful rounding (R160 (a)): no binary64 value lies between the result and the real logarithm, and none other
  equals the real logarithm. -/
  faithful : ∀ x, f64FinitePositive x = true → ∀ y, f64Finite y = true → f64ToRat y ≠ f64ToRat (ln x) →
    ¬((f64ToRat (ln x) : ℝ) ≤ (f64ToRat y : ℝ) ∧ (f64ToRat y : ℝ) ≤ Real.log (f64ToRat x : ℝ)) ∧
    ¬(Real.log (f64ToRat x : ℝ) ≤ (f64ToRat y : ℝ) ∧ (f64ToRat y : ℝ) ≤ (f64ToRat (ln x) : ℝ))
  /-- Sign-correct (R160 (b)): positive above 1, negative below 1, never a zero elsewhere. -/
  signCorrect : ∀ x, f64FinitePositive x = true →
    (1 < f64ToRat x → 0 < f64ToRat (ln x)) ∧ (f64ToRat x < 1 → f64ToRat (ln x) < 0)
  /-- Monotone (R160 (c)). -/
  monotone : ∀ x y, f64FinitePositive x = true → f64FinitePositive y = true →
    f64ToRat x ≤ f64ToRat y → f64ToRat (ln x) ≤ f64ToRat (ln y)

end Sys2Proof.Machine
end

