-- ==== Sys2Proof/Certificates/Slice0/Obligations.lean ====
section
/-! DEFINITION. The statements for the provers: what the commands and the engine do, from the spec's numbered rules. -/

open Sys2Proof Sys2Proof.Machine

/-! ## Encoding -/

/-- Decoding the encoding of a well-formed command gives it back, with every operand.  That this covers the operand field
of EST and RCNT, which the engine ignores (R63), rests on the model's choice to keep it in the syntax (log entry 12). -/
def Obligations.DecodeInvertsEncode : Prop := ∀ i : Instr, i.wellFormed = true → decode (encode i) = i

/-- Every command word decodes to a well-formed command, and encoding that gives the word back: no bit is lost.  For the
words of EST and RCNT, whose operand field the engine ignores (R63), this rests on the model's choice to keep that field
in the syntax (log entry 12), and on no rule. -/
def Obligations.EncodeInvertsDecode : Prop :=
  ∀ w : CommandWord, (decode w).wellFormed = true ∧ encode (decode w) = w

/-- R61, R62, R63: the opcode map as fields and as match and mask, and the reading of the operand field. -/
def Obligations.OpcodeMapAndOperandReading : Prop :=
  (∀ arg : BitVec 32,
    decode (0b00#2 ++ arg) = .init arg.toInt ∧ decode (0b01#2 ++ arg) = .add arg ∧
    (∃ a, decode (0b10#2 ++ arg) = .est a) ∧ (∃ a, decode (0b11#2 ++ arg) = .rcnt a) ∧
    -2147483648 ≤ arg.toInt ∧ arg.toInt ≤ 2147483647) ∧
  (∀ w : CommandWord,
    (w &&& 0x300000000#34 = 0x000000000#34 ↔ ∃ n, decode w = .init n) ∧
    (w &&& 0x300000000#34 = 0x100000000#34 ↔ ∃ d, decode w = .add d) ∧
    (w &&& 0x300000000#34 = 0x200000000#34 ↔ ∃ a, decode w = .est a) ∧
    (w &&& 0x300000000#34 = 0x300000000#34 ↔ ∃ a, decode w = .rcnt a)) ∧
  (∀ (a b : BitVec 32) (s : State), exec (.est a) s = exec (.est b) s ∧ exec (.rcnt a) s = exec (.rcnt b) s)

/-- The nine command words of table 2.1 of the test vectors, and its two decoding corner cases.  The operand kept in
`.est 0xDEADBEEF` and `.rcnt 0xFFFFFFFF` is the model's choice (log entry 12); that these words decode to EST and RCNT is
the table's. -/
def Obligations.DecodeOfWrittenOutWords : Prop :=
  decode 0x000000004#34 = .init 4 ∧ decode 0x00000000A#34 = .init 10 ∧ decode 0x000000064#34 = .init 100 ∧
  decode 0x0FFFFFFFF#34 = .init (-1) ∧
  decode 0x100000000#34 = .add 0#32 ∧ decode 0x1DEADBEEF#34 = .add 0xDEADBEEF#32 ∧
  decode 0x1FFFFFFFF#34 = .add 0xFFFFFFFF#32 ∧
  decode 0x200000000#34 = .est 0#32 ∧ decode 0x2DEADBEEF#34 = .est 0xDEADBEEF#32 ∧
  decode 0x300000000#34 = .rcnt 0#32 ∧ decode 0x3FFFFFFFF#34 = .rcnt 0xFFFFFFFF#32

/-- R68: assembling the line of a well-formed command gives it back, with the operand field 0 for EST and RCNT. -/
def Obligations.AssembleInvertsDisassemble : Prop :=
  (∀ n : Int, -2147483648 ≤ n → n ≤ 2147483647 → assemble (disassemble (.init n)) = some (.init n)) ∧
  (∀ d : Digest, assemble (disassemble (.add d)) = some (.add d)) ∧
  (∀ a : BitVec 32, assemble (disassemble (.est a)) = some (.est 0) ∧
    assemble (disassemble (.rcnt a)) = some (.rcnt 0))

/-! ## The step and the ports -/

/-- When a command word is presented, no reset is sampled and no response waits, the step is the execution of the command
the word decodes to, in the state with that input taken and nothing else changed; and the same of a word placed with
`withFetchWord`, a waiting response out of its way. -/
def Obligations.StepRunsTheDecodedCommand : Prop :=
  (∀ (s : State) (e : PortInput) (rest : List PortInput) (w : CommandWord), s.inputs = e :: rest → e.rst = false →
    e.command = some w → s.response = none → step s = exec (decode w) { s with inputs := rest }) ∧
  (∀ (s : State) (nbits w : Nat) (i : Instr), decodeTableWord nbits w = some i →
    step (s.withFetchWord nbits w) = exec i s.deliver ∧
    (s.response = none → step (s.withFetchWord nbits w) = exec i s))

/-- With no command presented, no reset and no response waiting, the engine is idle, its state unchanged. -/
def Obligations.IdleStepChangesNothing : Prop :=
  (∀ s : State, s.inputs = [] → step s = .next s) ∧
  (∀ (s : State) (e : PortInput) (rest : List PortInput), s.inputs = e :: rest → e.rst = false → e.command = none →
    s.response = none → step s = .next { s with inputs := rest })

/-- Reset wins: sampled at an edge, it leaves the engine unconstructed and ready for a command, whatever else is on the
ports and whatever the engine was; a waiting response is dropped, the ones already delivered stay.  The values of `P`
and `M` after it are the model's choice (log entry 3) and are not stated.  That a waiting response is dropped even
where `rsp_ready = 1` at the same edge is the model's choice (log entry 18). -/
def Obligations.ResetWins : Prop :=
  ∀ (s : State) (e : PortInput) (rest : List PortInput), s.inputs = e :: rest → e.rst = true →
    ∃ t, step s = .next t ∧ t.CON = false ∧ t.rspValid = false ∧ t.cmdReady = true ∧ t.inputs = rest ∧
      t.delivered = s.delivered

/-- The state after power-on reset: unconstructed, no response waiting, ready, nothing presented, nothing delivered. -/
def Obligations.ResetStateIsUnconstructed : Prop :=
  State.reset.CON = false ∧ State.reset.rspValid = false ∧ State.reset.cmdReady = true ∧ State.reset.inputs = [] ∧
  State.reset.delivered = []

/-- R66, R207: a waiting response is held, unchanged, while `rsp_ready = 0`, and delivered at the edge where it is 1; no
command is accepted meanwhile.  A host that never accepts it stops the engine for good: along every number of steps the
response waits and the sketch stays as it was. -/
def Obligations.ResponseIsHeldUntilTaken : Prop :=
  (∀ (s : State) (e : PortInput) (rest : List PortInput) (v : ResponseWord), s.inputs = e :: rest → e.rst = false →
    s.response = some v →
    (e.rspReady = false → step s = .next { s with inputs := rest }) ∧
    (e.rspReady = true →
      step s = .next { s with inputs := rest, response := none, delivered := s.delivered ++ [v] })) ∧
  (∀ (s : State) (v : ResponseWord) (n : Nat), s.response = some v →
    (∀ e ∈ s.inputs, e.rst = false ∧ e.rspReady = false) →
    ∃ t, runSteps n s = .next t ∧ t.response = some v ∧ t.CON = s.CON ∧ t.P = s.P ∧ t.M = s.M ∧
      t.delivered = s.delivered)

/-- R46, R47, R66: a host that presents the words of a program in turn and takes each response sees exactly the commands
executed one after another in port order, each response delivered before the next command: the ports refine the
function from a list of command words to a list of response words. -/
def Obligations.PortsRefineSerialExecution : Prop :=
  ∀ (s : State) (ws : List CommandWord), s.inputs = [] → s.response = none →
    runSteps (2 * ws.length) (s.present ws) = execAll (ws.map decode) s

/-! ## Admission and refusal -/

/-- R184: while `CON = 0` the commands ADD, EST and RCNT are refused, and INIT is the one that runs; after a refusal the
run, which lasts until the next reset (R202), has no further meaning, however many steps are asked for. -/
def Obligations.UnconstructedEngineRefuses : Prop :=
  (∀ s : State, s.CON = false →
    (∀ d, exec (.add d) s = .refused .unconstructed) ∧ (∀ a, exec (.est a) s = .refused .unconstructed) ∧
    (∀ a, exec (.rcnt a) s = .refused .unconstructed) ∧ (∀ n, ∃ t, exec (.init n) s = .next t ∧ t.CON = true)) ∧
  (∀ (s : State) (n k : Nat), (∀ e ∈ s.inputs, e.rst = false) → runSteps n s = .refused .unconstructed →
    runSteps (n + k) s = .refused .unconstructed)

/-- Two unconstructed states that differ only in the unspecified content of `P` and `M` are the same to the host,
along every run: no command tells them apart. -/
def Obligations.UnspecifiedContentIsUnobservable : Prop :=
  ∀ s s' : State, s.CON = false → s'.CON = false → s.response = s'.response → s.inputs = s'.inputs →
    s.delivered = s'.delivered → ∀ n, sameOutcomeToHost (runSteps n s) (runSteps n s')

/-- R43, R180: no command and no step faults, in any state, and the bucket index is always inside the index domain. -/
def Obligations.NothingFaults : Prop :=
  (∀ (i : Instr) (s : State) (f : Fault), exec i s ≠ .fault f) ∧ (∀ (s : State) (f : Fault), step s ≠ .fault f) ∧
  (∀ (s : State) (d : Digest), bucketIndex s.precision d < 2 ^ s.precision)

/-- R184, R204, R208: a finite program runs to its end, with no refusal, no fault and no response left waiting, exactly
when the engine is constructed or the first command is INIT; otherwise the run is refused. -/
def Obligations.ProgramCompletesExactlyWhenInitFirst : Prop :=
  ∀ (s : State) (ws : List CommandWord), s.inputs = [] → s.response = none →
    (initFirst s.CON (ws.map decode) = true →
      ∃ t, runSteps (2 * ws.length) (s.present ws) = .next t ∧ t.inputs = [] ∧ t.response = none) ∧
    (initFirst s.CON (ws.map decode) = false → runSteps (2 * ws.length) (s.present ws) = .refused .unconstructed)

/-- R67, R47 (c): EST and RCNT place exactly one response word on the response port and INIT and ADD none; along a
program the words delivered are one for each EST and each RCNT, after all earlier ones. -/
def Obligations.EachAnsweringCommandAnswersOnce : Prop :=
  (∀ (i : Instr) (s t : State), exec i s = .next t →
    (answers i = true → ∃ v, t.response = some v) ∧ (answers i = false → t.response = s.response) ∧
    t.delivered = s.delivered) ∧
  (∀ (s t : State) (ws : List CommandWord), s.inputs = [] → s.response = none →
    runSteps (2 * ws.length) (s.present ws) = .next t →
    ∃ new, t.delivered = s.delivered ++ new ∧ new.length = ((ws.map decode).filter answers).length)

/-! ## INIT and RCNT -/

/-- R80, R81: INIT on any state writes the clamped operand, zeroes every register of the new array and constructs; it
answers nothing.  The operand field is read as a signed integer. -/
def Obligations.InitConstructsAnEmptySketch : Prop :=
  ∀ (arg : BitVec 32) (s : State), ∃ t, exec (decode (0b00#2 ++ arg)) s = .next t ∧ t.CON = true ∧
    (t.P.toNat : Int) = (if arg.toInt < 4 then 4 else if 16 < arg.toInt then 16 else arg.toInt) ∧
    (∀ i < 2 ^ t.P.toNat, Memory.read t.M i = 0#8) ∧ t.response = s.response ∧ t.inputs = s.inputs ∧
    t.delivered = s.delivered

/-- R84: what INIT leaves does not depend on the sketch before it, nor on whether there was one. -/
def Obligations.InitForgetsTheOldSketch : Prop :=
  ∀ (n : Int) (s s' : State), s.response = s'.response → s.inputs = s'.inputs → s.delivered = s'.delivered →
    exec (.init n) s = exec (.init n) s'

/-- R83: RCNT on a constructed engine answers `zext_64(2^P)` and writes nothing else; with a legal precision that is one
of the 13 powers of two from 16 to 65536.  On an unconstructed engine it is refused. -/
def Obligations.RcntAnswersTheRegisterCount : Prop :=
  ∀ (a : BitVec 32) (s : State),
    (s.CON = true → ∃ t, exec (.rcnt a) s = .next t ∧ t.response = some (BitVec.ofNat 64 (2 ^ s.P.toNat)) ∧
      t.CON = s.CON ∧ t.P = s.P ∧ t.M = s.M ∧ t.inputs = s.inputs ∧ t.delivered = s.delivered ∧
      (legalPrecision s.precision → ∃ k, 4 ≤ k ∧ k ≤ 16 ∧ (BitVec.ofNat 64 (2 ^ s.P.toNat)).toNat = 2 ^ k)) ∧
    (s.CON = false → exec (.rcnt a) s = .refused .unconstructed)

/-- R85: the source's clamp examples, from any state. -/
def Obligations.ClampExamples : Prop :=
  ∀ s : State,
    (∃ t u, exec (.init 1) s = .next t ∧ exec (.rcnt 0) t = .next u ∧ u.response = some 16#64) ∧
    (∃ t u, exec (.init 100) s = .next t ∧ exec (.rcnt 0) t = .next u ∧ u.response = some 65536#64)

/-! ## ADD -/

/-- R140, R142: the leading-zero count of zero is 32; that of another word is `31 - h` for its highest set bit `h`, the
unique `n` with `2^(31-n) <= x < 2^(32-n)`; and the source's worked values. -/
def Obligations.LeadingZeroCount : Prop :=
  lzc32 0#32 = 32 ∧ lzc32 0x00000001#32 = 31 ∧ lzc32 0x80000000#32 = 0 ∧
  ∀ x : BitVec 32, x ≠ 0#32 → lzc32 x ≤ 31 ∧ x.getLsbD (31 - lzc32 x) = true ∧
    (∀ j, 31 - lzc32 x < j → x.getLsbD j = false) ∧
    ∀ n ≤ 31, (2 ^ (31 - n) ≤ x.toNat ∧ x.toNat < 2 ^ (32 - n)) ↔ n = lzc32 x

/-- R144: the leading-zero count is antitone, with the values listed there. -/
def Obligations.LeadingZeroCountAntitone : Prop :=
  (∀ x y : BitVec 32, x ≤ y → lzc32 y ≤ lzc32 x) ∧
  lzc32 0xFFFFFFFF#32 = 0 ∧ lzc32 0x7FFFFFFF#32 = 1 ∧ lzc32 0x40000000#32 = 1 ∧ lzc32 0x00010000#32 = 15 ∧
  lzc32 0x0000FFFF#32 = 16 ∧ lzc32 0x00000003#32 = 30 ∧ lzc32 0x00000002#32 = 30

/-- R94, R95: the unclamped rank, case by case, and the clamp.  `low` is the remaining bits of the digest. -/
def Obligations.RankCaseByCase : Prop :=
  ∀ (p : Nat) (d : Digest), legalPrecision p →
    let low := d.toNat % 2 ^ (32 - p)
    (low = 0 → remainingBits p d = 0#32 ∧ lzc32 (remainingBits p d) = 32 ∧ rank0 p d = 33 ∧ rank p d = 33 - p) ∧
    (low ≠ 0 → lzc32 (remainingBits p d) = 31 - p - low.log2 ∧ rank0 p d = 32 - p - low.log2 ∧
      1 ≤ rank0 p d ∧ rank0 p d ≤ 32 - p ∧ rank p d = rank0 p d) ∧
    rank p d = min (rank0 p d) (33 - p) ∧ 1 ≤ rank p d ∧ rank p d ≤ 33 - p ∧ 33 - p ≤ 29

/-- R90, R91, R96: ADD on a constructed engine raises one register to the rank of the digest, if the rank is greater, and
leaves every other register, `P`, `CON` and the ports as they were.  On an unconstructed engine it is refused. -/
def Obligations.AddRaisesOneRegister : Prop :=
  ∀ (d : Digest) (s : State),
    let idx := d.toNat / 2 ^ (32 - s.precision)
    let low := d.toNat % 2 ^ (32 - s.precision)
    let r := if low = 0 then 33 - s.precision else 32 - s.precision - low.log2
    (s.CON = true → legalPrecision s.precision → Memory.wf s.M → idx < 2 ^ s.precision ∧
      ∃ t, exec (.add d) s = .next t ∧ (Memory.read t.M idx).toNat = max (Memory.read s.M idx).toNat r ∧
        (∀ i, i ≠ idx → Memory.read t.M i = Memory.read s.M i) ∧
        t.CON = s.CON ∧ t.P = s.P ∧ t.response = s.response ∧ t.inputs = s.inputs ∧ t.delivered = s.delivered) ∧
    (s.CON = false → exec (.add d) s = .refused .unconstructed)

/-- ADD completes on every constructed engine, whatever `P` and `M` hold. -/
def Obligations.AddCompletes : Prop := ∀ (d : Digest) (s : State), s.CON = true → ∃ t, exec (.add d) s = .next t

/-- R98: the state after a set of ADD commands does not depend on their order or multiplicity. -/
def Obligations.AddsDependOnlyOnTheSetOfDigests : Prop :=
  ∀ (ds ds' : List Digest) (s : State), s.CON = true → Memory.wf s.M → (∀ d, d ∈ ds ↔ d ∈ ds') →
    ∃ t, execAll (ds.map .add) s = .next t ∧ execAll (ds'.map .add) s = .next t

/-- R97: after INIT and any sequence of ADD commands, each register holds the maximum of 0 and the ranks of the digests
whose bucket it is. -/
def Obligations.RegisterIsTheMaximumRankSeen : Prop :=
  ∀ (n : Int) (ds : List Digest) (s : State), ∃ t, execAll (.init n :: ds.map .add) s = .next t ∧
    ∀ i < 2 ^ t.precision, (Memory.read t.M i).toNat =
      ((ds.filter fun d => bucketIndex t.precision d = i).map (rank t.precision)).foldr max 0

/-- R99: a register at `33 - P` stays there under every ADD; the digest `i * 2^(32 - P)` selects bucket `i` and takes
register `i` there in one ADD; the digest 0 selects bucket 0. -/
def Obligations.BucketSaturates : Prop :=
  ∀ s : State, s.CON = true → s.Inv →
    (∀ (i : Nat) (d : Digest), (Memory.read s.M i).toNat = 33 - s.precision →
      ∃ t, exec (.add d) s = .next t ∧ Memory.read t.M i = Memory.read s.M i) ∧
    (∀ i < 2 ^ s.precision, bucketIndex s.precision (BitVec.ofNat 32 (i * 2 ^ (32 - s.precision))) = i ∧
      ∃ t, exec (.add (BitVec.ofNat 32 (i * 2 ^ (32 - s.precision)))) s = .next t ∧
        (Memory.read t.M i).toNat = 33 - s.precision) ∧
    bucketIndex s.precision 0x00000000#32 = 0

/-! ## Binary64 -/

/-- R152 (with R151): rounding a rational within the finite range gives a nearest binary64 value; on a tie, the one whose
fraction is even; and the constants of the engine have the patterns and the exact values of the table. -/
def Obligations.RoundingIsToNearestEven : Prop :=
  (∀ q : ℚ, |q| ≤ (2 ^ 53 - 1) * 2 ^ 971 →
    f64Finite (fround q) = true ∧
    ∀ y : F64, f64Finite y = true →
      |f64ToRat (fround q) - q| ≤ |f64ToRat y - q| ∧
      (|f64ToRat (fround q) - q| = |f64ToRat y - q| → f64ToRat y ≠ f64ToRat (fround q) →
        f64Fraction (fround q) % 2 = 0)) ∧
  fround (673 / 1000) = 0x3FE589374BC6A7F0#64 ∧ fround (697 / 1000) = 0x3FE64DD2F1A9FBE7#64 ∧
  fround (709 / 1000) = 0x3FE6B020C49BA5E3#64 ∧ fround (7213 / 10000) = 0x3FE714E3BCD35A86#64 ∧
  fround (1079 / 1000) = 0x3FF14395810624DD#64 ∧ fround (5 / 2) = 0x4004000000000000#64 ∧
  fround 30 = 0x403E000000000000#64 ∧ fround 1 = 0x3FF0000000000000#64 ∧ fround 0 = 0x0000000000000000#64 ∧
  pow2 32 = 0x41F0000000000000#64 ∧ pow2 (-32) = 0x3DF0000000000000#64 ∧ tLarge = 0x41A1111111111111#64 ∧
  [fround (673 / 1000), fround (697 / 1000), fround (709 / 1000), fround (7213 / 10000), fround (1079 / 1000),
      fround (5 / 2), fround 30, fround 1, fround 0, pow2 32, pow2 (-32), tLarge].map f64ToRat =
    [378865318652543 / 2 ^ 49, 6278017880554471 / 2 ^ 53, 6386104271611363 / 2 ^ 53, 3248446411222339 / 2 ^ 52,
      4859383997932765 / 2 ^ 52, 5 / 2, 30, 1, 0, 4294967296, 1 / 4294967296, 4803839602528529 / 2 ^ 25]

/-- R153, R155: addition, subtraction and division of finite values round the exact result once, and an exact zero sum
of opposite signs is `+0.0`. -/
def Obligations.OperationsRoundTheExactResultOnce : Prop :=
  ∀ a b : F64, f64Finite a = true → f64Finite b = true →
    f64ToRat (fadd a b) = f64ToRat (fround (f64ToRat a + f64ToRat b)) ∧
    f64ToRat (fsub a b) = f64ToRat (fround (f64ToRat a - f64ToRat b)) ∧
    (f64ToRat a + f64ToRat b = 0 → f64Sign a ≠ f64Sign b → fadd a b = 0x0000000000000000#64) ∧
    (f64ToRat a - f64ToRat b = 0 → f64Sign a = f64Sign b → fsub a b = 0x0000000000000000#64) ∧
    (f64ToRat b ≠ 0 → f64ToRat (fdiv a b) = f64ToRat (fround (f64ToRat a / f64ToRat b)))

/-- R154: multiplication rounds the exact product once, its sign is the exclusive-or of the signs, and by a power of two,
with a result in the normal range, it is exact. -/
def Obligations.MultiplicationByPowerOfTwoIsExact : Prop :=
  (∀ a b : F64, f64Finite a = true → f64Finite b = true →
    f64ToRat (fmul a b) = f64ToRat (fround (f64ToRat a * f64ToRat b)) ∧
    f64Sign (fmul a b) = (f64Sign a ^^ f64Sign b)) ∧
  (∀ (a : F64) (k : Int), f64Finite a = true → -1022 ≤ k → k ≤ 1023 → f64Exponent a ≠ 0 →
    1 ≤ (f64Exponent a : Int) + k → (f64Exponent a : Int) + k ≤ 2046 →
    f64ToRat (fmul a (pow2 k)) = f64ToRat a * 2 ^ k ∧ f64Fraction (fmul a (pow2 k)) = f64Fraction a ∧
    (f64Exponent (fmul a (pow2 k)) : Int) = f64Exponent a + k)

/-- R156, and R12 for the negative integers: integers up to `2^53` in magnitude convert exactly, and `pow2(k)` is `2^k` with the pattern `(k + 1023) << 52`. -/
def Obligations.ConversionsAreExact : Prop :=
  (∀ n : Int, |n| ≤ 2 ^ 53 → f64Finite (i2f n) = true ∧ f64ToRat (i2f n) = n) ∧
  (∀ k : Int, -1022 ≤ k → k ≤ 1023 →
    f64Finite (pow2 k) = true ∧ f64ToRat (pow2 k) = 2 ^ k ∧ (pow2 k).toNat = (k + 1023).toNat * 2 ^ 52)

/-- R157: the comparisons of finite values are those of the real numbers; the two zeros compare equal. -/
def Obligations.ComparisonsAreThoseOfTheReals : Prop :=
  (∀ a b : F64, f64Finite a = true → f64Finite b = true →
    (fle a b = true ↔ f64ToRat a ≤ f64ToRat b) ∧ (fgt a b = true ↔ f64ToRat b < f64ToRat a)) ∧
  fle 0x8000000000000000#64 0x0000000000000000#64 = true ∧ fle 0x0000000000000000#64 0x8000000000000000#64 = true ∧
  fgt 0x8000000000000000#64 0x0000000000000000#64 = false ∧ fgt 0x0000000000000000#64 0x8000000000000000#64 = false

/-- R158: negation inverts bit 63 and nothing else, and so negates the value; `f64bits` is the pattern itself. -/
def Obligations.NegationInvertsTheSign : Prop :=
  ∀ a : F64, (∀ j < 63, (fneg a).getLsbD j = a.getLsbD j) ∧ f64Sign (fneg a) = !f64Sign a ∧
    f64ToRat (fneg a) = -f64ToRat a ∧ f64bits a = a

/-- R159, R160: the engine's logarithm unit conforms, whatever its free rounding choice; and its results on `[1, 65536]`
lie between 0 and the pattern one above the rounded `16 ln 2`. -/
def Obligations.LogarithmUnitConforms : Prop :=
  ConformingLn LN ∧
  ∀ x : F64, f64FinitePositive x = true → 1 ≤ f64ToRat x → f64ToRat x ≤ 65536 →
    0 ≤ f64ToRat (LN x) ∧ f64ToRat (LN x) ≤ f64ToRat 0x40262E42FEFA39F0#64

/-- R161: the reference instance conforms to R159 and R160, and takes the sample values. -/
def Obligations.ReferenceLogarithmConforms : Prop :=
  ConformingLn lnRef ∧ lnRef 0x4000000000000000#64 = 0x3FE62E42FEFA39EF#64 ∧
  lnRef (i2f 16) = 0x40062E42FEFA39EF#64 ∧ lnRef (i2f 65536) = 0x40262E42FEFA39EF#64 ∧
  lnRef (pow2 (-53)) = 0xC0425E4F7B2737FA#64

/-! ## EST -/

/-- R110: EST on a constructed engine answers the value of the stages in their order, and writes nothing else.  On an
unconstructed engine it is refused. -/
def Obligations.EstAnswersTheStagedEstimate : Prop :=
  ∀ (a : BitVec 32) (s : State),
    let m := i2f (2 ^ s.precision : Nat)
    let zacc : Nat := ∑ i ∈ Finset.range (2 ^ s.precision), 2 ^ (33 - s.precision - (Memory.read s.M i).toNat)
    let zeros := ((Finset.range (2 ^ s.precision)).filter fun i => Memory.read s.M i = 0#8).card
    let z := fmul (i2f zacc) (pow2 ((s.precision : Int) - 33))
    let e1 := fdiv (fmul (fmul (alpha s.precision) m) m) z
    let e2 := if fle e1 (fmul (fround (5 / 2)) m) = true ∧ 0 < zeros then fmul m (LN (fdiv m (i2f zeros))) else e1
    let x := fsub (fround 1) (fmul e2 (pow2 (-32)))
    let e3 := if fgt e2 tLarge = true then
        (if fgt x (fround 0) = true then fneg (fmul (pow2 32) (LN x)) else e2) else e2
    (s.CON = true → ∃ t, exec (.est a) s = .next t ∧ t.response = some (f64bits e3) ∧
      t.CON = s.CON ∧ t.P = s.P ∧ t.M = s.M ∧ t.inputs = s.inputs ∧ t.delivered = s.delivered) ∧
    (s.CON = false → exec (.est a) s = .refused .unconstructed)

/-- R123: the response depends on `P` and on the registers of the index domain alone, not on how they came to be. -/
def Obligations.EstimateDependsOnlyOnTheSketch : Prop :=
  ∀ (a b : BitVec 32) (s s' : State), s.CON = true → s'.CON = true → s.P = s'.P →
    (∀ i < 2 ^ s.precision, Memory.read s.M i = Memory.read s'.M i) →
    ∃ v t t', exec (.est a) s = .next t ∧ exec (.est b) s' = .next t' ∧
      t.response = some v ∧ t'.response = some v

/-- R129: an EST changes nothing a later command does: whatever commands follow it, the run with the EST and the run
without it end alike but for the one response word of the EST. -/
def Obligations.EstDoesNotDisturbLaterCommands : Prop :=
  ∀ (a : BitVec 32) (s : State) (later : List Instr), s.CON = true → s.response = none →
    ∃ v u u' new, execAll (.est a :: later) s = .next u ∧ execAll later s = .next u' ∧
      u.CON = u'.CON ∧ u.P = u'.P ∧ u.M = u'.M ∧ u.response = u'.response ∧ u.inputs = u'.inputs ∧
      u.delivered = s.delivered ++ [v] ++ new ∧ u'.delivered = s.delivered ++ new

/-- R30: two EST commands with no INIT or ADD between them answer the same word. -/
def Obligations.RepeatedEstAnswersTheSame : Prop :=
  ∀ (a b : BitVec 32) (s : State), s.CON = true → s.response = none →
    ∃ u v, execAll [.est a, .est b] s = .next u ∧ u.delivered = s.delivered ++ [v, v] ∧ u.P = s.P ∧ u.M = s.M

/-- R112: the zero count is the number of registers that are 0; after INIT and a sequence of ADD commands it is the
number of buckets no digest was routed to, all of them exactly when nothing was added and none exactly when every bucket
received a digest. -/
def Obligations.ZeroCountCountsUntouchedBuckets : Prop :=
  ∀ (n : Int) (ds : List Digest) (s : State), ∃ t, execAll (.init n :: ds.map .add) s = .next t ∧
    zeroCount t.precision t.M = ((Finset.range (2 ^ t.precision)).filter fun i => Memory.read t.M i = 0#8).card ∧
    zeroCount t.precision t.M =
      ((Finset.range (2 ^ t.precision)).filter fun i => ∀ d ∈ ds, bucketIndex t.precision d ≠ i).card ∧
    zeroCount t.precision t.M ≤ 2 ^ t.precision ∧
    (zeroCount t.precision t.M = 2 ^ t.precision ↔ ds = []) ∧
    (zeroCount t.precision t.M = 0 ↔ ∀ i < 2 ^ t.precision, ∃ d ∈ ds, bucketIndex t.precision d = i)

/-- R113: the accumulator is an exact integer of at most 34 bits; `Z` is exactly the sum of `2^(-M[i])`, and is bit for
bit what accumulating in binary64 gives, in any order of the indexes. -/
def Obligations.HarmonicSumIsExactInAnyOrder : Prop :=
  ∀ s : State, s.Inv → s.CON = true →
    2 ^ s.precision ≤ zAcc s.precision s.M ∧ zAcc s.precision s.M ≤ 2 ^ 33 ∧
    zAcc s.precision s.M = ∑ i ∈ Finset.range (2 ^ s.precision), 2 ^ (33 - s.precision - (Memory.read s.M i).toNat) ∧
    f64ToRat (harmonicSum s.precision s.M) =
      ∑ i ∈ Finset.range (2 ^ s.precision), (2 : ℚ) ^ (-((Memory.read s.M i).toNat : Int)) ∧
    ∀ order : List Nat, order.Perm (List.range (2 ^ s.precision)) →
      order.foldl (fun z i => fadd z (pow2 (-((Memory.read s.M i).toNat : Int)))) 0x0000000000000000#64 =
        harmonicSum s.precision s.M

/-- R114: the bounds of `Z`, both reached; `Z` is a positive normal binary64 value. -/
def Obligations.HarmonicSumBounds : Prop :=
  ∀ s : State, s.Inv → s.CON = true →
    f64Finite (harmonicSum s.precision s.M) = true ∧ f64Exponent (harmonicSum s.precision s.M) ≠ 0 ∧
    (2 : ℚ) ^ (2 * (s.precision : Int) - 33) ≤ f64ToRat (harmonicSum s.precision s.M) ∧
    f64ToRat (harmonicSum s.precision s.M) ≤ 2 ^ s.precision ∧
    ((∀ i < 2 ^ s.precision, (Memory.read s.M i).toNat = 33 - s.precision) ↔
      f64ToRat (harmonicSum s.precision s.M) = (2 : ℚ) ^ (2 * (s.precision : Int) - 33)) ∧
    ((∀ i < 2 ^ s.precision, Memory.read s.M i = 0#8) ↔ f64ToRat (harmonicSum s.precision s.M) = 2 ^ s.precision)

/-- R116: the 13 values of the bias constant, as patterns and as the decimals that round to them. -/
def Obligations.BiasConstantTable : Prop :=
  (List.range 13).map (fun k => alpha (k + 4)) =
    [0x3FE589374BC6A7F0#64, 0x3FE64DD2F1A9FBE7#64, 0x3FE6B020C49BA5E3#64, 0x3FE6E37EF20B947A#64,
      0x3FE6FC16CE33D64D#64, 0x3FE70876987DC1B0#64, 0x3FE70EAB7E0DB3E2#64, 0x3FE711C7321E7B57#64,
      0x3FE713555C9EFABF#64, 0x3FE7141C860200C7#64, 0x3FE714801FBCCD72#64, 0x3FE714B1EDDC9938#64,
      0x3FE714CAD53D1AD7#64] ∧
  (List.range 13).map (fun k => alpha (k + 4)) =
    [673 / 1000, 697 / 1000, 709 / 1000, 7152704932638152 / 10 ^ 16, 7182725932495458 / 10 ^ 16,
      7197831133217303 / 10 ^ 16, 7205407583220416 / 10 ^ 16, 7209201792610241 / 10 ^ 16, 7211100396160289 / 10 ^ 16,
      7212050072994537 / 10 ^ 16, 7212525005219688 / 10 ^ 16, 7212762494789677 / 10 ^ 16,
      7212881245439701 / 10 ^ 16].map fround

/-- R117: the raw estimate is `alpha * 2^(2P) / Z`, rounded once, with its range. -/
def Obligations.RawEstimateRoundsOnce : Prop :=
  ∀ s : State, s.Inv → s.CON = true →
    rawEstimate s.precision s.M =
      fround (f64ToRat (alpha s.precision) * 2 ^ (2 * s.precision) / f64ToRat (harmonicSum s.precision s.M)) ∧
    f64Finite (rawEstimate s.precision s.M) = true ∧ f64Exponent (rawEstimate s.precision s.M) ≠ 0 ∧
    f64ToRat (alpha s.precision) * 2 ^ s.precision ≤ f64ToRat (rawEstimate s.precision s.M) ∧
    f64ToRat (rawEstimate s.precision s.M) ≤ f64ToRat (alpha s.precision) * 2 ^ 33

/-- R118, R119: linear counting is used exactly when the raw estimate is at most `2.5 * m` and a register is zero; its
value is `m * LN(m / zeros)`, the multiplication exact; with no zero register the raw estimate passes whatever it is. -/
def Obligations.SmallRangeCorrection : Prop :=
  ∀ s : State, s.Inv → s.CON = true →
    let zeros := zeroCount s.precision s.M
    let raw := rawEstimate s.precision s.M
    let q := fdiv (i2f (2 ^ s.precision : Nat)) (i2f zeros)
    f64ToRat (smallThreshold s.precision) = 5 / 2 * 2 ^ s.precision ∧
    (f64ToRat raw ≤ 5 / 2 * 2 ^ s.precision → 0 < zeros →
      q = fround (2 ^ s.precision / zeros) ∧ 1 ≤ f64ToRat q ∧ f64ToRat q ≤ 65536 ∧
      (q = 0x3FF0000000000000#64 ↔ zeros = 2 ^ s.precision) ∧
      smallRange LN s.precision zeros raw = fmul (i2f (2 ^ s.precision : Nat)) (LN q) ∧
      f64ToRat (smallRange LN s.precision zeros raw) = 2 ^ s.precision * f64ToRat (LN q)) ∧
    (5 / 2 * 2 ^ s.precision < f64ToRat raw → smallRange LN s.precision zeros raw = raw) ∧
    (zeros = 0 → smallRange LN s.precision zeros raw = raw)

/-- R120, R121: the large-range correction of a finite positive estimate: none up to `T_LARGE`; above it
`x = 1 - E / 2^32` is rounded once; below `2^32` the estimate becomes `-(2^32 * LN(x))`, positive, with the scaling
exact; from `2^32` on the guard fails and nothing changes. -/
def Obligations.LargeRangeCorrection : Prop :=
  ∀ e : F64, f64FinitePositive e = true →
    let x := largeArgument e
    (f64ToRat e ≤ f64ToRat tLarge → largeRange LN e = e) ∧
    (f64ToRat tLarge < f64ToRat e → x = fround (1 - f64ToRat e / 2 ^ 32)) ∧
    (f64ToRat tLarge < f64ToRat e → f64ToRat e < 2 ^ 32 →
      0 < f64ToRat x ∧ f64ToRat x < 29 / 30 + 1 / 2 ^ 53 ∧ largeRange LN e = fneg (fmul (pow2 32) (LN x)) ∧
      f64ToRat (largeRange LN e) = -(2 ^ 32 * f64ToRat (LN x)) ∧ 0 < f64ToRat (largeRange LN e)) ∧
    (2 ^ 32 ≤ f64ToRat e → f64ToRat x ≤ 0 ∧ largeRange LN e = e)

/-- R122: the large-range threshold. -/
def Obligations.LargeRangeThreshold : Prop :=
  tLarge = fdiv (pow2 32) (fround 30) ∧ tLarge = fround (4294967296 / 30) ∧ tLarge = 0x41A1111111111111#64 ∧
  f64ToRat tLarge = 4803839602528529 / 33554432 ∧ 4294967296 / 30 - f64ToRat tLarge = 1 / 503316480

/-- R124: the two corrections never both change the estimate: where linear counting is used, its value is far below
the large-range threshold and is the response. -/
def Obligations.CorrectionsNeverBothApply : Prop :=
  ∀ s : State, s.Inv → s.CON = true →
    smallRangeApplies s.precision (zeroCount s.precision s.M) (rawEstimate s.precision s.M) = true →
    f64ToRat (linearCount LN s.precision (zeroCount s.precision s.M)) ≤ 726818 ∧
    largeRangeApplies (linearCount LN s.precision (zeroCount s.precision s.M)) = false ∧
    estimate LN s.precision s.M = linearCount LN s.precision (zeroCount s.precision s.M)

/-- R125: directly after INIT, every register is zero, `Z = 2^P`, and EST answers `+0.0`. -/
def Obligations.EmptySketchEstimatesZero : Prop :=
  ∀ (n : Int) (a : BitVec 32) (s : State), ∃ t u, exec (.init n) s = .next t ∧ exec (.est a) t = .next u ∧
    zeroCount t.precision t.M = 2 ^ t.precision ∧ f64ToRat (harmonicSum t.precision t.M) = 2 ^ t.precision ∧
    rawEstimate t.precision t.M = fmul (alpha t.precision) (i2f (2 ^ t.precision : Nat)) ∧
    fle (rawEstimate t.precision t.M) (smallThreshold t.precision) = true ∧
    u.response = some 0x0000000000000000#64

/-- R126, R163: the estimate of a constructed engine is a finite binary64 value, never negative and never `-0.0`. -/
def Obligations.EstimateIsFiniteAndNonnegative : Prop :=
  ∀ s : State, s.Inv → s.CON = true →
    f64Finite (estimate LN s.precision s.M) = true ∧ f64Sign (estimate LN s.precision s.M) = false

/-- R127: with every register at `33 - P`, EST answers `alpha * 2^33`, the pattern of `alpha` with 33 added to its
exponent field: the large-range test is true and its guard fails.  The values increase with `P`. -/
def Obligations.SaturatedSketchKeepsTheRawEstimate : Prop :=
  (∀ (a : BitVec 32) (s : State), s.CON = true → legalPrecision s.precision →
    (∀ i < 2 ^ s.precision, (Memory.read s.M i).toNat = 33 - s.precision) →
    zAcc s.precision s.M = 2 ^ s.precision ∧ zeroCount s.precision s.M = 0 ∧
    f64ToRat (harmonicSum s.precision s.M) = (2 : ℚ) ^ (2 * (s.precision : Int) - 33) ∧
    fgt (rawEstimate s.precision s.M) tLarge = true ∧
    f64ToRat (largeArgument (rawEstimate s.precision s.M)) = 1 - 2 * f64ToRat (alpha s.precision) ∧
    f64ToRat (largeArgument (rawEstimate s.precision s.M)) < 0 ∧
    ∃ t, exec (.est a) s = .next t ∧ t.response = some (alpha s.precision + (33#64 <<< 52))) ∧
  (∀ p p' : Nat, legalPrecision p → legalPrecision p' → p < p' →
    f64ToRat (alpha p + (33#64 <<< 52)) < f64ToRat (alpha p' + (33#64 <<< 52)))

/-- R128: a sketch whose registers all equal `k >= 1` has the raw estimate `alpha * 2^(P + k)` exactly; the large-range
correction is applied for `28 <= P + k <= 32` and the raw estimate is the response otherwise. -/
def Obligations.UniformSketchRegimes : Prop :=
  ∀ (k : Nat) (s : State), s.CON = true → legalPrecision s.precision → 1 ≤ k → k ≤ 33 - s.precision →
    (∀ i < 2 ^ s.precision, (Memory.read s.M i).toNat = k) →
    rawEstimate s.precision s.M = alpha s.precision + (BitVec.ofNat 64 (s.precision + k) <<< 52) ∧
    (28 ≤ s.precision + k ∧ s.precision + k ≤ 32 →
      largeRangeApplies (rawEstimate s.precision s.M) = true ∧
      estimate LN s.precision s.M =
        fneg (fmul (pow2 32) (LN (largeArgument (rawEstimate s.precision s.M))))) ∧
    (s.precision + k ≤ 27 ∨ s.precision + k = 33 → estimate LN s.precision s.M = rawEstimate s.precision s.M)

/-- R162: the operands the logarithm unit receives on a constructed engine. -/
def Obligations.LogarithmOperandsAreInRange : Prop :=
  ∀ s : State, s.Inv → s.CON = true →
    let zeros := zeroCount s.precision s.M
    let e := smallRange LN s.precision zeros (rawEstimate s.precision s.M)
    (smallRangeApplies s.precision zeros (rawEstimate s.precision s.M) = true →
      1 ≤ zeros ∧ zeros ≤ 2 ^ s.precision ∧
      f64FinitePositive (fdiv (registerCountF s.precision) (i2f zeros)) = true ∧
      1 ≤ f64ToRat (fdiv (registerCountF s.precision) (i2f zeros)) ∧
      f64ToRat (fdiv (registerCountF s.precision) (i2f zeros)) ≤ 65536) ∧
    (largeRangeApplies e = true →
      f64FinitePositive (largeArgument e) = true ∧ 1 / 2 ^ 53 ≤ f64ToRat (largeArgument e) ∧
      f64ToRat (largeArgument e) < 29 / 30 + 1 / 2 ^ 53)

/-! ## Whole-machine rules -/

/-- The invariant holds at power-on reset. -/
def Obligations.ResetMeetsTheInvariant : Prop := State.reset.Inv

/-- R21, R25, R40: every step keeps the invariant: the register array stays canonical and inside its index domain, the
precision of a constructed engine stays legal, and its registers stay at most `33 - P`. -/
def Obligations.StepKeepsTheInvariant : Prop := ∀ s t : State, s.Inv → step s = .next t → t.Inv

/-- R26, R84: no command but INIT lowers a register, changes `P` or changes `CON`; along any list of commands without an
INIT, `P` and `CON` are constant and each register is non-decreasing. -/
def Obligations.OnlyInitLowersARegister : Prop :=
  ∀ (is : List Instr) (s t : State), Memory.wf s.M → (∀ n, .init n ∉ is) → execAll is s = .next t →
    t.P = s.P ∧ t.CON = s.CON ∧ ∀ i, Memory.read s.M i ≤ Memory.read t.M i

/-- Where the machine refuses, and what the host can do about it.  A step refuses exactly when the engine is unconstructed,
no response waits, no reset is sampled, and the word presented is that of an ADD, an EST or an RCNT (R184; a reset at that
very edge wins, R183 and R202); and its only refusal is `unconstructed`.  From such a state every run is refused, whatever
inputs follow.  Where a reset edge is among them this is the model's choice (log entry 10). -/
def Obligations.RefusalIsFinal : Prop :=
  (∀ (s : State) (r : Refusal), step s = .refused r ↔
    r = .unconstructed ∧ s.CON = false ∧ s.response = none ∧ ∃ e rest w, s.inputs = e :: rest ∧ e.rst = false ∧
      e.command = some w ∧ ∀ p, decode w ≠ .init p) ∧
  (∀ (s : State) (e : PortInput) (rest : List PortInput) (w : CommandWord) (n : Nat), s.CON = false →
    s.response = none → s.inputs = e :: rest → e.rst = false → e.command = some w → (∀ p, decode w ≠ .init p) →
    runSteps (n + 1) s = .refused .unconstructed)
end

