-- ==== Sys2Proof/Laws/State.lean ====
section
/-! SUPPORT. One lemma per field per update of the state: no later proof unfolds a record update. -/

namespace Sys2Proof.Machine

@[simp] theorem State.reset_CON : State.reset.CON = false := rfl
@[simp] theorem State.reset_P : State.reset.P = Config.resetPrecision := rfl
@[simp] theorem State.reset_M : State.reset.M = [] := rfl
@[simp] theorem State.reset_response : State.reset.response = none := rfl
@[simp] theorem State.reset_inputs : State.reset.inputs = [] := rfl
@[simp] theorem State.reset_delivered : State.reset.delivered = [] := rfl

variable (s : State)

@[simp] theorem State.setRegister_CON (i : Nat) (v : Byte) : (s.setRegister i v).CON = s.CON := rfl
@[simp] theorem State.setRegister_P (i : Nat) (v : Byte) : (s.setRegister i v).P = s.P := rfl
@[simp] theorem State.setRegister_M (i : Nat) (v : Byte) : (s.setRegister i v).M = Memory.write s.M i v := rfl
@[simp] theorem State.setRegister_response (i : Nat) (v : Byte) : (s.setRegister i v).response = s.response := rfl
@[simp] theorem State.setRegister_inputs (i : Nat) (v : Byte) : (s.setRegister i v).inputs = s.inputs := rfl
@[simp] theorem State.setRegister_delivered (i : Nat) (v : Byte) : (s.setRegister i v).delivered = s.delivered := rfl
@[simp] theorem State.setRegister_precision (i : Nat) (v : Byte) :
    (s.setRegister i v).precision = s.precision := rfl

@[simp] theorem State.respond_CON (v : ResponseWord) : (s.respond v).CON = s.CON := rfl
@[simp] theorem State.respond_P (v : ResponseWord) : (s.respond v).P = s.P := rfl
@[simp] theorem State.respond_M (v : ResponseWord) : (s.respond v).M = s.M := rfl
@[simp] theorem State.respond_response (v : ResponseWord) : (s.respond v).response = some v := rfl
@[simp] theorem State.respond_inputs (v : ResponseWord) : (s.respond v).inputs = s.inputs := rfl
@[simp] theorem State.respond_delivered (v : ResponseWord) : (s.respond v).delivered = s.delivered := rfl
@[simp] theorem State.respond_precision (v : ResponseWord) :
    (s.respond v).precision = s.precision := rfl

@[simp] theorem State.construct_CON (p : BitVec 5) : (s.construct p).CON = true := rfl
@[simp] theorem State.construct_P (p : BitVec 5) : (s.construct p).P = p := rfl
@[simp] theorem State.construct_M (p : BitVec 5) : (s.construct p).M = [] := rfl
@[simp] theorem State.construct_response (p : BitVec 5) : (s.construct p).response = s.response := rfl
@[simp] theorem State.construct_inputs (p : BitVec 5) : (s.construct p).inputs = s.inputs := rfl
@[simp] theorem State.construct_delivered (p : BitVec 5) : (s.construct p).delivered = s.delivered := rfl
@[simp] theorem State.construct_precision (p : BitVec 5) :
    (s.construct p).precision = p.toNat := rfl

@[simp] theorem State.powerOnReset_CON : (s.powerOnReset).CON = false := rfl
@[simp] theorem State.powerOnReset_P : (s.powerOnReset).P = Config.resetPrecision := rfl
@[simp] theorem State.powerOnReset_M : (s.powerOnReset).M = [] := rfl
@[simp] theorem State.powerOnReset_response : (s.powerOnReset).response = none := rfl
@[simp] theorem State.powerOnReset_inputs : (s.powerOnReset).inputs = s.inputs := rfl
@[simp] theorem State.powerOnReset_delivered : (s.powerOnReset).delivered = s.delivered := rfl
@[simp] theorem State.powerOnReset_precision :
    (s.powerOnReset).precision = Config.resetPrecision.toNat := rfl

@[simp] theorem State.present_CON (ws : List CommandWord) : (s.present ws).CON = s.CON := rfl
@[simp] theorem State.present_P (ws : List CommandWord) : (s.present ws).P = s.P := rfl
@[simp] theorem State.present_M (ws : List CommandWord) : (s.present ws).M = s.M := rfl
@[simp] theorem State.present_response (ws : List CommandWord) : (s.present ws).response = s.response := rfl
@[simp] theorem State.present_inputs (ws : List CommandWord) :
    (s.present ws).inputs = s.inputs ++ programInputs ws := rfl
@[simp] theorem State.present_delivered (ws : List CommandWord) : (s.present ws).delivered = s.delivered := rfl
@[simp] theorem State.present_precision (ws : List CommandWord) :
    (s.present ws).precision = s.precision := rfl

theorem State.deliver_none (h : s.response = none) : s.deliver = s := by simp [State.deliver, h]
theorem State.deliver_some {v : ResponseWord} (h : s.response = some v) :
    s.deliver = { s with response := none, delivered := s.delivered ++ [v] } := by simp [State.deliver, h]

@[simp] theorem State.deliver_CON : s.deliver.CON = s.CON := by unfold State.deliver; split <;> rfl
@[simp] theorem State.deliver_P : s.deliver.P = s.P := by unfold State.deliver; split <;> rfl
@[simp] theorem State.deliver_M : s.deliver.M = s.M := by unfold State.deliver; split <;> rfl
@[simp] theorem State.deliver_response : s.deliver.response = none := by
  unfold State.deliver; split <;> simp_all
@[simp] theorem State.deliver_inputs : s.deliver.inputs = s.inputs := by unfold State.deliver; split <;> rfl
@[simp] theorem State.deliver_delivered : s.deliver.delivered = s.delivered ++ s.response.toList := by
  unfold State.deliver; split <;> simp_all
@[simp] theorem State.deliver_precision : s.deliver.precision = s.precision := by
  unfold State.deliver; split <;> rfl

@[simp] theorem State.presentFirst_inputs (w : CommandWord) :
    (s.presentFirst w).inputs = presenting w :: s.inputs := rfl

/-- With no response waiting, presenting a word changes the inputs and nothing else. -/
theorem State.presentFirst_ready (w : CommandWord) (h : s.response = none) :
    s.presentFirst w = { s with inputs := presenting w :: s.inputs } := by
  rw [State.presentFirst, State.deliver_none s h]

end Sys2Proof.Machine
end

