-- ==== Sys2Proof/Laws/Memory.lean ====
section
/-! SUPPORT. The laws of the sparse register array: a read after a write, the canonical form, and that equal reads
of canonical arrays are equal data. -/

namespace Sys2Proof.Machine

theorem Memory.read_eq_unlisted {M : List Host.Cell} {i : Nat} (h : ∀ c ∈ M, i ≠ c.1) :
    Memory.read M i = Config.unlistedRegister := by
  induction M with
  | nil => rfl
  | cons c rest ih =>
    have hc : c.1 ≠ i := fun e => h c (by simp) e.symm
    simp only [Memory.read, hc, if_false]
    exact ih fun c' hc' => h c' (by simp [hc'])

theorem Memory.read_of_mem {M : List Host.Cell} (hs : M.Pairwise fun c c' => c.1 < c'.1) {c : Host.Cell} (hc : c ∈ M) :
    Memory.read M c.1 = c.2 := by
  induction M with
  | nil => cases hc
  | cons d rest ih =>
    obtain ⟨hd, hr⟩ := List.pairwise_cons.1 hs
    rcases List.mem_cons.1 hc with rfl | hm
    · simp [Memory.read]
    · have : d.1 ≠ c.1 := (hd c hm).ne
      simp only [Memory.read, this, if_false]
      exact ih hr hm

/-- A listed register is one of the cells; an unlisted one reads as such. -/
theorem Memory.read_cases (M : List Host.Cell) (i : Nat) :
    Memory.read M i = Config.unlistedRegister ∨ (i, Memory.read M i) ∈ M := by
  induction M with
  | nil => exact .inl rfl
  | cons c rest ih =>
    by_cases h : c.1 = i
    · refine .inr ?_
      obtain ⟨a, v⟩ := c
      simp only at h
      simp [Memory.read, h]
    · simp only [Memory.read, h, if_false, List.mem_cons]
      exact ih.imp_right .inr

/-- What one write can list: an old cell, or the written one where it is not the unlisted value. -/
theorem Memory.mem_write {M : List Host.Cell} {i : Nat} {v : Byte} {c : Host.Cell} (h : c ∈ Memory.write M i v) :
    c ∈ M ∨ (c = (i, v) ∧ v ≠ Config.unlistedRegister) := by
  induction M with
  | nil =>
    simp only [Memory.write] at h
    split at h
    · cases h
    · exact .inr ⟨by simpa using h, ‹_›⟩
  | cons d rest ih =>
    obtain ⟨a, u⟩ := d
    simp only [Memory.write] at h
    split at h
    · split at h
      · exact .inl h
      · rcases List.mem_cons.1 h with rfl | h
        · exact .inr ⟨rfl, ‹_›⟩
        · exact .inl h
    · split at h
      · split at h
        · exact .inl (by simp [h])
        · rcases List.mem_cons.1 h with rfl | h
          · exact .inr ⟨rfl, ‹_›⟩
          · exact .inl (by simp [h])
      · rcases List.mem_cons.1 h with rfl | h
        · exact .inl (by simp)
        · exact (ih h).imp_left fun h => by simp [h]

/-- Writing keeps the canonical form. -/
theorem Memory.write_wf {M : List Host.Cell} (h : Memory.wf M) (i : Nat) (v : Byte) : Memory.wf (Memory.write M i v) := by
  refine ⟨?_, fun c hc => ?_⟩
  · obtain ⟨hs, -⟩ := h
    induction M with
    | nil =>
      simp only [Memory.write]
      split <;> simp
    | cons d rest ih =>
      obtain ⟨a, u⟩ := d
      obtain ⟨hd, hr⟩ := List.pairwise_cons.1 hs
      simp only [Memory.write]
      split
      · split
        · exact hs
        · refine List.pairwise_cons.2 ⟨fun c hc => ?_, hs⟩
          rcases List.mem_cons.1 hc with rfl | hc
          · assumption
          · exact lt_trans ‹i < a› (hd c hc)
      · split
        · split
          · exact hr
          · subst i
            exact List.pairwise_cons.2 ⟨hd, hr⟩
        · refine List.pairwise_cons.2 ⟨fun c hc => ?_, ih hr⟩
          rcases Memory.mem_write hc with hc | ⟨rfl, -⟩
          · exact hd c hc
          · show a < i
            omega
  · rcases Memory.mem_write hc with hc | ⟨rfl, hv⟩
    · exact h.2 c hc
    · exact hv

/-- Writing inside the address space stays inside it. -/
theorem Memory.write_inDomain {p : Nat} {M : List Host.Cell} (h : Memory.inDomain p M) {i : Nat} (hi : i < 2 ^ p)
    (v : Byte) : Memory.inDomain p (Memory.write M i v) := fun c hc => by
  rcases Memory.mem_write hc with hc | ⟨rfl, -⟩
  · exact h c hc
  · exact hi

/-- Writing a value of at most `MAXRANK` keeps the bound on the registers. -/
theorem Memory.write_ranksBounded {p : Nat} {M : List Host.Cell} (h : Memory.ranksBounded p M) (i : Nat) {v : Byte}
    (hv : v.toNat ≤ maxRank p) : Memory.ranksBounded p (Memory.write M i v) := fun c hc => by
  rcases Memory.mem_write hc with hc | ⟨rfl, -⟩
  · exact h c hc
  · exact hv

/-- A read after a write: the written value at the written index, the old value elsewhere. -/
theorem Memory.read_write {M : List Host.Cell} (h : Memory.wf M) (i j : Nat) (v : Byte) :
    Memory.read (Memory.write M i v) j = if j = i then v else Memory.read M j := by
  obtain ⟨hs, -⟩ := h
  induction M with
  | nil =>
    by_cases hv : v = Config.unlistedRegister <;> by_cases hj : i = j <;>
      simp_all [Memory.write, Memory.read, eq_comm]
  | cons d rest ih =>
    obtain ⟨a, u⟩ := d
    obtain ⟨hd, hr⟩ := List.pairwise_cons.1 hs
    simp only [Memory.write]
    split
    · rename_i hia
      split
      · rename_i hv
        split
        · rename_i hj
          subst hj
          rw [hv]
          refine Memory.read_eq_unlisted fun c hc => ?_
          rcases List.mem_cons.1 hc with rfl | hc
          · exact hia.ne
          · exact (lt_trans hia (hd c hc)).ne
        · rfl
      · by_cases hj : j = i
        · simp [Memory.read, hj]
        · simp [Memory.read, hj, Ne.symm hj]
    · split
      · rename_i hia
        subst hia
        split
        · rename_i hv
          by_cases hj : j = i
          · rw [if_pos hj, hj, hv]
            exact Memory.read_eq_unlisted fun c hc => (hd c hc).ne
          · simp [Memory.read, hj, Ne.symm hj]
        · by_cases hj : j = i
          · simp [Memory.read, hj]
          · simp [Memory.read, hj, Ne.symm hj]
      · rename_i h1 h2
        by_cases hj : a = j
        · have : j ≠ i := by omega
          simp [Memory.read, hj, this]
        · simp only [Memory.read, hj, if_false]
          exact ih hr

@[simp] theorem Memory.read_nil (i : Nat) : Memory.read [] i = Config.unlistedRegister := rfl

theorem Memory.read_write_same {M : List Host.Cell} (h : Memory.wf M) (i : Nat) (v : Byte) :
    Memory.read (Memory.write M i v) i = v := by simp [Memory.read_write h]

theorem Memory.read_write_other {M : List Host.Cell} (h : Memory.wf M) {i j : Nat} (hj : j ≠ i) (v : Byte) :
    Memory.read (Memory.write M i v) j = Memory.read M j := by simp [Memory.read_write h, hj]

/-- A canonical array lists exactly the registers that do not read as unlisted. -/
theorem Memory.mem_iff_read {M : List Host.Cell} (h : Memory.wf M) (c : Host.Cell) :
    c ∈ M ↔ Memory.read M c.1 = c.2 ∧ c.2 ≠ Config.unlistedRegister := by
  refine ⟨fun hc => ⟨Memory.read_of_mem h.1 hc, h.2 c hc⟩, fun ⟨hr, hn⟩ => ?_⟩
  rcases Memory.read_cases M c.1 with h0 | hm
  · exact absurd (hr.symm.trans h0) hn
  · rw [hr] at hm
    exact hm

/-- Equal arrays are equal data: two canonical arrays that read the same are the same list. -/
theorem Memory.ext {M N : List Host.Cell} (hM : Memory.wf M) (hN : Memory.wf N)
    (h : ∀ i, Memory.read M i = Memory.read N i) : M = N := by
  refine List.Perm.eq_of_pairwise (le := fun c c' : Host.Cell => c.1 < c'.1) ?_ hM.1 hN.1 ?_
  · intro a b _ _ hab hba
    exact absurd (lt_trans hab hba) (lt_irrefl _)
  · refine (List.perm_ext_iff_of_nodup ?_ ?_).2 fun c => ?_
    · exact hM.1.imp fun hab e => by simp [e] at hab
    · exact hN.1.imp fun hab e => by simp [e] at hab
    · rw [Memory.mem_iff_read hM, Memory.mem_iff_read hN, h]

/-- `State.reset`'s register array is in canonical form. -/
theorem State.reset_wf : Memory.wf State.reset.M := by decide

end Sys2Proof.Machine
end

