-- ==== Sys2Proof/Laws/Estimation.lean ====
section
/-! SUPPORT. The scan of EST over a canonical register array, computed from the listed registers alone: the handy form of
`zAcc` and `zeroCount`, equal to the definitions that visit every index. -/

namespace Sys2Proof.Machine

/-- The sum over a list of indexes as a sum over a finite set. -/
theorem sum_map_range (f : Nat → Nat) (n : Nat) : ((List.range n).map f).sum = ∑ i ∈ Finset.range n, f i := rfl

/-- Counting indexes as a sum over a finite set. -/
theorem countP_range (q : Nat → Bool) (n : Nat) :
    (List.range n).countP q = ∑ i ∈ Finset.range n, if q i then 1 else 0 := by
  induction n with
  | zero => rfl
  | succ n ih => rw [List.range_succ, List.countP_append, ih, Finset.sum_range_succ, List.countP_singleton]

/-- A sum over all registers, from the listed ones: every unlisted register counts as an unlisted value. -/
theorem sum_read (g : Byte → Nat) {p : Nat} {M : List Host.Cell} (hw : Memory.wf M) (hd : Memory.inDomain p M) :
    (∑ i ∈ Finset.range (2 ^ p), g (Memory.read M i)) + M.length * g Config.unlistedRegister =
      2 ^ p * g Config.unlistedRegister + (M.map fun c => g c.2).sum := by
  induction M with
  | nil => simp
  | cons c rest ih =>
    obtain ⟨hs, hz⟩ := hw
    obtain ⟨hc, hr⟩ := List.pairwise_cons.1 hs
    have ih := ih ⟨hr, fun c' h => hz c' (by simp [h])⟩ fun c' h => hd c' (by simp [h])
    have hcd : c.1 ∈ Finset.range (2 ^ p) := Finset.mem_range.2 (hd c (by simp))
    have h0 : Memory.read rest c.1 = Config.unlistedRegister := Memory.read_eq_unlisted fun c' h => (hc c' h).ne
    have e1 := Finset.add_sum_erase _ (fun i => g (Memory.read (c :: rest) i)) hcd
    have e2 := Finset.add_sum_erase _ (fun i => g (Memory.read rest i)) hcd
    have e3 : ∑ i ∈ (Finset.range (2 ^ p)).erase c.1, g (Memory.read (c :: rest) i) =
        ∑ i ∈ (Finset.range (2 ^ p)).erase c.1, g (Memory.read rest i) :=
      Finset.sum_congr rfl fun i hi => by simp [Memory.read, (Finset.ne_of_mem_erase hi).symm]
    have e4 : Memory.read (c :: rest) c.1 = c.2 := by simp [Memory.read]
    simp only [h0, e3, e4] at e1 e2
    simp only [List.length_cons, List.map_cons, List.sum_cons, Nat.add_mul, one_mul]
    omega

/-- `ZACC` from the listed registers (R113). -/
theorem zAcc_eq_listed {p : Nat} {M : List Host.Cell} (hw : Memory.wf M) (hd : Memory.inDomain p M) :
    zAcc p M + M.length * 2 ^ maxRank p = 2 ^ p * 2 ^ maxRank p + (M.map fun c => 2 ^ (maxRank p - c.2.toNat)).sum :=
  sum_read (fun v => 2 ^ (maxRank p - v.toNat)) hw hd

/-- The zero count from the listed registers: none of them is 0 (R112). -/
theorem zeroCount_eq_unlisted {p : Nat} {M : List Host.Cell} (hw : Memory.wf M) (hd : Memory.inDomain p M) :
    zeroCount p M + M.length = 2 ^ p := by
  have h := sum_read (fun v => if v = 0#8 then 1 else 0) hw hd
  have h0 : (M.map fun c => if c.2 = 0#8 then 1 else 0).sum = 0 := by
    rw [List.sum_eq_zero]
    intro x hx
    obtain ⟨c, hc, rfl⟩ := List.mem_map.1 hx
    exact if_neg (hw.2 c hc)
  rw [h0] at h
  unfold zeroCount
  rw [countP_range]
  simpa [Config.unlistedRegister] using h

/-- A scan that finds every register equal to `v` (R113). -/
theorem zAcc_uniform {p : Nat} {M : List Host.Cell} {v : Byte} (h : ∀ i < 2 ^ p, Memory.read M i = v) :
    zAcc p M = 2 ^ p * 2 ^ (maxRank p - v.toNat) := by
  unfold zAcc
  rw [sum_map_range, Finset.sum_congr rfl fun i hi => by rw [h i (Finset.mem_range.1 hi)]]
  simp

/-- A scan that finds every register equal to `v`: all of them or none of them count as zero (R112). -/
theorem zeroCount_uniform {p : Nat} {M : List Host.Cell} {v : Byte} (h : ∀ i < 2 ^ p, Memory.read M i = v) :
    zeroCount p M = if v = 0#8 then 2 ^ p else 0 := by
  unfold zeroCount
  rw [countP_range, Finset.sum_congr rfl fun i hi => by rw [h i (Finset.mem_range.1 hi)]]
  split <;> simp_all

end Sys2Proof.Machine
end

