-- ==== Sys2Proof/Laws/Operands.lean ====
section
/-! SUPPORT. The laws of the integer units: the clamp, the bucket indexer, the rank, the maximum-merger. -/

namespace Sys2Proof.Machine

/-- The clamp as a number (R81). -/
theorem clampPrecision_toNat (n : Int) :
    ((clampPrecision n).toNat : Int) = if n < 4 then 4 else if 16 < n then 16 else n := by
  unfold clampPrecision Config.precisionMin Config.precisionMax
  split
  · simp_all
  · split
    · simp_all
    · have h1 : ¬n < 4 := by assumption_mod_cast
      have h2 : ¬16 < n := by assumption_mod_cast
      rw [if_neg h1, if_neg h2, BitVec.toNat_ofInt]
      omega

/-- The clamped precision is legal (R21, R81). -/
theorem clampPrecision_legal (n : Int) : legalPrecision (clampPrecision n).toNat := by
  have h := clampPrecision_toNat n
  unfold legalPrecision
  split at h
  · omega
  · split at h <;> omega

/-- The precision register is 5 bits wide (R21). -/
theorem State.precision_lt (s : State) : s.precision < 32 := s.P.isLt

/-- The bucket index as a number: the quotient by `2^(32 - P)` (R91). -/
theorem bucketIndex_eq (p : Nat) (d : Digest) : bucketIndex p d = d.toNat / 2 ^ (32 - p) := by
  simp [bucketIndex, Config.digestWidth, BitVec.toNat_ushiftRight, Nat.shiftRight_eq_div_pow]

/-- The bucket index is always a valid index (R43, R91). -/
theorem bucketIndex_lt {p : Nat} (h : p ≤ 32) (d : Digest) : bucketIndex p d < 2 ^ p := by
  rw [bucketIndex_eq, Nat.div_lt_iff_lt_mul (by positivity), ← pow_add]
  have : p + (32 - p) = 32 := by omega
  rw [this]
  exact d.isLt

theorem rank_pos {p : Nat} (h : p ≤ 32) (d : Digest) : 1 ≤ rank p d := by
  unfold rank rank0 maxRank
  omega

theorem rank_le (p : Nat) (d : Digest) : rank p d ≤ maxRank p := Nat.min_le_right _ _

theorem rank_lt_256 (p : Nat) (d : Digest) : rank p d < 256 := by
  have := rank_le p d
  unfold maxRank at this
  omega

/-- The maximum-merger is the maximum of the numbers (R96). -/
theorem mergeMax_toNat (old : Byte) {r : Nat} (h : r < 256) : (mergeMax old r).toNat = max old.toNat r := by
  unfold mergeMax
  have hr : (BitVec.ofNat 8 r).toNat = r := by simp [Nat.mod_eq_of_lt h]
  split
  · rename_i hlt
    rw [BitVec.lt_def, hr] at hlt
    omega
  · rename_i hlt
    rw [BitVec.lt_def, hr] at hlt
    omega

/-- Merging two ranks in either order gives the same (R98). -/
theorem mergeMax_comm (old : Byte) {r r' : Nat} (h : r < 256) (h' : r' < 256) :
    mergeMax (mergeMax old r) r' = mergeMax (mergeMax old r') r := by
  refine BitVec.eq_of_toNat_eq ?_
  rw [mergeMax_toNat _ h', mergeMax_toNat _ h, mergeMax_toNat _ h, mergeMax_toNat _ h']
  omega

end Sys2Proof.Machine
end

