-- ==== Sys2Proof/Laws/Exec.lean ====
section
/-! SUPPORT. What each shared operation, each meaning and the step can do, said once. -/

namespace Sys2Proof.Machine

variable {s t : State}

/-- An admitted command runs. -/
theorem whenConstructed_true (h : s.CON = true) (o : Host.Outcome State Fault Refusal) : whenConstructed s o = o := by
  simp [whenConstructed, h]

/-- A command on an unconstructed engine is refused. -/
theorem whenConstructed_false (h : s.CON = false) (o : Host.Outcome State Fault Refusal) :
    whenConstructed s o = .refused .unconstructed := by simp [whenConstructed, h]

/-- Admission answers a next state only on a constructed engine, and then it is the meaning's. -/
theorem whenConstructed_next {o : Host.Outcome State Fault Refusal} (h : whenConstructed s o = .next t) :
    s.CON = true ∧ o = .next t := by
  cases hc : s.CON with
  | false => rw [whenConstructed_false hc] at h; cases h
  | true => rw [whenConstructed_true hc] at h; exact ⟨rfl, h⟩

/-- An access inside the address space goes to its continuation. -/
theorem withRegister_of_lt {i : Nat} (h : i < s.registerCount) (k : Byte → Host.Outcome State Fault Refusal) :
    withRegister s i k = k (Memory.read s.M i) := by simp [withRegister, h]

/-- INIT always answers the newly constructed state. -/
theorem exec_init (n : Int) (s : State) : exec (.init n) s = .next (s.construct (clampPrecision n)) := rfl

/-- ADD on a constructed engine, whatever `P` holds. -/
theorem exec_add (h : s.CON = true) (d : Digest) :
    exec (.add d) s = .next (s.setRegister (bucketIndex s.precision d)
      (mergeMax (Memory.read s.M (bucketIndex s.precision d)) (rank s.precision d))) := by
  show execAdd d s = _
  rw [execAdd, whenConstructed_true h, withRegister_of_lt]
  exact bucketIndex_lt s.precision_lt.le d

/-- EST on a constructed engine. -/
theorem exec_est (h : s.CON = true) (a : BitVec 32) :
    exec (.est a) s = .next (s.respond (f64bits (estimate LN s.precision s.M))) := whenConstructed_true h _

/-- RCNT on a constructed engine. -/
theorem exec_rcnt (h : s.CON = true) (a : BitVec 32) :
    exec (.rcnt a) s = .next (s.respond (BitVec.ofNat 64 s.registerCount)) := whenConstructed_true h _

/-- What a command can do when it answers a next state. -/
theorem exec_cases {i : Instr} (h : exec i s = .next t) :
    (∃ n, i = .init n ∧ t = s.construct (clampPrecision n)) ∨
    (∃ d, i = .add d ∧ s.CON = true ∧ t = s.setRegister (bucketIndex s.precision d)
      (mergeMax (Memory.read s.M (bucketIndex s.precision d)) (rank s.precision d))) ∨
    (∃ v, answers i = true ∧ s.CON = true ∧ t = s.respond v) := by
  cases i with
  | init n => exact .inl ⟨n, rfl, by rw [exec_init] at h; cases h; rfl⟩
  | add d =>
    have hc := (whenConstructed_next (s := s) h).1
    rw [exec_add hc] at h
    exact .inr (.inl ⟨d, rfl, hc, by cases h; rfl⟩)
  | est a =>
    obtain ⟨hc, h⟩ := whenConstructed_next (s := s) h
    exact .inr (.inr ⟨_, rfl, hc, (Host.Outcome.next.inj h).symm⟩)
  | rcnt a =>
    obtain ⟨hc, h⟩ := whenConstructed_next (s := s) h
    exact .inr (.inr ⟨_, rfl, hc, (Host.Outcome.next.inj h).symm⟩)

/-- All that `exec` refuses (R184): every command but INIT while `CON = 0`. -/
theorem exec_refused_iff {i : Instr} {r : Refusal} :
    exec i s = .refused r ↔ r = .unconstructed ∧ s.CON = false ∧ ∀ p, i ≠ .init p := by
  cases hc : s.CON with
  | true => cases i <;> simp [exec_init, exec_add hc, exec_est hc, exec_rcnt hc]
  | false =>
    cases i <;> simp [exec, execInit, execAdd, execEst, execRcnt, whenConstructed_false hc, eq_comm (a := r)]

/-- With no input left the engine is idle. -/
theorem step_of_no_input (h : s.inputs = []) : step s = .next s := by simp [step, clockEdge, h]

/-- Reset wins. -/
theorem step_of_reset {e : PortInput} {rest : List PortInput} (h : s.inputs = e :: rest) (hr : e.rst = true) :
    step s = .next (State.powerOnReset { s with inputs := rest }) := by simp [step, clockEdge, h, hr]

/-- A presented command is accepted when no response waits. -/
theorem step_of_command {e : PortInput} {rest : List PortInput} {w : CommandWord} (h : s.inputs = e :: rest)
    (hr : e.rst = false) (hc : e.command = some w) (hn : s.response = none) :
    step s = exec (decode w) { s with inputs := rest } := by
  simp [step, clockEdge, h, hr, hc, hn, State.cmdReady]

/-- No command presented, no response waiting: idle. -/
theorem step_of_idle {e : PortInput} {rest : List PortInput} (h : s.inputs = e :: rest) (hr : e.rst = false)
    (hc : e.command = none) (hn : s.response = none) : step s = .next { s with inputs := rest } := by
  simp [step, clockEdge, h, hr, hc, hn, State.cmdReady]

/-- A waiting response is delivered when the host is ready, and held otherwise. -/
theorem step_of_waiting {e : PortInput} {rest : List PortInput} {v : ResponseWord} (h : s.inputs = e :: rest)
    (hr : e.rst = false) (hn : s.response = some v) :
    step s = .next (if e.rspReady then State.deliver { s with inputs := rest } else { s with inputs := rest }) := by
  by_cases he : e.rspReady <;> simp [step, clockEdge, h, hr, hn, State.cmdReady, he]

/-- What a step can do when it answers a next state. -/
theorem step_cases (h : step s = .next t) :
    (s.inputs = [] ∧ t = s) ∨
    ∃ e rest, s.inputs = e :: rest ∧
      ((e.rst = true ∧ t = State.powerOnReset { s with inputs := rest }) ∨
      (e.rst = false ∧ s.response = none ∧ e.command = none ∧ t = { s with inputs := rest }) ∨
      (e.rst = false ∧ s.response = none ∧
        ∃ w, e.command = some w ∧ exec (decode w) { s with inputs := rest } = .next t) ∨
      (e.rst = false ∧ s.response ≠ none ∧ e.rspReady = false ∧ t = { s with inputs := rest }) ∨
      (e.rst = false ∧ s.response ≠ none ∧ e.rspReady = true ∧ t = State.deliver { s with inputs := rest })) := by
  match hi : s.inputs with
  | [] => rw [step_of_no_input hi] at h; exact .inl ⟨rfl, (Host.Outcome.next.inj h).symm⟩
  | e :: rest =>
    refine .inr ⟨e, rest, rfl, ?_⟩
    cases hr : e.rst with
    | true => rw [step_of_reset hi hr] at h; exact .inl ⟨rfl, (Host.Outcome.next.inj h).symm⟩
    | false =>
      cases hn : s.response with
      | none =>
        cases hc : e.command with
        | none =>
          rw [step_of_idle hi hr hc hn] at h
          exact .inr (.inl ⟨rfl, rfl, rfl, by rw [← Host.Outcome.next.inj h, hn]⟩)
        | some w =>
          rw [step_of_command hi hr hc hn] at h
          exact .inr (.inr (.inl ⟨rfl, rfl, w, rfl, by rw [← hn]; exact h⟩))
      | some v =>
        rw [step_of_waiting hi hr hn] at h
        have h := Host.Outcome.next.inj h
        cases hy : e.rspReady with
        | false =>
          rw [hy, if_neg Bool.false_ne_true] at h
          exact .inr (.inr (.inr (.inl ⟨rfl, by simp, rfl, by rw [← h, hn]⟩)))
        | true =>
          rw [hy, if_pos rfl] at h
          exact .inr (.inr (.inr (.inr ⟨rfl, by simp, rfl, by rw [← h, hn]⟩)))

/-! ## Runs -/

theorem run_succ_next {M : Host.Core} {s t : M.State} (h : M.step s = .next t) (n : Nat) :
    M.run (n + 1) s = M.run n t := by rw [Host.Core.run, h]

theorem run_succ_refused {M : Host.Core} {s : M.State} {r : M.Refusal} (h : M.step s = .refused r) (n : Nat) :
    M.run (n + 1) s = .refused r := by rw [Host.Core.run, h]

/-- A run that begins with a step to a next state goes on from there. -/
theorem runSteps_succ_next (h : step s = .next t) (n : Nat) : runSteps (n + 1) s = runSteps n t :=
  run_succ_next (M := Sys2Proof.core) h n

/-- A run that begins with a refused step is refused. -/
theorem runSteps_succ_refused {r : Refusal} (h : step s = .refused r) (n : Nat) : runSteps (n + 1) s = .refused r :=
  run_succ_refused (M := Sys2Proof.core) h n

end Sys2Proof.Machine
end

