-- ==== Sys2Proof/Laws/Float.lean ====
section
/-! SUPPORT. The laws of the binary64 primitives: what a pattern is worth, that patterns are ordered as their values,
and what rounding gives. -/

namespace Sys2Proof.Machine

/-! ## Powers of two and integer rounding -/

theorem ratPow2_eq (k : Int) : ratPow2 k = (2 : ℚ) ^ k := by
  unfold ratPow2
  split
  · rename_i h
    lift k to ℕ using h
    simp
  · rename_i h
    obtain ⟨n, rfl⟩ : ∃ n : ℕ, k = -(n : Int) := ⟨k.natAbs, by omega⟩
    rw [Rat.mkRat_eq_div]
    simp [zpow_neg]

/-- Rounding functions whose result is one of the two whole numbers around the quotient. -/
def RoundsToNeighbour (round : Nat → Nat → Nat) : Prop :=
  ∀ n d, 0 < d → n / d ≤ round n d ∧ round n d * d < n + d

theorem divDown_neighbour : RoundsToNeighbour divDown := fun n d hd =>
  ⟨le_rfl, by unfold divDown; have := Nat.div_mul_le_self n d; omega⟩

theorem divUp_neighbour : RoundsToNeighbour divUp := fun n d hd => by
  have h := Nat.div_add_mod' n d
  unfold divUp
  split
  · exact ⟨le_rfl, by omega⟩
  · exact ⟨by omega, by rw [Nat.add_mul]; omega⟩

theorem divNearest_neighbour : RoundsToNeighbour divNearest := fun n d hd => by
  have h := Nat.div_add_mod' n d
  unfold divNearest
  split
  · exact ⟨le_rfl, by omega⟩
  · split
    · exact ⟨by omega, by rw [Nat.add_mul]; omega⟩
    · rcases Nat.mod_two_eq_zero_or_one (n / d) with e | e <;> rw [e]
      · exact ⟨le_rfl, by simp only [Nat.add_zero]; omega⟩
      · exact ⟨by omega, by rw [Nat.add_mul]; omega⟩

theorem le_divUp_mul (n : Nat) {d : Nat} (_ : 0 < d) : n ≤ divUp n d * d := by
  have h := Nat.div_add_mod' n d
  have hm := Nat.mod_lt n ‹0 < d›
  unfold divUp
  split
  · omega
  · rw [Nat.add_mul]
    omega

theorem divDown_mul_le (n d : Nat) : divDown n d * d ≤ n := Nat.div_mul_le_self n d

/-- Rounding to nearest is off by at most half a unit, and by exactly half only when the result is even. -/
theorem divNearest_spec (n : Nat) {d : Nat} (hd : 0 < d) :
    2 * n ≤ (2 * divNearest n d + 1) * d ∧ 2 * (divNearest n d * d) ≤ 2 * n + d ∧
      (2 * n = (2 * divNearest n d + 1) * d ∨ 2 * (divNearest n d * d) = 2 * n + d → divNearest n d % 2 = 0) := by
  have h := Nat.div_add_mod' n d
  have hm := Nat.mod_lt n hd
  have e : ∀ a : Nat, (2 * a + 1) * d = 2 * (a * d) + d := fun a => by ring
  unfold divNearest
  split
  · refine ⟨by rw [e]; omega, by omega, fun h' => ?_⟩
    rw [e] at h'
    omega
  · split
    · rw [e, Nat.add_mul]
      refine ⟨by omega, by omega, fun h' => ?_⟩
      omega
    · rcases Nat.mod_two_eq_zero_or_one (n / d) with e2 | e2 <;> rw [e2, e]
      · refine ⟨by simp only [Nat.add_zero]; omega, by simp only [Nat.add_zero]; omega, fun _ => by omega⟩
      · rw [Nat.add_mul]
        refine ⟨by omega, by omega, fun _ => by omega⟩

/-- A whole quotient is its own rounding. -/
theorem RoundsToNeighbour.exact {round : Nat → Nat → Nat} (h : RoundsToNeighbour round) (k : Nat) {d : Nat}
    (hd : 0 < d) : round (k * d) d = k := by
  obtain ⟨h1, h2⟩ := h (k * d) d hd
  rw [Nat.mul_div_cancel _ hd] at h1
  have : round (k * d) d < k + 1 := by
    by_contra hc
    have := Nat.mul_le_mul_right d (Nat.le_of_not_lt hc)
    rw [Nat.add_mul] at this
    omega
  omega

/-- `floorLog2` is the exponent of the quotient. -/
theorem floorLog2_spec {n d : Nat} (hn : 0 < n) (hd : 0 < d) :
    (2 : ℚ) ^ floorLog2 n d ≤ (n : ℚ) / d ∧ (n : ℚ) / d < (2 : ℚ) ^ (floorLog2 n d + 1) := by
  have hn1 : 2 ^ n.log2 ≤ n := Nat.log2_self_le hn.ne'
  have hn2 : n < 2 ^ (n.log2 + 1) := Nat.lt_log2_self
  have hd1 : 2 ^ d.log2 ≤ d := Nat.log2_self_le hd.ne'
  have hd2 : d < 2 ^ (d.log2 + 1) := Nat.lt_log2_self
  have hdq : (0 : ℚ) < d := by exact_mod_cast hd
  have cast_le : ∀ {a b : ℕ}, a ≤ b → (a : ℚ) ≤ b := fun h => by exact_mod_cast h
  have cast_lt : ∀ {a b : ℕ}, a < b → (a : ℚ) < b := fun h => by exact_mod_cast h
  have hn1 := cast_le hn1
  have hn2 := cast_lt hn2
  have hd1 := cast_le hd1
  have hd2 := cast_lt hd2
  push_cast at hn1 hn2 hd1 hd2
  set k : Int := (n.log2 : Int) - (d.log2 : Int) with hk
  have two : (2 : ℚ) ≠ 0 := two_ne_zero
  have key : (d * 2 ^ k.toNat ≤ n * 2 ^ (-k).toNat) ↔ (2 : ℚ) ^ k ≤ (n : ℚ) / d := by
    rw [le_div_iff₀ hdq, ← Nat.cast_le (α := ℚ)]
    push_cast
    have e : (2 : ℚ) ^ k = (2 : ℚ) ^ k.toNat / (2 : ℚ) ^ (-k).toNat := by
      rw [eq_div_iff (by positivity), ← zpow_natCast, ← zpow_natCast, ← zpow_add₀ two]
      congr 1
      omega
    rw [e, div_mul_eq_mul_div, div_le_iff₀ (by positivity)]
    ring_nf
  have up : (n : ℚ) / d < (2 : ℚ) ^ (k + 1) := by
    rw [div_lt_iff₀ hdq]
    have e : (2 : ℚ) ^ (k + 1) * (2 : ℚ) ^ d.log2 = (2 : ℚ) ^ (n.log2 + 1) := by
      rw [← zpow_natCast, ← zpow_natCast, ← zpow_add₀ two]
      congr 1
      push_cast
      omega
    calc (n : ℚ) < 2 ^ (n.log2 + 1) := hn2
      _ = (2 : ℚ) ^ (k + 1) * (2 : ℚ) ^ d.log2 := e.symm
      _ ≤ _ := by gcongr
  have low : (2 : ℚ) ^ (k - 1) ≤ (n : ℚ) / d := by
    rw [le_div_iff₀ hdq]
    have e : (2 : ℚ) ^ (k - 1) * (2 : ℚ) ^ (d.log2 + 1) = (2 : ℚ) ^ n.log2 := by
      rw [← zpow_natCast, ← zpow_natCast, ← zpow_add₀ two]
      congr 1
      push_cast
      omega
    calc (2 : ℚ) ^ (k - 1) * d ≤ (2 : ℚ) ^ (k - 1) * (2 : ℚ) ^ (d.log2 + 1) := by gcongr
      _ = (2 : ℚ) ^ n.log2 := e
      _ ≤ n := hn1
  unfold floorLog2
  simp only [← hk]
  split
  · exact ⟨key.1 ‹_›, up⟩
  · rename_i hc
    rw [key, not_le] at hc
    exact ⟨low, by simpa using hc⟩

/-! ## The value of a pattern -/

/-- The value of a 63-bit magnitude pattern. -/
def patternValue (mag : Nat) : ℚ :=
  if mag / 2 ^ 52 = 0 then (mag % 2 ^ 52 : Nat) * (2 : ℚ) ^ (-1074 : Int)
  else (2 ^ 52 + mag % 2 ^ 52 : Nat) * (2 : ℚ) ^ (((mag / 2 ^ 52 : Nat) : Int) - 1075)

theorem f64WithSign_toNat (neg : Bool) {mag : Nat} (h : mag < 2 ^ 63) :
    (f64WithSign neg mag).toNat = (if neg then 2 ^ 63 else 0) + mag := by
  unfold f64WithSign
  rw [BitVec.toNat_append, BitVec.toNat_ofNat, Nat.mod_eq_of_lt h, Nat.shiftLeft_eq, Nat.or_comm,
    ← Nat.or_comm, ← Nat.shiftLeft_eq, ← Nat.shiftLeft_add_eq_or_of_lt h, Nat.shiftLeft_eq]
  cases neg <;> simp

theorem f64Exponent_eq (a : F64) : f64Exponent a = a.toNat / 2 ^ 52 % 2 ^ 11 := by
  simp [f64Exponent, BitVec.extractLsb'_toNat, Nat.shiftRight_eq_div_pow]

theorem f64Fraction_eq (a : F64) : f64Fraction a = a.toNat % 2 ^ 52 := by
  simp [f64Fraction, BitVec.extractLsb'_toNat]

theorem f64Sign_eq (a : F64) : f64Sign a = decide (2 ^ 63 ≤ a.toNat) := by
  simp [f64Sign, BitVec.msb_eq_decide]

theorem f64Magnitude_eq (a : F64) : f64Magnitude a = patternValue (a.toNat % 2 ^ 63) := by
  unfold f64Magnitude patternValue
  rw [f64Exponent_eq, f64Fraction_eq, ratPow2_eq, ratPow2_eq]
  have h1 : a.toNat % 2 ^ 63 / 2 ^ 52 = a.toNat / 2 ^ 52 % 2 ^ 11 := by omega
  have h2 : a.toNat % 2 ^ 63 % 2 ^ 52 = a.toNat % 2 ^ 52 := by omega
  rw [h1, h2]

/-- The magnitude of a pattern built from a sign and a magnitude. -/
theorem f64Magnitude_withSign (neg : Bool) {mag : Nat} (h : mag < 2 ^ 63) :
    f64Magnitude (f64WithSign neg mag) = patternValue mag := by
  rw [f64Magnitude_eq, f64WithSign_toNat neg h]
  congr 1
  cases neg
  · simp only [Bool.false_eq_true, if_false]; omega
  · simp only [if_true]; omega

theorem f64Sign_withSign (neg : Bool) {mag : Nat} (h : mag < 2 ^ 63) : f64Sign (f64WithSign neg mag) = neg := by
  rw [f64Sign_eq, f64WithSign_toNat neg h]
  cases neg
  · simp only [Bool.false_eq_true, if_false, decide_eq_false_iff_not]; omega
  · simp only [if_true, decide_eq_true_eq]; omega

theorem f64ToRat_withSign (neg : Bool) {mag : Nat} (h : mag < 2 ^ 63) :
    f64ToRat (f64WithSign neg mag) = if neg then -patternValue mag else patternValue mag := by
  rw [f64ToRat, f64Sign_withSign neg h, f64Magnitude_withSign neg h]

theorem f64Finite_withSign (neg : Bool) {mag : Nat} (h : mag < 2 ^ 63) :
    f64Finite (f64WithSign neg mag) = decide (mag < f64Infinity) := by
  rw [f64Finite, f64Exponent_eq, f64WithSign_toNat neg h]
  congr 1
  unfold f64Infinity
  cases neg <;> simp only [if_true, Bool.false_eq_true, if_false, eq_iff_iff] <;> omega

/-- The pattern with exponent offset `e` and significand `sig` (leading bit included) is worth
`sig * 2^(e - 1074)`. -/
theorem patternValue_of_significand {e sig : Nat} (h1 : sig ≤ 2 ^ 53) (h2 : e = 0 ∨ 2 ^ 52 ≤ sig) :
    patternValue (e * 2 ^ 52 + sig) = sig * (2 : ℚ) ^ ((e : Int) - 1074) := by
  have two : (2 : ℚ) ≠ 0 := two_ne_zero
  rcases Nat.lt_or_ge sig (2 ^ 52) with hs | hs
  · obtain rfl : e = 0 := by omega
    have hd : (0 * 2 ^ 52 + sig) / 2 ^ 52 = 0 := by omega
    have hm : (0 * 2 ^ 52 + sig) % 2 ^ 52 = sig := by omega
    unfold patternValue
    rw [if_pos hd, hm]
    norm_num
  · rcases Nat.lt_or_ge sig (2 ^ 53) with hs' | hs'
    · have hd : (e * 2 ^ 52 + sig) / 2 ^ 52 = e + 1 := by omega
      have hm : (e * 2 ^ 52 + sig) % 2 ^ 52 = sig - 2 ^ 52 := by omega
      unfold patternValue
      have e1 : 2 ^ 52 + (sig - 2 ^ 52) = sig := by omega
      have e2 : ((e + 1 : Nat) : Int) - 1075 = (e : Int) - 1074 := by push_cast; ring
      rw [if_neg (by omega), hd, hm, e1, e2]
    · obtain rfl : sig = 2 ^ 53 := by omega
      have hd : (e * 2 ^ 52 + 2 ^ 53) / 2 ^ 52 = e + 2 := by omega
      have hm : (e * 2 ^ 52 + 2 ^ 53) % 2 ^ 52 = 0 := by omega
      unfold patternValue
      rw [if_neg (by omega), hd, hm]
      have e1 : (((e + 2 : Nat) : Int) - 1075) = ((e : Int) - 1074) + 1 := by push_cast; ring
      rw [e1, zpow_add_one₀ two]
      push_cast
      ring

/-- Every magnitude pattern is worth its significand in units of its last place. -/
theorem exists_significand (mag : Nat) :
    ∃ e sig : Nat, mag = e * 2 ^ 52 + sig ∧ sig < 2 ^ 53 ∧ (e = 0 ∨ 2 ^ 52 ≤ sig) := by
  rcases Nat.eq_zero_or_pos (mag / 2 ^ 52) with h | h
  · exact ⟨0, mag, by omega, by omega, .inl rfl⟩
  · exact ⟨mag / 2 ^ 52 - 1, 2 ^ 52 + mag % 2 ^ 52, by omega, by omega, .inr (by omega)⟩

/-- A step of one pattern is a step of one unit in the last place. -/
theorem patternValue_lt_succ (mag : Nat) : patternValue mag < patternValue (mag + 1) := by
  obtain ⟨e, sig, rfl, h1, h2⟩ := exists_significand mag
  have v := patternValue_of_significand (e := e) (sig := sig) (by omega) h2
  have v' := patternValue_of_significand (e := e) (sig := sig + 1) (by omega) (by omega)
  have h3 : e * 2 ^ 52 + sig + 1 = e * 2 ^ 52 + (sig + 1) := by omega
  refine (v.trans_lt ?_).trans_eq (v'.symm.trans (congrArg patternValue h3.symm))
  gcongr
  exact Nat.lt_succ_self sig

/-- Magnitude patterns are ordered as their values. -/
theorem patternValue_strictMono : StrictMono patternValue := strictMono_nat_of_lt_succ patternValue_lt_succ

@[simp] theorem patternValue_zero : patternValue 0 = 0 := by simp [patternValue]

theorem patternValue_nonneg (mag : Nat) : 0 ≤ patternValue mag := by
  simpa using patternValue_strictMono.monotone (Nat.zero_le mag)

/-! ## Rounding -/

/-- The exponent of the unit in the last place of `n/d`. -/
def ulpExponent (n d : Nat) : Int := max (floorLog2 n d) (-1022) - 52

/-- The significand to which rounding takes `n/d`. -/
def roundedSignificand (round : Nat → Nat → Nat) (n d : Nat) : Nat :=
  round (n * 2 ^ (-ulpExponent n d).toNat) (d * 2 ^ (ulpExponent n d).toNat)

theorem ulpExponent_ge (n d : Nat) : -1074 ≤ ulpExponent n d := by unfold ulpExponent; omega

theorem scaled_quotient (n d : Nat) (q : Int) :
    ((n * 2 ^ (-q).toNat : Nat) : ℚ) / ((d * 2 ^ q.toNat : Nat) : ℚ) * (2 : ℚ) ^ q = (n : ℚ) / d := by
  have e : (2 : ℚ) ^ q = (2 : ℚ) ^ q.toNat / (2 : ℚ) ^ (-q).toNat := by
    rw [eq_div_iff (by positivity), ← zpow_natCast, ← zpow_natCast, ← zpow_add₀ two_ne_zero]
    congr 1
    omega
  rw [e]
  push_cast
  rcases eq_or_ne (d : ℚ) 0 with h | h
  · simp [h]
  · field_simp

/-- The rounded significand is a 53-bit significand, or one below 2^52 at the subnormal end, or the carry `2^53`. -/
theorem roundedSignificand_range {round : Nat → Nat → Nat} (hr : RoundsToNeighbour round) {n d : Nat} (hn : 0 < n)
    (hd : 0 < d) :
    roundedSignificand round n d ≤ 2 ^ 53 ∧
      (ulpExponent n d = -1074 ∨ 2 ^ 52 ≤ roundedSignificand round n d) := by
  obtain ⟨hlo, hhi⟩ := floorLog2_spec hn hd
  set q := ulpExponent n d with hq
  have hD : 0 < d * 2 ^ q.toNat := by positivity
  obtain ⟨r1, r2⟩ := hr (n * 2 ^ (-q).toNat) (d * 2 ^ q.toNat) hD
  have hDq : (0 : ℚ) < ((d * 2 ^ q.toNat : Nat) : ℚ) := by exact_mod_cast hD
  have hs := scaled_quotient n d q
  have hpos : (0 : ℚ) < (2 : ℚ) ^ q := by positivity
  have two : (2 : ℚ) ≠ 0 := two_ne_zero
  constructor
  · have hlt : ((n * 2 ^ (-q).toNat : Nat) : ℚ) / ((d * 2 ^ q.toNat : Nat) : ℚ) < 2 ^ 53 := by
      have : (n : ℚ) / d < 2 ^ 53 * (2 : ℚ) ^ q := by
        refine hhi.trans_le ?_
        rw [← zpow_natCast, ← zpow_add₀ two]
        refine zpow_le_zpow_right₀ one_le_two ?_
        have : floorLog2 n d ≤ max (floorLog2 n d) (-1022) := le_max_left _ _
        rw [hq]
        unfold ulpExponent
        push_cast
        omega
      rw [← hs] at this
      exact lt_of_mul_lt_mul_right this hpos.le
    rw [div_lt_iff₀ hDq] at hlt
    have hlt' : n * 2 ^ (-q).toNat < 2 ^ 53 * (d * 2 ^ q.toNat) := by exact_mod_cast hlt
    by_contra hc
    have hc' : 2 ^ 53 + 1 ≤ round (n * 2 ^ (-q).toNat) (d * 2 ^ q.toNat) := by
      have := Nat.lt_of_not_le hc
      exact this
    have := Nat.mul_le_mul_right (d * 2 ^ q.toNat) hc'
    rw [Nat.add_mul] at this
    omega
  · rcases le_or_gt (floorLog2 n d) (-1022) with h | h
    · left
      rw [hq]
      unfold ulpExponent
      omega
    · right
      refine le_trans ?_ r1
      rw [Nat.le_div_iff_mul_le hD]
      have hq' : q = floorLog2 n d - 52 := by
        rw [hq]
        unfold ulpExponent
        omega
      have : 2 ^ 52 * (2 : ℚ) ^ q ≤ (n : ℚ) / d := by
        refine le_trans (le_of_eq ?_) hlo
        rw [← zpow_natCast, ← zpow_add₀ two]
        congr 1
        push_cast
        omega
      rw [← hs] at this
      have := le_of_mul_le_mul_right this hpos
      rw [le_div_iff₀ hDq] at this
      exact_mod_cast this

theorem roundMagnitude_lt (round : Nat → Nat → Nat) (n d : Nat) : roundMagnitude round n d < 2 ^ 63 := by
  unfold roundMagnitude
  split
  · norm_num
  · refine lt_of_le_of_lt (Nat.min_le_right _ _) ?_
    norm_num [f64Infinity]

/-- What rounding a magnitude gives, unless it overflows: the rounded significand in units of the last place. -/
theorem roundMagnitude_value {round : Nat → Nat → Nat} (hr : RoundsToNeighbour round) {n d : Nat} (hn : 0 < n)
    (hd : 0 < d) (hfin : roundMagnitude round n d < f64Infinity) :
    patternValue (roundMagnitude round n d) = roundedSignificand round n d * (2 : ℚ) ^ ulpExponent n d := by
  obtain ⟨h1, h2⟩ := roundedSignificand_range hr hn hd
  have hge := ulpExponent_ge n d
  have e : roundMagnitude round n d =
      min ((ulpExponent n d + 1074).toNat * 2 ^ 52 + roundedSignificand round n d) f64Infinity := by
    unfold roundMagnitude
    rw [if_neg hn.ne']
    rfl
  rw [e] at hfin ⊢
  rw [Nat.min_def] at hfin ⊢
  split at hfin
  · rw [if_pos ‹_›, patternValue_of_significand h1 (by omega)]
    congr 2
    omega
  · exact absurd hfin (lt_irrefl _)

/-- The value `fround` gives, unless it overflows, has the sign of its argument and the rounded magnitude. -/
theorem f64ToRat_fround (r : ℚ) :
    f64ToRat (fround r) =
      if r < 0 then -patternValue (roundMagnitude divNearest r.num.natAbs r.den)
      else patternValue (roundMagnitude divNearest r.num.natAbs r.den) := by
  unfold fround roundSigned
  rw [f64ToRat_withSign _ (roundMagnitude_lt _ _ _)]
  by_cases h : r < 0 <;> simp [h]

end Sys2Proof.Machine
end

