-- ==== Sys2Proof/Laws/Logarithm.lean ====
section
/-! SUPPORT. The enclosure behind the logarithm unit: the real logarithm of a finite positive binary64 value lies between
`lnLow` and `lnHigh`, counted in units of `2^-lnScale`. -/

namespace Sys2Proof.Machine

open Finset

/-- The truncated sum is below the partial sum of the series by at most one unit a term. -/
theorem artanhSum_bounds (n : Nat) {d : Nat} (hd : 0 < d) (k : Nat) :
    (artanhSum n d k : ℝ) ≤ 2 ^ lnScale * ∑ j ∈ range k, ((n : ℝ) / d) ^ (2 * j + 1) / (2 * j + 1) ∧
      2 ^ lnScale * ∑ j ∈ range k, ((n : ℝ) / d) ^ (2 * j + 1) / (2 * j + 1) ≤ artanhSum n d k + k := by
  induction k with
  | zero => simp [artanhSum]
  | succ k ih =>
    have hD : 0 < (2 * k + 1) * d ^ (2 * k + 1) := by positivity
    have hDr : (0 : ℝ) < (((2 * k + 1) * d ^ (2 * k + 1) : Nat) : ℝ) := by exact_mod_cast hD
    have e : 2 ^ lnScale * (((n : ℝ) / d) ^ (2 * k + 1) / (2 * k + 1)) =
        ((2 ^ lnScale * n ^ (2 * k + 1) : Nat) : ℝ) / (((2 * k + 1) * d ^ (2 * k + 1) : Nat) : ℝ) := by
      push_cast
      rw [div_pow]
      have : (d : ℝ) ≠ 0 := by exact_mod_cast hd.ne'
      field_simp
    have lo : ((2 ^ lnScale * n ^ (2 * k + 1) / ((2 * k + 1) * d ^ (2 * k + 1)) : Nat) : ℝ) ≤
        2 ^ lnScale * (((n : ℝ) / d) ^ (2 * k + 1) / (2 * k + 1)) := by
      rw [e]
      exact Nat.cast_div_le
    have hi : 2 ^ lnScale * (((n : ℝ) / d) ^ (2 * k + 1) / (2 * k + 1)) ≤
        ((2 ^ lnScale * n ^ (2 * k + 1) / ((2 * k + 1) * d ^ (2 * k + 1)) : Nat) : ℝ) + 1 := by
      rw [e, div_le_iff₀ hDr]
      exact_mod_cast (Nat.lt_mul_of_div_lt (Nat.lt_succ_self _) hD).le
    rw [sum_range_succ, mul_add]
    unfold artanhSum
    push_cast at lo hi ih ⊢
    constructor
    · linarith [ih.1]
    · linarith [ih.2]

/-- The enclosure of half the logarithm of `(1 + z)/(1 - z)`, for `z = n/d <= 1/3`. -/
theorem artanh_enclosure {n d : Nat} (hd : 0 < d) (h : 3 * n ≤ d) :
    (artanhLow n d : ℝ) ≤ 2 ^ lnScale * (1 / 2 * Real.log ((1 + (n : ℝ) / d) / (1 - (n : ℝ) / d))) ∧
      2 ^ lnScale * (1 / 2 * Real.log ((1 + (n : ℝ) / d) / (1 - (n : ℝ) / d))) ≤ artanhHigh n d := by
  have hdr : (0 : ℝ) < d := by exact_mod_cast hd
  have hz0 : (0 : ℝ) ≤ (n : ℝ) / d := by positivity
  have hz3 : (n : ℝ) / d ≤ 1 / 3 := by
    rw [div_le_iff₀ hdr]
    have : (3 * n : ℝ) ≤ d := by exact_mod_cast h
    linarith
  have hz1 : (n : ℝ) / d < 1 := by linarith
  obtain ⟨s1, s2⟩ := artanhSum_bounds n hd lnTerms
  have l1 := Real.sum_range_le_log_div hz0 hz1 lnTerms
  have l2 := Real.log_div_le_sum_range_add hz0 hz1 lnTerms
  have tail : 2 ^ lnScale * (((n : ℝ) / d) ^ (2 * lnTerms + 1) / (1 - ((n : ℝ) / d) ^ 2)) ≤ 1 := by
    have p1 : ((n : ℝ) / d) ^ (2 * lnTerms + 1) ≤ (1 / 3) ^ (2 * lnTerms + 1) := by gcongr
    have p2 : ((n : ℝ) / d) ^ 2 ≤ (1 / 3) ^ 2 := by gcongr
    have p3 : (8 / 9 : ℝ) ≤ 1 - ((n : ℝ) / d) ^ 2 := by norm_num at p2 ⊢; linarith
    rw [← mul_div_assoc, div_le_one (by linarith)]
    refine le_trans (mul_le_mul_of_nonneg_left p1 (by positivity)) (le_trans ?_ p3)
    have small : 2 ^ lnScale * 9 ≤ 8 * 3 ^ (2 * lnTerms + 1) := by decide +kernel
    have small' : (2 : ℝ) ^ lnScale * 9 ≤ 8 * 3 ^ (2 * lnTerms + 1) := by exact_mod_cast small
    rw [one_div, inv_pow, ← div_eq_mul_inv, div_le_div_iff₀ (by positivity) (by norm_num)]
    exact small'
  unfold artanhLow artanhHigh
  push_cast
  have hpos : (0 : ℝ) < 2 ^ lnScale := by positivity
  constructor
  · exact s1.trans (mul_le_mul_of_nonneg_left l1 hpos.le)
  · refine (mul_le_mul_of_nonneg_left l2 hpos.le).trans ?_
    rw [mul_add]
    linarith

/-- Half the logarithm of 2, the constant of the enclosure. -/
theorem half_log_two : 1 / 2 * Real.log ((1 + ((1 : ℕ) : ℝ) / (3 : ℕ)) / (1 - ((1 : ℕ) : ℝ) / (3 : ℕ))) =
    1 / 2 * Real.log 2 := by norm_num

/-- A finite positive pattern is worth its significand, `lnExponent` and `(f - 1)/(f + 1)` of which the enclosure is
made. -/
theorem f64ToRat_eq_significand {x : F64} (h : f64FinitePositive x = true) :
    0 < f64Significand x ∧
      f64ToRat x = f64Significand x * (2 : ℚ) ^ (lnExponent x - (f64Significand x).log2) := by
  obtain ⟨h0, h1⟩ : 0 < x.toNat ∧ x.toNat < 2047 * 2 ^ 52 := of_decide_eq_true h
  have hs : f64Sign x = false := by rw [f64Sign_eq]; simp only [decide_eq_false_iff_not]; omega
  unfold f64ToRat lnExponent
  rw [if_neg (by rw [hs]; exact Bool.false_ne_true), f64Magnitude, ratPow2_eq, ratPow2_eq]
  by_cases he : f64Exponent x = 0
  · simp only [f64Significand, he, if_true]
    rw [f64Exponent_eq] at he
    refine ⟨by rw [f64Fraction_eq]; omega, ?_⟩
    congr 2
    ring
  · simp only [f64Significand, he, if_false]
    refine ⟨by omega, ?_⟩
    congr 2
    ring

/-- The enclosure: `lnLow <= 2^lnScale * ln x <= lnHigh` for a finite positive `x`. -/
theorem ln_enclosure {x : F64} (h : f64FinitePositive x = true) :
    (lnLow x : ℝ) ≤ 2 ^ lnScale * Real.log (f64ToRat x : ℝ) ∧
      2 ^ lnScale * Real.log (f64ToRat x : ℝ) ≤ lnHigh x := by
  obtain ⟨hpos, hval⟩ := f64ToRat_eq_significand h
  set S := f64Significand x with hS
  have b1 : 2 ^ S.log2 ≤ S := Nat.log2_self_le hpos.ne'
  have b2 : S < 2 ^ (S.log2 + 1) := Nat.lt_log2_self
  have hn : lnNumerator x = S - 2 ^ S.log2 := rfl
  have hd : lnDenominator x = S + 2 ^ S.log2 := rfl
  have hd0 : 0 < lnDenominator x := by rw [hd]; positivity
  have h3 : 3 * lnNumerator x ≤ lnDenominator x := by rw [hn, hd]; rw [pow_succ] at b2; omega
  obtain ⟨f1, f2⟩ := artanh_enclosure hd0 h3
  obtain ⟨t1, t2⟩ := artanh_enclosure (n := 1) (d := 3) (by norm_num) (by norm_num)
  rw [half_log_two] at t1 t2
  have hL : (0 : ℝ) < (2 : ℝ) ^ S.log2 := by positivity
  have hf : (1 + (lnNumerator x : ℝ) / lnDenominator x) / (1 - (lnNumerator x : ℝ) / lnDenominator x) =
      (S : ℝ) / 2 ^ S.log2 := by
    rw [hn, hd, Nat.cast_sub b1]
    push_cast
    have : (S : ℝ) + 2 ^ S.log2 ≠ 0 := by positivity
    rw [div_eq_div_iff]
    · field_simp
      ring
    · field_simp
      ring_nf
      positivity
    · positivity
  have hlog : Real.log (f64ToRat x : ℝ) = lnExponent x * Real.log 2 + Real.log ((S : ℝ) / 2 ^ S.log2) := by
    have e : ((f64ToRat x : ℚ) : ℝ) = (2 : ℝ) ^ lnExponent x * ((S : ℝ) / 2 ^ S.log2) := by
      rw [hval, zpow_sub₀ two_ne_zero, zpow_natCast]
      push_cast
      field_simp
    have hSr : (0 : ℝ) < S := by exact_mod_cast hpos
    rw [e, Real.log_mul (by positivity) (by positivity), Real.log_zpow]
  rw [hf] at f1 f2
  unfold lnLow lnHigh
  rw [hlog]
  by_cases he : 0 ≤ lnExponent x
  · have her : (0 : ℝ) ≤ lnExponent x := by exact_mod_cast he
    simp only [he, if_true]
    push_cast
    have m1 := mul_le_mul_of_nonneg_left t1 her
    have m2 := mul_le_mul_of_nonneg_left t2 her
    constructor <;> linarith
  · have her : (lnExponent x : ℝ) ≤ 0 := by exact_mod_cast (not_le.1 he).le
    simp only [he, if_false]
    push_cast
    have m1 := mul_le_mul_of_nonpos_left t1 her
    have m2 := mul_le_mul_of_nonpos_left t2 her
    constructor <;> linarith

end Sys2Proof.Machine
end

