-- ==== Sys2Proof/Laws/PerInstr.lean ====
section
/-! SUPPORT. What is said of every command as syntax, one lemma per constructor. -/

namespace Sys2Proof.Laws.OpcodeField

/-- The two top bits of a command's word are its opcode and the other bits its operand field (R61, R62). -/
def Statement (i : Instr) : Prop := opField (encode i) = opcode i ∧ argField (encode i) = operand i

theorem fields_of_append (op : BitVec 2) (arg : BitVec 32) :
    opField (op ++ arg) = op ∧ argField (op ++ arg) = arg := by
  have e : (op ++ arg).toNat = op.toNat * 2 ^ 32 + arg.toNat := by
    rw [BitVec.toNat_append, ← Nat.shiftLeft_add_eq_or_of_lt arg.isLt, Nat.shiftLeft_eq]
  have ho := op.isLt
  have ha := arg.isLt
  constructor
  · refine BitVec.eq_of_toNat_eq ((BitVec.extractLsb'_toNat _ _ _).trans ?_)
    rw [Nat.shiftRight_eq_div_pow]
    exact (congrArg (fun n => n / 2 ^ 32 % 2 ^ 2) e).trans (by omega)
  · refine BitVec.eq_of_toNat_eq ((BitVec.extractLsb'_toNat _ _ _).trans ?_)
    rw [Nat.shiftRight_eq_div_pow]
    exact (congrArg (fun n => n / 2 ^ 0 % 2 ^ 32) e).trans (by omega)

theorem init (n : Int) : Statement (.init n) := fields_of_append _ _

theorem add (d : Digest) : Statement (.add d) := fields_of_append _ _

theorem est (a : BitVec 32) : Statement (.est a) := fields_of_append _ _

theorem rcnt (a : BitVec 32) : Statement (.rcnt a) := fields_of_append _ _

end Sys2Proof.Laws.OpcodeField
end

