-- ==== Sys2Proof/Laws/Text.lean ====
section
/-! SUPPORT. The laws of the textual syntax: reading the digits that were written gives the number back. -/

namespace Sys2Proof.Machine

theorem digitValue_digitChar {base n : Nat} (hb : base ≤ 16) (hn : n < base) :
    digitValue base (digitChar n) = some n := by
  have h : ∀ b ≤ 16, ∀ v < b, digitValue b (digitChar v) = some v := by decide
  exact h base hb n hn

theorem readDigits_digit {base v : Nat} (hb : base ≤ 16) (hv : v < base) :
    readDigits base [digitChar v] = some v := by
  simp [readDigits, digitValue_digitChar hb hv]

/-- One more digit multiplies by the base and adds its value. -/
theorem readDigits_append_digit {base m v : Nat} {cs : List Char} (hb : base ≤ 16) (hv : v < base)
    (h : readDigits base cs = some m) : readDigits base (cs ++ [digitChar v]) = some (m * base + v) := by
  rw [readDigits] at h ⊢
  split at h
  · cases h
  · obtain ⟨vs, hvs, rfl⟩ := Option.map_eq_some_iff.mp h
    simp [List.mapM_append, hvs, digitValue_digitChar hb hv]

theorem readDigits_hexDigits (k n : Nat) : readDigits 16 (hexDigits (k + 1) n) = some (n % 16 ^ (k + 1)) := by
  induction k generalizing n with
  | zero =>
    rw [pow_one]
    exact readDigits_digit (by omega) (Nat.mod_lt _ (by omega))
  | succ k ih =>
    rw [hexDigits, readDigits_append_digit (by omega) (Nat.mod_lt _ (by omega)) (ih (n / 16)), pow_succ' 16 (k + 1),
      Nat.mod_mul]
    congr 1
    ring

theorem readDigits_decDigits {k n : Nat} (h : n < 10 ^ (k + 1)) : readDigits 10 (decDigits k n) = some n := by
  induction k generalizing n with
  | zero =>
    rw [decDigits, readDigits_digit (by omega) (Nat.mod_lt _ (by omega)), Nat.mod_eq_of_lt (by omega)]
  | succ k ih =>
    rw [decDigits]
    split
    · exact readDigits_digit (by omega) ‹_›
    · rw [readDigits_append_digit (by omega) (Nat.mod_lt _ (by omega)) (ih (by rw [pow_succ] at h; omega))]
      congr 1
      omega

@[simp] theorem hexDigits_length (k n : Nat) : (hexDigits k n).length = k := by
  induction k generalizing n with
  | zero => rfl
  | succ k ih => simp [hexDigits, ih]

end Sys2Proof.Machine
end

