-- ==== Sys2Proof/Machine/Flags.lean ====
section
/-! DEFINITION. There is nothing to define: the engine has no status flag, condition code, predicate or sticky bit,
no command writes one as a side effect, and the binary64 operations of EST raise none (R28, R151).  The two
comparisons that select inside EST, `fle` and `fgt`, are in `Sys2Proof/Machine/Float.lean`. -/
end

