-- ==== Sys2Proof/Tests/Slice0.lean ====
section
/-! SUPPORT. The model's own tests, each about one operation or one step, with the expected values of
`spec/95_test_vectors.md`; and for every statement with hypotheses a witness that meets them. -/

namespace Sys2Proof.Tests

open Sys2Proof.Machine

/-- A constructed engine with nothing pending. -/
def sketch (p : BitVec 5) (M : List Host.Cell) : State := { State.reset with CON := true, P := p, M := M }

/-- Sixteen registers that all hold `v`. -/
def uniform (v : Byte) : List Host.Cell := (List.range 16).map fun i => (i, v)

/-- A sketch of precision 4 with two registers set. -/
def small : State := sketch 4#5 [(1, 3#8), (8, 28#8)]

/-! ## WellFormed: an operand that no 32-bit field carries is refused -/

theorem test_wellFormed_refuses_above : (Instr.init 2147483648).wellFormed = false := by decide
theorem test_wellFormed_refuses_below : (Instr.init (-2147483649)).wellFormed = false := by decide

/-! ## Decoding: words written out from R61 and R62 (table 2.1) -/

theorem test_decode_init : decode 0b0000000000000000000000000000001010#34 = .init 10 := by decide
theorem test_decode_init_negative : decode 0x0FFFFFFFF#34 = .init (-1) := by decide
theorem test_decode_add : decode 0b0111011110101011011011111011101111#34 = .add 0xDEADBEEF#32 := by decide
theorem test_decode_est : decode 0b1000000000000000000000000000000000#34 = .est 0#32 := by decide
theorem test_decode_est_ignores : decode 0x2DEADBEEF#34 = .est 0xDEADBEEF#32 := by decide
theorem test_decode_rcnt : decode 0b1100000000000000000000000000000000#34 = .rcnt 0#32 := by decide
theorem test_decode_wide : decodeNumber 0x400000000 = .error .widerThanCommandWord := by decide
theorem test_decode_table_word : decodeTableWord 40 0x1DEADBEEF = some (.add 0xDEADBEEF#32) := by decide
theorem test_encode_init : encode (.init (-1)) = 0x0FFFFFFFF#34 := by decide

/-! ## Text (R68, table 2.1) -/

theorem test_assemble_init :
    (assemble ['I', 'N', 'I', 'T', ' ', '1', '0']).map encode = some 0x00000000A#34 := by decide
theorem test_assemble_add :
    (assemble ['A', 'D', 'D', ' ', '0', 'x', 'D', 'E', 'A', 'D', 'B', 'E', 'E', 'F']).map encode =
      some 0x1DEADBEEF#34 := by decide
theorem test_disassemble_init : disassemble (.init (-1)) = ['I', 'N', 'I', 'T', ' ', '-', '1'] := by decide
theorem test_wordText : wordText 0x1DEADBEEF#34 = ['0', 'x', '1', 'D', 'E', 'A', 'D', 'B', 'E', 'E', 'F'] := by decide

/-! ## The integer units (tables 2.3, 2.4) -/

theorem test_lzc32 : [0x23456780#32, 0x00000400#32, 0x00000000#32].map lzc32 = [2, 21, 32] := by decide
theorem test_bucketIndex : bucketIndex 10 0xDEADBEEF#32 = 0x37A := by decide
theorem test_remainingBits : remainingBits 10 0xDEADBEEF#32 = 0xB6FBBC00#32 := by decide
theorem test_rank_capped : rank 10 0x00400000#32 = 23 := by decide
theorem test_rank_uncapped : rank 4 0x00000001#32 = 28 := by decide
theorem test_mergeMax : [mergeMax 5 3, mergeMax 3 5, mergeMax 5 5] = [5#8, 5#8, 5#8] := by decide

/-! ## The commands -/

/-- `INIT 100` clamps to 16 (S5). -/
theorem test_init_clamps_high : exec (.init 100) State.reset = .next (sketch 16#5 []) := rfl

/-- `INIT -1` discards the old sketch and clamps to 4 (P3, step 9). -/
theorem test_init_clamps_low : exec (.init (-1)) small = .next (sketch 4#5 []) := rfl

/-- Table 2.4: `P = 4`, `0x12345678`, empty bucket 1 becomes 3. -/
theorem test_add_fresh_bucket : exec (.add 0x12345678#32) (sketch 4#5 []) = .next (sketch 4#5 [(1, 3#8)]) := by
  rw [exec_add rfl]; exact congrArg _ (by decide)

/-- Table 2.4: `P = 16`, `0xDEAD0000`, the cap raises bucket `0xDEAD` from 1 to 17. -/
theorem test_add_raises : exec (.add 0xDEAD0000#32) (sketch 16#5 [(0xDEAD, 1#8)]) =
    .next (sketch 16#5 [(0xDEAD, 17#8)]) := by
  rw [exec_add rfl]; exact congrArg _ (by decide)

/-- R83: `RCNT` after `INIT 1` answers 16. -/
theorem test_rcnt : exec (.rcnt 0) (sketch 4#5 []) = .next ((sketch 4#5 []).respond 0x0000000000000010#64) := rfl

/-- Table 2.6: the empty sketch answers `+0.0`. -/
theorem test_est_empty : estimate LN 4 [] = 0x0000000000000000#64 := by decide +kernel

/-- Table 2.7: the saturated sketch keeps its raw estimate. -/
theorem test_est_saturated : estimate LN 4 (uniform 29#8) = 0x41F589374BC6A7F0#64 := by decide +kernel

/-- Table 2.11: before INIT, RCNT is refused. -/
theorem test_refused : step (State.reset.present [encode (.rcnt 0)]) = .refused .unconstructed := by
  rw [step_of_command (e := presenting (encode (.rcnt 0))) (rest := [taking]) rfl rfl rfl rfl]; rfl

/-- R66: a waiting response is delivered at an edge with `rsp_ready = 1`. -/
theorem test_response_delivered :
    step { small with response := some 7#64, inputs := [taking] } = .next { small with delivered := [7#64] } := rfl

/-- R202: reset drops a waiting response and destroys the sketch; with `rsp_ready = 1` at that edge, log entry 18. -/
theorem test_reset_drops_response :
    step { small with response := some 7#64, inputs := [{ rst := true, command := none, rspReady := true }] } =
      .next State.reset := rfl

/-! ## The stages of EST with the reference logarithm (tables 2.8, 2.9, program P7) -/

theorem test_estimate_normal : estimate lnRef 4 (uniform 2#8) = 0x404589374BC6A7F0#64 := by decide +kernel
theorem test_estimate_no_zeros : estimate lnRef 4 (uniform 1#8) = 0x403589374BC6A7F0#64 := by decide +kernel
theorem test_estimate_large : estimate lnRef 4 (uniform 28#8) = 0x41F1E27D1F8DA75E#64 := by decide +kernel
theorem test_estimate_small :
    estimate lnRef 4 [(0, 29#8), (1, 29#8), (8, 29#8), (13, 1#8), (15, 28#8)] = 0x4017FAFA3BD8151C#64 := by
  decide +kernel
theorem test_estimate_p10 :
    estimate lnRef 10 [(0, 1#8), (1, 23#8), (72, 1#8), (890, 1#8), (1023, 23#8)] = 0x40140C8A7478788D#64 := by
  decide +kernel

/-- Program P3, step 8: the scan of 65536 registers, from the four listed ones. -/
theorem test_zAcc_p16 : zAcc 16 [(0, 17#8), (4660, 2#8), (57005, 17#8), (65535, 1#8)] = 8589508610 := by
  have h := zAcc_eq_listed (p := 16) (M := [(0, 17#8), (4660, 2#8), (57005, 17#8), (65535, 1#8)])
    (by decide) (by decide)
  simp [maxRank] at h
  omega

theorem test_zeroCount_p16 : zeroCount 16 [(0, 17#8), (4660, 2#8), (57005, 17#8), (65535, 1#8)] = 65532 := by
  have h := zeroCount_eq_unlisted (p := 16) (M := [(0, 17#8), (4660, 2#8), (57005, 17#8), (65535, 1#8)])
    (by decide) (by decide)
  simp at h
  omega

/-! ## Binary64 (R116, R152, R161) -/

theorem test_alpha : [alpha 7, alpha 16] = [0x3FE6E37EF20B947A#64, 0x3FE714CAD53D1AD7#64] := by decide +kernel
theorem test_tLarge : tLarge = 0x41A1111111111111#64 := by decide +kernel
theorem test_lnRef : lnRef 0x3FF999999999999A#64 = 0x3FDE148A1A2726CF#64 := by decide +kernel

/-- The engine's logarithm of 2 is one of the two values around `ln 2` (R160 (a); 22 digits of `ln 2` say which). -/
theorem test_LN_two : LN 0x4000000000000000#64 = 0x3FE62E42FEFA39EF#64 ∨
    LN 0x4000000000000000#64 = 0x3FE62E42FEFA39F0#64 := by
  have hb : lnBelow 0x4000000000000000#64 = 0x3FE62E42FEFA39EF#64 := by decide +kernel
  have ha : lnAbove 0x4000000000000000#64 = 0x3FE62E42FEFA39F0#64 := by decide +kernel
  unfold LN
  rw [if_neg (by decide), if_pos (by decide), hb, ha]
  split
  · exact .inr rfl
  · exact .inl rfl

/-! ## Witnesses: states and operands that meet the hypotheses of the statements -/

theorem witness_small_meets_invariant : small.Inv ∧ small.CON = true ∧ legalPrecision small.precision ∧
    Memory.wf small.M := by decide

theorem witness_DecodeInvertsEncode : (Instr.init (-2147483648)).wellFormed = true ∧
    (Instr.init 2147483647).wellFormed = true ∧ (Instr.add 0#32).wellFormed = true := by decide

theorem witness_AssembleInvertsDisassemble :
    (-2147483648 : Int) ≤ -2147483648 ∧ (2147483647 : Int) ≤ 2147483647 ∧
    assemble (disassemble (.init (-2147483648))) = some (.init (-2147483648)) := by decide

theorem witness_StepRunsTheDecodedCommand :
    (State.reset.present [encode (.init 4)]).inputs = [presenting 0x000000004#34, taking] ∧
    (presenting 0x000000004#34).rst = false ∧ (presenting 0x000000004#34).command = some 0x000000004#34 ∧
    (State.reset.present [encode (.init 4)]).response = none ∧
    decodeTableWord 40 0x300000000 = some (.rcnt 0) ∧ decodeTableWord 40 0x3FFFFFFFF = some (.rcnt 0xFFFFFFFF#32) := by
  decide

theorem witness_IdleStepChangesNothing : State.reset.inputs = [] ∧
    ({ small with inputs := [taking] } : State).inputs = [taking] ∧ taking.rst = false ∧ taking.command = none ∧
    ({ small with inputs := [taking] } : State).response = none := by decide

theorem witness_ResetWins :
    ({ small with response := some 7#64, inputs := [{ rst := true, command := some 0x200000000#34, rspReady := true }] }
      : State).inputs = [{ rst := true, command := some 0x200000000#34, rspReady := true }] := rfl

/-- The two clauses: `rsp_ready = 0` and `rsp_ready = 1`; and a host that never takes the response. -/
theorem witness_ResponseIsHeldUntilTaken :
    (small.respond 7#64).response = some 7#64 ∧ (presenting 0x200000000#34).rst = false ∧
    (presenting 0x200000000#34).rspReady = false ∧ taking.rst = false ∧ taking.rspReady = true ∧
    ∀ e ∈ ({ small.respond 7#64 with inputs := [presenting 0x200000000#34, presenting 0x200000000#34] } : State).inputs,
      e.rst = false ∧ e.rspReady = false := by decide

theorem witness_PortsRefineSerialExecution : small.inputs = [] ∧ small.response = none := ⟨rfl, rfl⟩

theorem witness_UnconstructedEngineRefuses : State.reset.CON = false ∧
    (∀ e ∈ (State.reset.present [encode (.est 0)]).inputs, e.rst = false) ∧
    runSteps 1 (State.reset.present [encode (.est 0)]) = .refused .unconstructed := ⟨rfl, by decide, rfl⟩

/-- An EST before INIT with a reset edge after it. -/
def refusedThenReset : State :=
  { State.reset with
    inputs := [presenting (encode (.est 0)), { rst := true, command := none, rspReady := false }] }

theorem witness_RefusalIsFinal : refusedThenReset.CON = false ∧ refusedThenReset.response = none ∧
    (presenting (encode (.est 0))).rst = false ∧ (presenting (encode (.est 0))).command = some 0x200000000#34 ∧
    (∀ p, decode 0x200000000#34 ≠ .init p) ∧ step refusedThenReset = .refused .unconstructed :=
  ⟨rfl, rfl, rfl, rfl, fun _ => (by simp [show decode 0x200000000#34 = .est 0 by decide]), rfl⟩

theorem witness_UnspecifiedContentIsUnobservable : State.reset.CON = false ∧
    ({ State.reset with P := 7#5, M := [(3, 9#8)] } : State).CON = false ∧
    State.reset.response = ({ State.reset with P := 7#5, M := [(3, 9#8)] } : State).response ∧
    State.reset.inputs = ({ State.reset with P := 7#5, M := [(3, 9#8)] } : State).inputs ∧
    State.reset.delivered = ({ State.reset with P := 7#5, M := [(3, 9#8)] } : State).delivered := by decide

theorem witness_ProgramCompletesExactlyWhenInitFirst : State.reset.inputs = [] ∧ State.reset.response = none ∧
    initFirst State.reset.CON ([encode (.init 4), encode (.est 0)].map decode) = true ∧
    initFirst State.reset.CON ([encode (.est 0), encode (.init 4)].map decode) = false ∧
    initFirst small.CON ([encode (.est 0)].map decode) = true := by decide

theorem witness_EachAnsweringCommandAnswersOnce : State.reset.inputs = [] ∧ State.reset.response = none ∧
    runSteps 4 (State.reset.present [encode (.init 4), encode (.rcnt 0)]) =
      .next { sketch 4#5 [] with delivered := [16#64] } ∧
    exec (.rcnt 0) small = .next (small.respond 16#64) ∧ exec (.init 4) small = .next (sketch 4#5 []) :=
  ⟨rfl, rfl, rfl, rfl, rfl⟩

theorem witness_InitForgetsTheOldSketch : small.response = State.reset.response ∧
    small.inputs = State.reset.inputs ∧ small.delivered = State.reset.delivered := by decide

theorem witness_RcntAnswersTheRegisterCount : small.CON = true ∧ legalPrecision small.precision ∧
    State.reset.CON = false := by decide

theorem witness_LeadingZeroCount : (1#32 : BitVec 32) ≠ 0#32 ∧ (0x80000000#32 : BitVec 32) ≠ 0#32 := by decide

theorem witness_LeadingZeroCountAntitone : (0x0000FFFF#32 : BitVec 32) ≤ 0x00010000#32 := by decide

theorem witness_RankCaseByCase_none_left : legalPrecision 4 ∧ (0x80000000#32 : Digest).toNat % 2 ^ (32 - 4) = 0 ∧
    legalPrecision 16 ∧ (0xDEAD0000#32 : Digest).toNat % 2 ^ (32 - 16) = 0 := by decide

theorem witness_RankCaseByCase_some_left : legalPrecision 4 ∧ (0x80000001#32 : Digest).toNat % 2 ^ (32 - 4) ≠ 0 ∧
    legalPrecision 16 ∧ (0xFFFFFFFF#32 : Digest).toNat % 2 ^ (32 - 16) ≠ 0 := by decide

theorem witness_AddRaisesOneRegister : small.CON = true ∧ legalPrecision small.precision ∧ Memory.wf small.M ∧
    (0xF0000001#32 : Digest).toNat % 2 ^ (32 - small.precision) ≠ 0 ∧
    (0xF0000000#32 : Digest).toNat % 2 ^ (32 - small.precision) = 0 ∧ State.reset.CON = false := by decide

theorem witness_AddCompletes : ({ small with P := 31#5 } : State).CON = true := rfl

theorem witness_AddsDependOnlyOnTheSetOfDigests : small.CON = true ∧ Memory.wf small.M ∧
    (∀ d : Digest, d ∈ [1#32, 2#32, 1#32] ↔ d ∈ [2#32, 1#32]) :=
  ⟨by decide, by decide, fun d => by simp; tauto⟩

theorem witness_BucketSaturates : (sketch 4#5 (uniform 29#8)).CON = true ∧ (sketch 4#5 (uniform 29#8)).Inv ∧
    (Memory.read (sketch 4#5 (uniform 29#8)).M 15).toNat = 33 - (sketch 4#5 (uniform 29#8)).precision ∧
    15 < 2 ^ (sketch 4#5 (uniform 29#8)).precision := by decide

theorem witness_RoundingIsToNearestEven : |(1 / 3 : ℚ)| ≤ (2 ^ 53 - 1) * 2 ^ 971 ∧
    f64Finite 0x3FD5555555555555#64 = true :=
  ⟨by rw [abs_of_pos (by norm_num)]; decide +kernel, by decide⟩

/-- A tie: `1 + 2^-53` is halfway between 1 and its successor, and goes to 1, whose fraction is even. -/
theorem witness_RoundingIsToNearestEven_tie :
    |f64ToRat (fround (1 + mkRat 1 (2 ^ 53))) - (1 + mkRat 1 (2 ^ 53))| =
      |f64ToRat 0x3FF0000000000001#64 - (1 + mkRat 1 (2 ^ 53))| ∧
    f64ToRat 0x3FF0000000000001#64 ≠ f64ToRat (fround (1 + mkRat 1 (2 ^ 53))) := by
  have h : fround (1 + mkRat 1 (2 ^ 53)) = 0x3FF0000000000000#64 := by decide +kernel
  rw [h]
  constructor
  · have e1 : f64ToRat 0x3FF0000000000000#64 - (1 + mkRat 1 (2 ^ 53)) = -mkRat 1 (2 ^ 53) := by decide +kernel
    have e2 : f64ToRat 0x3FF0000000000001#64 - (1 + mkRat 1 (2 ^ 53)) = mkRat 1 (2 ^ 53) := by decide +kernel
    rw [e1, e2, abs_neg]
  · decide +kernel

theorem witness_OperationsRoundTheExactResultOnce :
    f64Finite 0x3FF0000000000000#64 = true ∧ f64Finite 0xBFF0000000000000#64 = true ∧
    f64ToRat 0x3FF0000000000000#64 + f64ToRat 0xBFF0000000000000#64 = 0 ∧
    f64Sign 0x3FF0000000000000#64 ≠ f64Sign 0xBFF0000000000000#64 ∧
    f64ToRat 0x3FF0000000000000#64 - f64ToRat 0x3FF0000000000000#64 = 0 ∧
    f64ToRat 0xBFF0000000000000#64 ≠ 0 := by decide +kernel

theorem witness_ComparisonsAreThoseOfTheReals : f64Finite 0x8000000000000000#64 = true ∧
    f64Finite 0x7FEFFFFFFFFFFFFF#64 = true := by decide

/-- The greatest finite value by `2^-1022`, and the least normal value by `2^1023`. -/
theorem witness_MultiplicationByPowerOfTwoIsExact :
    (f64Finite 0x7FEFFFFFFFFFFFFF#64 = true ∧ f64Exponent 0x7FEFFFFFFFFFFFFF#64 ≠ 0 ∧
      1 ≤ (f64Exponent 0x7FEFFFFFFFFFFFFF#64 : Int) + -1022 ∧
      (f64Exponent 0x7FEFFFFFFFFFFFFF#64 : Int) + -1022 ≤ 2046) ∧
    (f64Finite 0x0010000000000000#64 = true ∧ f64Exponent 0x0010000000000000#64 ≠ 0 ∧
      1 ≤ (f64Exponent 0x0010000000000000#64 : Int) + 1023 ∧
      (f64Exponent 0x0010000000000000#64 : Int) + 1023 ≤ 2046) := by decide

theorem witness_ConversionsAreExact : |(-9007199254740992 : Int)| ≤ 2 ^ 53 ∧
    |(9007199254740992 : Int)| ≤ 2 ^ 53 ∧ (-1022 : Int) ≤ -1022 ∧ (1023 : Int) ≤ 1023 := by norm_num

/-- R12: a negative integer. -/
theorem test_i2f_negative : i2f (-2) = 0xC000000000000000#64 := by decide +kernel

theorem witness_LogarithmUnitConforms : f64FinitePositive 0x3FF0000000000000#64 = true ∧
    1 ≤ f64ToRat 0x3FF0000000000000#64 ∧ f64FinitePositive 0x40F0000000000000#64 = true ∧
    f64ToRat 0x40F0000000000000#64 ≤ 65536 := by decide +kernel

theorem witness_EstAnswersTheStagedEstimate : small.CON = true ∧ State.reset.CON = false := ⟨rfl, rfl⟩

theorem witness_EstimateDependsOnlyOnTheSketch : small.CON = true ∧
    (small.respond 0#64).CON = true ∧ small.P = (small.respond 0#64).P ∧
    ∀ i < 2 ^ small.precision, Memory.read small.M i = Memory.read (small.respond 0#64).M i :=
  ⟨rfl, rfl, rfl, fun _ _ => rfl⟩

theorem witness_EstDoesNotDisturbLaterCommands : small.CON = true ∧ small.response = none := ⟨rfl, rfl⟩

theorem witness_RepeatedEstAnswersTheSame : small.CON = true ∧ small.response = none := ⟨rfl, rfl⟩

theorem witness_HarmonicSumIsExactInAnyOrder : small.Inv ∧ small.CON = true ∧
    (List.range (2 ^ small.precision)).reverse.Perm (List.range (2 ^ small.precision)) :=
  ⟨by decide, rfl, List.reverse_perm _⟩

theorem witness_HarmonicSumBounds : (sketch 4#5 (uniform 29#8)).Inv ∧ (sketch 4#5 (uniform 29#8)).CON = true ∧
    (∀ i < 2 ^ 4, (Memory.read (sketch 4#5 (uniform 29#8)).M i).toNat = 33 - 4) ∧
    (sketch 4#5 []).Inv ∧ ∀ i < 2 ^ 4, Memory.read (sketch 4#5 []).M i = 0#8 := by decide

theorem witness_RawEstimateRoundsOnce : small.Inv ∧ small.CON = true := by decide

/-- The three clauses: linear counting, a raw estimate above the threshold (table 2.9, row 4), no zero register. -/
theorem witness_SmallRangeCorrection : small.Inv ∧ small.CON = true ∧
    f64ToRat (rawEstimate 4 small.M) ≤ 5 / 2 * 2 ^ 4 ∧ 0 < zeroCount 4 small.M ∧
    (sketch 4#5 ((uniform 3#8).take 15)).Inv ∧ 5 / 2 * 2 ^ 4 < f64ToRat (rawEstimate 4 ((uniform 3#8).take 15)) ∧
    (sketch 4#5 (uniform 1#8)).Inv ∧ zeroCount 4 (uniform 1#8) = 0 := by decide +kernel

/-- The boundaries of the clauses: `T_LARGE`, the value after it, the value before `2^32`, and `2^32`. -/
theorem witness_LargeRangeCorrection :
    f64FinitePositive tLarge = true ∧ f64ToRat tLarge ≤ f64ToRat tLarge ∧
    f64FinitePositive 0x41A1111111111112#64 = true ∧ f64ToRat tLarge < f64ToRat 0x41A1111111111112#64 ∧
    f64FinitePositive 0x41EFFFFFFFFFFFFF#64 = true ∧ f64ToRat 0x41EFFFFFFFFFFFFF#64 < 2 ^ 32 ∧
    f64ToRat (largeArgument 0x41EFFFFFFFFFFFFF#64) = 1 / 2 ^ 53 ∧
    f64FinitePositive 0x41F0000000000000#64 = true ∧ 2 ^ 32 ≤ f64ToRat 0x41F0000000000000#64 ∧
    f64ToRat (largeArgument 0x41F0000000000000#64) = 0 := by decide +kernel

theorem witness_CorrectionsNeverBothApply : small.Inv ∧ small.CON = true ∧
    smallRangeApplies 4 (zeroCount 4 small.M) (rawEstimate 4 small.M) = true := by decide +kernel

theorem witness_EstimateIsFiniteAndNonnegative : small.Inv ∧ small.CON = true := by decide

theorem witness_SaturatedSketchKeepsTheRawEstimate : (sketch 4#5 (uniform 29#8)).CON = true ∧
    legalPrecision (sketch 4#5 (uniform 29#8)).precision ∧
    (∀ i < 2 ^ 4, (Memory.read (sketch 4#5 (uniform 29#8)).M i).toNat = 33 - 4) ∧
    legalPrecision 15 ∧ legalPrecision 16 ∧ 15 < 16 := by decide

/-- The boundaries of the regimes at `P = 4`: `P + k` is 5, 27, 28, 32 and 33. -/
theorem witness_UniformSketchRegimes :
    ∀ k ∈ [1, 23, 24, 28, 29], (sketch 4#5 (uniform (BitVec.ofNat 8 k))).CON = true ∧ 1 ≤ k ∧ k ≤ 33 - 4 ∧
      ∀ i < 2 ^ 4, (Memory.read (sketch 4#5 (uniform (BitVec.ofNat 8 k))).M i).toNat = k := by decide

theorem witness_LogarithmOperandsAreInRange : small.Inv ∧ small.CON = true ∧
    smallRangeApplies 4 (zeroCount 4 small.M) (rawEstimate 4 small.M) = true ∧
    (sketch 4#5 (uniform 24#8)).Inv ∧ smallRangeApplies 4 (zeroCount 4 (uniform 24#8)) (rawEstimate 4 (uniform 24#8)) =
      false ∧ largeRangeApplies (rawEstimate 4 (uniform 24#8)) = true := by decide +kernel

theorem witness_StepKeepsTheInvariant :
    (small.present [encode (.add 0x12345678#32)]).Inv ∧
    ∃ t, step (small.present [encode (.add 0x12345678#32)]) = .next t :=
  ⟨by decide, _, rfl⟩

theorem witness_OnlyInitLowersARegister : Memory.wf small.M ∧
    (∀ n, Instr.init n ∉ [Instr.add 0xF0000001#32, Instr.rcnt 0]) ∧
    ∃ t, execAll [Instr.add 0xF0000001#32, Instr.rcnt 0] small = .next t :=
  ⟨by decide, by simp, _, rfl⟩

end Sys2Proof.Tests
end

/-! ## Family 10_state: the invariant of the engine (R21, R25, R40) -/

section
namespace Sys2Proof.Machine

variable {s t : State}

/-- The invariant speaks of `CON`, `P` and `M` alone: the ports and the host's lists do not matter to it. -/
theorem State.Inv.of_same_sketch (h : s.Inv) (hC : t.CON = s.CON) (hP : t.P = s.P) (hM : t.M = s.M) : t.Inv := by
  simpa [State.Inv, State.precision, hC, hP, hM] using h

theorem State.Inv.ranksBounded (h : s.Inv) (hC : s.CON = true) : Memory.ranksBounded s.precision s.M := by
  obtain ⟨-, -, hcon⟩ := h
  exact (hcon hC).2

/-- An engine whose array lists nothing meets the invariant if it is unconstructed or its precision is legal. -/
theorem State.Inv.of_empty (hM : s.M = []) (hp : s.CON = true → legalPrecision s.precision) : s.Inv := by
  rw [State.Inv, hM]
  exact ⟨⟨.nil, by simp⟩, by simp, fun hC => ⟨hp hC, by simp⟩⟩

theorem State.reset_inv : State.reset.Inv := .of_empty rfl fun h => nomatch h

theorem State.powerOnReset_inv (s : State) : s.powerOnReset.Inv := .of_empty rfl fun h => nomatch h

theorem State.construct_inv (s : State) (n : Int) : (s.construct (clampPrecision n)).Inv :=
  .of_empty rfl fun _ => clampPrecision_legal n

theorem State.respond_inv (h : s.Inv) (v : ResponseWord) : (s.respond v).Inv := h.of_same_sketch rfl rfl rfl

theorem State.deliver_inv (h : s.Inv) : s.deliver.Inv := h.of_same_sketch (by simp) (by simp) (by simp)

theorem State.withInputs_inv (h : s.Inv) (rest : List PortInput) : State.Inv { s with inputs := rest } :=
  h.of_same_sketch rfl rfl rfl

/-- Writing a value of at most `MAXRANK` to an existing register keeps the invariant. -/
theorem State.setRegister_inv (h : s.Inv) {i : Nat} {v : Byte} (hi : i < 2 ^ s.precision)
    (hv : v.toNat ≤ maxRank s.precision) : (s.setRegister i v).Inv := by
  obtain ⟨hwf, hdom, hcon⟩ := h
  refine ⟨Memory.write_wf hwf i v, Memory.write_inDomain hdom hi v, fun hC => ?_⟩
  obtain ⟨hp, hr⟩ := hcon hC
  exact ⟨hp, Memory.write_ranksBounded hr i hv⟩

/-- A register of a sketch whose listed registers are at most `MAXRANK` is at most `MAXRANK` (R25). -/
theorem Memory.read_le_maxRank {p : Nat} {M : List Host.Cell} (h : Memory.ranksBounded p M) (i : Nat) :
    (Memory.read M i).toNat ≤ maxRank p := by
  rcases Memory.read_cases M i with h0 | hm
  · simp [h0, Config.unlistedRegister]
  · exact h _ hm

/-- What ADD writes is at most `MAXRANK` when the old register is. -/
theorem mergeMax_rank_le {p : Nat} {old : Byte} (h : old.toNat ≤ maxRank p) (d : Digest) :
    (mergeMax old (rank p d)).toNat ≤ maxRank p := by
  rw [mergeMax_toNat _ (rank_lt_256 p d)]
  exact max_le h (rank_le p d)

/-- Every command that completes keeps the invariant. -/
theorem exec_keeps_inv {i : Instr} (hs : s.Inv) (h : exec i s = .next t) : t.Inv := by
  obtain ⟨n, -, rfl⟩ | ⟨d, -, hC, rfl⟩ | ⟨v, -, -, rfl⟩ := exec_cases h
  · exact s.construct_inv n
  · have hold := Memory.read_le_maxRank (hs.ranksBounded hC) (bucketIndex s.precision d)
    exact State.setRegister_inv hs (bucketIndex_lt s.precision_lt.le d) (mergeMax_rank_le hold d)
  · exact State.respond_inv hs v

/-- Every step that answers a next state keeps the invariant. -/
theorem step_keeps_inv (hs : s.Inv) (h : step s = .next t) : t.Inv := by
  obtain ⟨-, rfl⟩ | ⟨e, rest, -, hstep⟩ := step_cases h
  · exact hs
  have hs' := State.withInputs_inv hs rest
  obtain ⟨-, rfl⟩ | ⟨-, -, -, rfl⟩ | ⟨-, -, w, -, hw⟩ | ⟨-, -, -, rfl⟩ | ⟨-, -, -, rfl⟩ := hstep
  · exact State.powerOnReset_inv _
  · exact hs'
  · exact exec_keeps_inv hs' hw
  · exact hs'
  · exact State.deliver_inv hs'

/-- Settles O56: each case of `step_cases` keeps the invariant. -/
theorem stepKeepsTheInvariant : Obligations.StepKeepsTheInvariant := fun _ _ => step_keeps_inv

/-- Settles O55: the array lists nothing and the engine is unconstructed. -/
theorem resetMeetsTheInvariant : Obligations.ResetMeetsTheInvariant := State.reset_inv

end Sys2Proof.Machine
end

/-! ## Family 10_state: what the host cannot tell apart (R22, R200) -/

section
namespace Sys2Proof.Machine

variable {s t : State}

theorem State.sameToHost.refl (s : State) : s.sameToHost s := ⟨rfl, rfl, rfl, rfl, fun _ => rfl⟩

theorem sameOutcomeToHost.refl (o : Host.Outcome State Fault Refusal) : sameOutcomeToHost o o := by
  cases o with
  | next s => exact State.sameToHost.refl s
  | fault f => exact rfl
  | refused r => exact rfl

theorem sameOutcomeToHost.of_eq {o o' : Host.Outcome State Fault Refusal} (h : o = o') : sameOutcomeToHost o o' :=
  h ▸ .refl o

/-- Two outcomes the host cannot tell apart are two next states it cannot tell apart, or the same outcome. -/
theorem sameOutcomeToHost.cases {o o' : Host.Outcome State Fault Refusal} (h : sameOutcomeToHost o o') :
    (∃ s t, o = .next s ∧ o' = .next t ∧ s.sameToHost t) ∨ o = o' := by
  cases o <;> cases o'
  case next.next s t => exact .inl ⟨s, t, rfl, rfl, h⟩
  case fault.fault f f' => exact .inr (congrArg _ h)
  case refused.refused r r' => exact .inr (congrArg _ h)
  all_goals exact h.elim

/-- States the host cannot tell apart are equal, or unconstructed and alike but for `P` and `M`. -/
theorem State.sameToHost.eq_or_unconstructed (h : s.sameToHost t) : s = t ∨ (s.CON = false ∧ t.CON = false) := by
  obtain ⟨hC, -, -, -, heq⟩ := h
  cases hs : s.CON with
  | true => exact .inl (heq hs)
  | false => exact .inr ⟨rfl, hC ▸ hs⟩

theorem State.sameToHost.withInputs (h : s.sameToHost t) (rest : List PortInput) :
    State.sameToHost { s with inputs := rest } { t with inputs := rest } := by
  obtain ⟨hC, hr, -, hd, heq⟩ := h
  exact ⟨hC, hr, rfl, hd, fun hs => by rw [heq hs]⟩

theorem State.sameToHost.deliver (h : s.sameToHost t) : s.deliver.sameToHost t.deliver := by
  obtain ⟨hC, hr, hi, hd, heq⟩ := h
  refine ⟨?_, ?_, ?_, ?_, fun hs => ?_⟩
  · simp [hC]
  · simp
  · simp [hi]
  · simp [hd, hr]
  · rw [heq (by simpa using hs)]

/-- INIT overwrites `P` and `M` without reading them (R84): the new sketches are equal. -/
theorem State.sameToHost.construct_eq (h : s.sameToHost t) (p : BitVec 5) : s.construct p = t.construct p := by
  obtain ⟨-, hr, hi, hd, -⟩ := h
  simp [State.construct, hr, hi, hd]

theorem State.sameToHost.powerOnReset_eq (h : s.sameToHost t) : s.powerOnReset = t.powerOnReset := by
  obtain ⟨-, -, hi, hd, -⟩ := h
  simp [State.powerOnReset, hi, hd]

/-- No command tells apart what the host cannot: INIT forgets the difference, and every other command is refused
while there is one. -/
theorem exec_sameToHost (h : s.sameToHost t) (i : Instr) : sameOutcomeToHost (exec i s) (exec i t) := by
  obtain rfl | ⟨hs, ht⟩ := h.eq_or_unconstructed
  · exact .refl _
  by_cases hi : ∃ n, i = .init n
  · obtain ⟨n, rfl⟩ := hi
    exact .of_eq (by rw [exec_init, exec_init, h.construct_eq])
  · have hne : ∀ n, i ≠ .init n := fun n hn => hi ⟨n, hn⟩
    exact .of_eq ((exec_refused_iff.2 ⟨rfl, hs, hne⟩).trans (exec_refused_iff.2 ⟨rfl, ht, hne⟩).symm)

/-- No step tells apart what the host cannot. -/
theorem step_sameToHost (h : s.sameToHost t) : sameOutcomeToHost (step s) (step t) := by
  have ⟨_, hresp, hin, _⟩ := h
  match hi : s.inputs with
  | [] =>
    rw [step_of_no_input hi, step_of_no_input (hin ▸ hi)]
    exact h
  | e :: rest =>
    have hi' : t.inputs = e :: rest := hin ▸ hi
    have hrest := h.withInputs rest
    cases hr : e.rst with
    | true =>
      rw [step_of_reset hi hr, step_of_reset hi' hr, hrest.powerOnReset_eq]
      exact .refl _
    | false =>
      cases hn : s.response with
      | some v =>
        rw [step_of_waiting hi hr hn, step_of_waiting hi' hr (hresp ▸ hn)]
        cases e.rspReady with
        | true => exact hrest.deliver
        | false => exact hrest
      | none =>
        cases hc : e.command with
        | some w =>
          rw [step_of_command hi hr hc hn, step_of_command hi' hr hc (hresp ▸ hn)]
          exact exec_sameToHost hrest _
        | none =>
          rw [step_of_idle hi hr hc hn, step_of_idle hi' hr hc (hresp ▸ hn)]
          exact hrest

/-- A run of at least one step depends on its first state only through the outcome of the first step. -/
theorem run_succ_congr {M : Host.Core} {s t : M.State} (h : M.step s = M.step t) (n : Nat) :
    M.run (n + 1) s = M.run (n + 1) t := by rw [Host.Core.run, Host.Core.run, h]

/-- No run tells apart what the host cannot. -/
theorem runSteps_sameToHost (n : Nat) (h : s.sameToHost t) : sameOutcomeToHost (runSteps n s) (runSteps n t) := by
  induction n generalizing s t with
  | zero => exact h
  | succ n ih =>
    obtain ⟨s', t', hs, ht, h'⟩ | heq := (step_sameToHost h).cases
    · rw [runSteps_succ_next hs, runSteps_succ_next ht]
      exact ih h'
    · exact .of_eq (run_succ_congr (M := Sys2Proof.core) heq n)

/-- Settles O13: the two states are the same to the host, and no run tells such states apart. -/
theorem unspecifiedContentIsUnobservable : Obligations.UnspecifiedContentIsUnobservable :=
  fun _ _ hs hs' hresp hin hdel n =>
    runSteps_sameToHost n ⟨hs.trans hs'.symm, hresp, hin, hdel, fun h => by simp [hs] at h⟩

end Sys2Proof.Machine
end

/-! ## Family 10_state: lists of commands (R26, R30, R84) -/

section
namespace Sys2Proof.Machine

variable {s t u : State}

/-- A list whose first command completes goes on from the state it leaves, its response delivered. -/
theorem execAll_cons_of_next {i : Instr} (h : exec i s = .next t) (rest : List Instr) :
    execAll (i :: rest) s = execAll rest t.deliver := by simp [execAll, h]

/-- A list of commands completes only if its first command does and the rest does after it. -/
theorem execAll_cons_next {i : Instr} {rest : List Instr} (h : execAll (i :: rest) s = .next u) :
    ∃ t, exec i s = .next t ∧ execAll rest t.deliver = .next u := by
  cases hi : exec i s with
  | next t => exact ⟨t, rfl, execAll_cons_of_next hi rest ▸ h⟩
  | fault f => simp [execAll, hi] at h
  | refused r => simp [execAll, hi] at h

/-- `t` holds the sketch of `s`, perhaps with some registers raised: `P` and `CON` are the same (R26). -/
def State.raisedTo (s t : State) : Prop :=
  t.P = s.P ∧ t.CON = s.CON ∧ ∀ i, Memory.read s.M i ≤ Memory.read t.M i

theorem State.raisedTo.of_same_sketch (hP : t.P = s.P) (hC : t.CON = s.CON) (hM : t.M = s.M) : s.raisedTo t :=
  ⟨hP, hC, fun i => by rw [hM]; exact BitVec.le_refl _⟩

theorem State.raisedTo.trans (h : s.raisedTo t) (h' : t.raisedTo u) : s.raisedTo u := by
  obtain ⟨hP, hC, hM⟩ := h
  obtain ⟨hP', hC', hM'⟩ := h'
  exact ⟨hP'.trans hP, hC'.trans hC, fun i => BitVec.le_trans (hM i) (hM' i)⟩

theorem State.raisedTo_deliver (s : State) : s.raisedTo s.deliver := .of_same_sketch (by simp) (by simp) (by simp)

/-- The maximum-merger never lowers a register (R96). -/
theorem le_mergeMax (old : Byte) (r : Nat) : old ≤ mergeMax old r := by
  unfold mergeMax
  split
  · exact BitVec.le_of_lt ‹_›
  · exact BitVec.le_refl _

/-- Writing a register a value that is no less raises the sketch. -/
theorem State.raisedTo_setRegister (h : Memory.wf s.M) {i : Nat} {v : Byte} (hv : Memory.read s.M i ≤ v) :
    s.raisedTo (s.setRegister i v) := by
  refine ⟨rfl, rfl, fun j => ?_⟩
  rw [State.setRegister_M, Memory.read_write h]
  split
  · subst j
    exact hv
  · exact BitVec.le_refl _

/-- A command other than INIT keeps the array canonical and lowers no register. -/
theorem exec_raises {i : Instr} (hwf : Memory.wf s.M) (hi : ∀ n, i ≠ .init n) (h : exec i s = .next t) :
    Memory.wf t.M ∧ s.raisedTo t := by
  obtain ⟨n, hn, -⟩ | ⟨d, -, -, rfl⟩ | ⟨v, -, -, rfl⟩ := exec_cases h
  · exact absurd hn (hi n)
  · exact ⟨Memory.write_wf hwf _ _, State.raisedTo_setRegister hwf (le_mergeMax _ _)⟩
  · exact ⟨hwf, .of_same_sketch rfl rfl rfl⟩

/-- A list of commands without an INIT lowers no register. -/
theorem execAll_raises {is : List Instr} (hwf : Memory.wf s.M) (his : ∀ n, .init n ∉ is)
    (h : execAll is s = .next u) : s.raisedTo u := by
  induction is generalizing s with
  | nil => cases h; exact .of_same_sketch rfl rfl rfl
  | cons i rest ih =>
    obtain ⟨t, hi, hrest⟩ := execAll_cons_next h
    obtain ⟨hwf', hst⟩ := exec_raises hwf (fun n hn => his n (by simp [hn])) hi
    have htu : t.deliver.raisedTo u :=
      ih (by rwa [State.deliver_M]) (fun n hn => his n (List.mem_cons_of_mem i hn)) hrest
    exact hst.trans (t.raisedTo_deliver.trans htu)

/-- Settles O57, by induction on the list of commands. -/
theorem onlyInitLowersARegister : Obligations.OnlyInitLowersARegister := fun _ _ _ => execAll_raises

/-- The word EST answers is a function of the sketch alone (R30, R110). -/
theorem execAll_est_cons (hC : s.CON = true) (a : BitVec 32) (rest : List Instr) :
    execAll (.est a :: rest) s =
      execAll rest (s.respond (f64bits (estimate LN s.precision s.M))).deliver :=
  execAll_cons_of_next (exec_est hC a) rest

/-- Settles O40: both answers are the same function of `P` and `M`, which the first EST leaves as they are. -/
theorem repeatedEstAnswersTheSame : Obligations.RepeatedEstAnswersTheSame := by
  intro a b s hC _
  have hrun := (execAll_est_cons hC a [.est b]).trans (execAll_est_cons (by simpa using hC) b [])
  exact ⟨_, f64bits (estimate LN s.precision s.M), hrun, by simp, by simp, by simp⟩

end Sys2Proof.Machine
end

/-! ## Family 20_memory: the ports and the list of commands (R46, R47, R66, R210) -/

section
namespace Sys2Proof.Machine

variable {s t : State}

/-- A command completes or is refused as unconstructed: there is no third outcome (R180, R184). -/
theorem exec_next_or_unconstructed (i : Instr) (s : State) :
    (∃ t, exec i s = .next t) ∨ exec i s = .refused .unconstructed := by
  cases hC : s.CON with
  | true =>
    cases i with
    | init n => exact .inl ⟨_, exec_init n s⟩
    | add d => exact .inl ⟨_, exec_add hC d⟩
    | est a => exact .inl ⟨_, exec_est hC a⟩
    | rcnt a => exact .inl ⟨_, exec_rcnt hC a⟩
  | false =>
    by_cases hi : ∃ n, i = .init n
    · obtain ⟨n, rfl⟩ := hi
      exact .inl ⟨_, exec_init n s⟩
    · exact .inr (exec_refused_iff.2 ⟨rfl, hC, fun n hn => hi ⟨n, hn⟩⟩)

/-- No command changes what the host presents. -/
theorem exec_keeps_inputs {i : Instr} (h : exec i s = .next t) : t.inputs = s.inputs := by
  obtain ⟨n, -, rfl⟩ | ⟨d, -, -, rfl⟩ | ⟨v, -, -, rfl⟩ := exec_cases h
  · exact s.construct_inputs _
  · exact s.setRegister_inputs _ _
  · exact s.respond_inputs v

/-- No command reads what the host presents: with other inputs it completes in the same way. -/
theorem exec_withInputs {i : Instr} (h : exec i s = .next t) (es : List PortInput) :
    exec i { s with inputs := es } = .next { t with inputs := es } := by
  obtain ⟨n, rfl, rfl⟩ | ⟨d, rfl, hC, rfl⟩ | ⟨v, hv, hC, rfl⟩ := exec_cases h
  · rfl
  · exact exec_add (s := { s with inputs := es }) hC d
  · cases i with
    | init n => cases hv
    | add d => cases hv
    | est a =>
      rw [exec_est hC] at h
      cases h
      exact exec_est (s := { s with inputs := es }) hC a
    | rcnt a =>
      rw [exec_rcnt hC] at h
      cases h
      exact exec_rcnt (s := { s with inputs := es }) hC a

/-- Delivering a response leaves alone what the host presents. -/
theorem State.deliver_withInputs (s : State) (es : List PortInput) :
    State.deliver { s with inputs := es } = { s.deliver with inputs := es } := by
  obtain hn | ⟨v, hn⟩ := s.response.eq_none_or_eq_some
  · rw [State.deliver_none s hn, State.deliver_none { s with inputs := es } hn]
  · rw [State.deliver_some s hn, State.deliver_some { s with inputs := es } hn]

theorem State.present_of_no_input (h : s.inputs = []) (ws : List CommandWord) :
    s.present ws = { s with inputs := programInputs ws } := by rw [State.present, h, List.nil_append]

/-- A host that presents nothing and is ready takes the response, if one waits (R66). -/
theorem step_of_taking {rest : List PortInput} (h : s.inputs = taking :: rest) :
    step s = .next (State.deliver { s with inputs := rest }) := by
  obtain hn | ⟨v, hn⟩ := s.response.eq_none_or_eq_some
  · rw [step_of_idle h rfl rfl hn, State.deliver_none { s with inputs := rest } hn]
  · exact step_of_waiting h rfl hn

/-- The first edge of a program executes its first command, the rest of the program still to come. -/
theorem step_present_cons (hin : s.inputs = []) (hn : s.response = none) (w : CommandWord) (ws : List CommandWord) :
    step (s.present (w :: ws)) = exec (decode w) { s with inputs := taking :: programInputs ws } := by
  rw [State.present_of_no_input hin]
  exact step_of_command rfl rfl rfl hn

/-- The two edges of a command that completes: they leave the state after the command with its response delivered,
and the rest of the program presented to it. -/
theorem runSteps_present_cons (hin : s.inputs = []) (hn : s.response = none) {w : CommandWord}
    (h : exec (decode w) s = .next t) (ws : List CommandWord) (n : Nat) :
    runSteps (n + 2) (s.present (w :: ws)) = runSteps n (t.deliver.present ws) := by
  have hcommand := (step_present_cons hin hn w ws).trans (exec_withInputs h _)
  have hin' : t.deliver.inputs = [] := by rw [State.deliver_inputs, exec_keeps_inputs h, hin]
  have htaking : step { t with inputs := taking :: programInputs ws } = .next (t.deliver.present ws) := by
    rw [State.present_of_no_input hin', ← State.deliver_withInputs t]
    exact step_of_taking rfl
  rw [runSteps_succ_next hcommand, runSteps_succ_next htaking]

/-- A program whose first command is refused is refused at its first edge. -/
theorem runSteps_present_cons_refused (hin : s.inputs = []) (hn : s.response = none) {w : CommandWord} {r : Refusal}
    (h : exec (decode w) s = .refused r) (ws : List CommandWord) (n : Nat) :
    runSteps (n + 1) (s.present (w :: ws)) = .refused r := by
  have hrefused := exec_refused_iff.1 h
  exact runSteps_succ_refused ((step_present_cons hin hn w ws).trans (exec_refused_iff.2 hrefused)) n

theorem execAll_cons_of_refused {i : Instr} {r : Refusal} (h : exec i s = .refused r) (rest : List Instr) :
    execAll (i :: rest) s = .refused r := by simp [execAll, h]

/-- Settles O11, by induction on the program: two edges for each command. -/
theorem portsRefineSerialExecution : Obligations.PortsRefineSerialExecution := by
  intro s ws hin hn
  induction ws generalizing s with
  | nil =>
    have hpresent : s.present [] = s := by rw [State.present, programInputs, List.append_nil]
    exact congrArg Host.Outcome.next hpresent
  | cons w ws ih =>
    rw [List.length_cons, Nat.mul_succ, List.map_cons]
    obtain ⟨t, h⟩ | h := exec_next_or_unconstructed (decode w) s
    · have hin' : t.deliver.inputs = [] := by rw [State.deliver_inputs, exec_keeps_inputs h, hin]
      rw [runSteps_present_cons hin hn h, execAll_cons_of_next h]
      exact ih t.deliver hin' t.deliver_response
    · rw [runSteps_present_cons_refused hin hn h, execAll_cons_of_refused h]

end Sys2Proof.Machine
end

/-! ## Family 30_encoding: the command word and the command (R61 to R64) -/

section
namespace Sys2Proof

open Laws.OpcodeField (fields_of_append)

/-! ### A word put together from its fields -/

/-- A word put together from an opcode and an operand decodes by the one and reads the other (R61 to R63). -/
theorem decode_append (op : BitVec 2) (arg : BitVec 32) :
    decode (op ++ arg) =
      if op = 0b00#2 then .init arg.toInt else if op = 0b01#2 then .add arg
      else if op = 0b10#2 then .est arg else .rcnt arg := by
  obtain ⟨hop, harg⟩ := fields_of_append op arg
  rw [decode, hop, harg]

theorem decode_init_word (arg : BitVec 32) : decode (0b00#2 ++ arg) = .init arg.toInt := decode_append _ arg

theorem decode_add_word (arg : BitVec 32) : decode (0b01#2 ++ arg) = .add arg := decode_append _ arg

theorem decode_est_word (arg : BitVec 32) : decode (0b10#2 ++ arg) = .est arg := decode_append _ arg

theorem decode_rcnt_word (arg : BitVec 32) : decode (0b11#2 ++ arg) = .rcnt arg := decode_append _ arg

theorem precisionFits_iff (n : Int) : precisionFits n = true ↔ -2147483648 ≤ n ∧ n ≤ 2147483647 := decide_eq_true_iff

/-- An operand of INIT that fits its field is read back from it (R63, R68). -/
theorem toInt_ofInt_of_fits {n : Int} (h : precisionFits n = true) : (BitVec.ofInt 32 n).toInt = n := by
  obtain ⟨hlo, hhi⟩ := (precisionFits_iff n).1 h
  exact BitVec.toInt_ofInt_eq_self (by decide) (by omega) (by omega)

/-- What the operand field reads as is an operand of INIT that fits it (R63). -/
theorem precisionFits_toInt (arg : BitVec 32) : precisionFits arg.toInt = true := by
  have hlo := BitVec.le_toInt arg
  have hhi := BitVec.toInt_lt (x := arg)
  exact (precisionFits_iff _).2 ⟨by omega, by omega⟩

/-- Settles O1: decoding reads back the two fields that encoding put together; only the operand of INIT is read in
another form than it is held in, and it fits. -/
theorem decodeInvertsEncode : Obligations.DecodeInvertsEncode := by
  intro i hi
  cases i with
  | init n => exact (decode_init_word _).trans (congrArg Instr.init (toInt_ofInt_of_fits hi))
  | add d => exact decode_add_word d
  | est a => exact decode_est_word a
  | rcnt a => exact decode_rcnt_word a

/-! ### The fields of a word -/

/-- A word is its opcode field above its operand field (R61). -/
theorem opField_append_argField (w : CommandWord) : opField w ++ argField w = w :=
  (BitVec.extractLsb'_append_extractLsb'_eq_extractLsb' rfl).trans BitVec.extractLsb'_eq_self

/-- What a word decodes to, by its opcode field (R62). -/
theorem decode_cases (w : CommandWord) :
    (opField w = 0b00#2 ∧ decode w = .init (argField w).toInt) ∨
    (opField w = 0b01#2 ∧ decode w = .add (argField w)) ∨
    (opField w = 0b10#2 ∧ decode w = .est (argField w)) ∨
    (opField w = 0b11#2 ∧ decode w = .rcnt (argField w)) := by
  have hops : ∀ op : BitVec 2, op = 0b00#2 ∨ op = 0b01#2 ∨ op = 0b10#2 ∨ op = 0b11#2 := by decide
  obtain h | h | h | h := hops (opField w)
  · exact .inl ⟨h, by simp [decode, h]⟩
  · exact .inr (.inl ⟨h, by simp [decode, h]⟩)
  · exact .inr (.inr (.inl ⟨h, by simp [decode, h]⟩))
  · exact .inr (.inr (.inr ⟨h, by simp [decode, h]⟩))

/-- The opcode of the decoded command is the opcode field. -/
theorem opcode_decode (w : CommandWord) : opcode (decode w) = opField w := by
  obtain ⟨hop, h⟩ | ⟨hop, h⟩ | ⟨hop, h⟩ | ⟨hop, h⟩ := decode_cases w <;> rw [h, hop, opcode]

/-- The operand field of the decoded command is the operand field: the signed reading of INIT loses no bit. -/
theorem operand_decode (w : CommandWord) : operand (decode w) = argField w := by
  obtain ⟨-, h⟩ | ⟨-, h⟩ | ⟨-, h⟩ | ⟨-, h⟩ := decode_cases w
  · rw [h, operand, BitVec.ofInt_toInt]
  all_goals rw [h, operand]

theorem wellFormed_decode (w : CommandWord) : (decode w).wellFormed = true := by
  obtain ⟨-, h⟩ | ⟨-, h⟩ | ⟨-, h⟩ | ⟨-, h⟩ := decode_cases w
  · rw [h, Instr.wellFormed, precisionFits_toInt]
  all_goals rw [h, Instr.wellFormed]

/-- Settles O2: the decoded command has the fields of the word, and the word is its fields. -/
theorem encodeInvertsDecode : Obligations.EncodeInvertsDecode := fun w =>
  ⟨wellFormed_decode w, by rw [encode, opcode_decode, operand_decode, opField_append_argField]⟩

/-! ### The opcode map as match and mask -/

/-- The mask `0x300000000` keeps the opcode field and clears the operand field. -/
theorem mask_eq_iff (w : CommandWord) (op : BitVec 2) : w &&& 0x300000000#34 = op ++ 0#32 ↔ opField w = op := by
  have hmask : w &&& 0x300000000#34 = opField w ++ 0#32 :=
    calc w &&& 0x300000000#34
      _ = (opField w ++ argField w) &&& (0b11#2 ++ 0#32) := by rw [opField_append_argField]; rfl
      _ = (opField w &&& BitVec.allOnes 2) ++ (argField w &&& 0#32) := BitVec.and_append
      _ = opField w ++ 0#32 := by rw [BitVec.and_allOnes, BitVec.and_zero]
  rw [hmask]
  constructor
  · intro h
    have hop := congrArg opField h
    rwa [(fields_of_append _ _).1, (fields_of_append _ _).1] at hop
  · exact fun h => h ▸ rfl

theorem opcode_eq_init_iff (i : Instr) : opcode i = 0b00#2 ↔ ∃ n, i = .init n := by
  cases i <;> simp [opcode]

theorem opcode_eq_add_iff (i : Instr) : opcode i = 0b01#2 ↔ ∃ d, i = .add d := by
  cases i <;> simp [opcode]

theorem opcode_eq_est_iff (i : Instr) : opcode i = 0b10#2 ↔ ∃ a, i = .est a := by
  cases i <;> simp [opcode]

theorem opcode_eq_rcnt_iff (i : Instr) : opcode i = 0b11#2 ↔ ∃ a, i = .rcnt a := by
  cases i <;> simp [opcode]

/-- The match and mask of an opcode pick out the words that decode to a command of that opcode. -/
theorem mask_eq_iff_opcode_decode (w : CommandWord) (op : BitVec 2) :
    w &&& 0x300000000#34 = op ++ 0#32 ↔ opcode (decode w) = op := by
  rw [opcode_decode, mask_eq_iff]

/-- Settles O3: the words put together from their fields, the match and mask of each opcode, and that EST and RCNT do
not read their operand. -/
theorem opcodeMapAndOperandReading : Obligations.OpcodeMapAndOperandReading := by
  refine ⟨fun arg => ?_, fun w => ?_, fun a b s => ⟨rfl, rfl⟩⟩
  · exact ⟨decode_init_word arg, decode_add_word arg, ⟨arg, decode_est_word arg⟩, ⟨arg, decode_rcnt_word arg⟩,
      (precisionFits_iff _).1 (precisionFits_toInt arg)⟩
  · exact ⟨(mask_eq_iff_opcode_decode w 0b00#2).trans (opcode_eq_init_iff _),
      (mask_eq_iff_opcode_decode w 0b01#2).trans (opcode_eq_add_iff _),
      (mask_eq_iff_opcode_decode w 0b10#2).trans (opcode_eq_est_iff _),
      (mask_eq_iff_opcode_decode w 0b11#2).trans (opcode_eq_rcnt_iff _)⟩

end Sys2Proof
end

/-! ## Family 30_encoding: the text of a command (R68) -/

section
namespace Sys2Proof.Machine

/-! ### What reading digits rejects -/

/-- A character that is no digit of the base spoils a number. -/
theorem readDigits_eq_none {base : Nat} {c : Char} {cs : List Char} (hc : c ∈ cs) (h : digitValue base c = none) :
    readDigits base cs = none := by
  have hmap : cs.mapM (digitValue base) = none := by
    induction cs with
    | nil => cases hc
    | cons d cs ih =>
      obtain rfl | hc := List.mem_cons.1 hc
      · simp [h]
      · simp [ih hc]
  rw [readDigits, if_neg (List.ne_nil_of_mem hc), hmap, Option.map_none]

theorem digitValue_x : digitValue 10 'x' = none := by decide

theorem digitValue_minus : digitValue 10 '-' = none := by decide

/-- A decimal number is not spelled `0x…`. -/
theorem readHex32_of_readDigits {cs : List Char} {n : Nat} (h : readDigits 10 cs = some n) : readHex32 cs = none := by
  rw [readHex32, if_neg]
  rintro ⟨hpre, -⟩
  have hx : 'x' ∈ cs := (List.isPrefixOf_iff_prefix.1 hpre).subset (by simp)
  rw [readDigits_eq_none hx digitValue_x] at h
  cases h

/-- A decimal number without a sign is read as an integer. -/
theorem readInt_of_readDigits {cs : List Char} {n : Nat} (h : readDigits 10 cs = some n) :
    readInt cs = some (n : Int) := by
  have hpre : ¬['-'].isPrefixOf cs = true := by
    intro hpre
    have hminus : '-' ∈ cs := (List.isPrefixOf_iff_prefix.1 hpre).subset (by simp)
    rw [readDigits_eq_none hminus digitValue_minus] at h
    cases h
  rw [readInt, if_neg hpre, h]
  rfl

/-- A decimal number after a minus sign is read as its negative. -/
theorem readInt_minus {cs : List Char} {n : Nat} (h : readDigits 10 cs = some n) :
    readInt ('-' :: cs) = some (-(n : Int)) := by
  have hpre : ['-'].isPrefixOf ('-' :: cs) = true := rfl
  rw [readInt, if_pos hpre, List.drop_one, List.tail_cons, h]
  rfl

/-! ### What is written reads back -/

theorem readInt_intText {n : Int} (h : n.natAbs < 10 ^ 10) : readInt (intText n) = some n := by
  have hdigits := readDigits_decDigits h
  rw [intText]
  split
  · rw [readInt_minus hdigits]
    congr 1
    omega
  · rw [readInt_of_readDigits hdigits]
    congr 1
    omega

theorem readHex32_intText {n : Int} (h : n.natAbs < 10 ^ 10) : readHex32 (intText n) = none := by
  rw [intText]
  split
  · rfl
  · exact readHex32_of_readDigits (readDigits_decDigits h)

/-- An operand of INIT that fits its field has at most ten digits, and is read back. -/
theorem readPrecision_intText {n : Int} (h : precisionFits n = true) : readPrecision (intText n) = some n := by
  have hrange := (precisionFits_iff n).1 h
  have hdigits : n.natAbs < 10 ^ 10 := by omega
  simp [readPrecision, readHex32_intText hdigits, readInt_intText hdigits, h]

theorem readHex32_hexDigits (d : BitVec 32) : readHex32 (['0', 'x'] ++ hexDigits 8 d.toNat) = some d := by
  have hd : d.toNat % 16 ^ 8 = d.toNat := Nat.mod_eq_of_lt d.isLt
  have hdrop : (['0', 'x'] ++ hexDigits 8 d.toNat).drop 2 = hexDigits 8 d.toNat := rfl
  rw [readHex32, if_pos ⟨by simp, by simp⟩, hdrop, readDigits_hexDigits 7, hd, Option.map_some,
    BitVec.ofNat_toNat, BitVec.setWidth_eq]

/-! ### Lines -/

theorem assemble_init (cs : List Char) : assemble (initText ++ cs) = (readPrecision cs).map .init := by
  simp [assemble, initText, estText, rcntText]

theorem assemble_add (cs : List Char) : assemble (addText ++ cs) = (readDigest cs).map .add := by
  simp [assemble, initText, addText, estText, rcntText]

/-- Settles O5: each operand is read back from its digits, and the line's first word gives the command. -/
theorem assembleInvertsDisassemble : Obligations.AssembleInvertsDisassemble := by
  refine ⟨fun n hlo hhi => ?_, fun d => ?_, fun a => ⟨rfl, rfl⟩⟩
  · rw [disassemble, assemble_init, readPrecision_intText ((precisionFits_iff n).2 ⟨hlo, hhi⟩), Option.map_some]
  · rw [disassemble, List.append_assoc, assemble_add, readDigest, readHex32_hexDigits, Option.map_some]

end Sys2Proof.Machine
end

/-! ## Family 30_encoding: the ports (R46, R47, R66, R67, R207) -/

section
namespace Sys2Proof.Machine

variable {s t : State}

/-! ### The word presented next -/

/-- A word presented with the waiting response out of its way is executed at the next edge. -/
theorem step_presentFirst (s : State) (w : CommandWord) : step (s.presentFirst w) = exec (decode w) s.deliver := by
  rw [step_of_command (s.presentFirst_inputs w) rfl rfl s.deliver_response]
  congr 1
  rw [State.presentFirst, ← State.deliver_inputs s]

theorem decode_of_decodeTableWord {nbits w : Nat} {i : Instr} (h : decodeTableWord nbits w = some i) :
    decode (BitVec.ofNat 34 (w % 2 ^ nbits)) = i := by
  rw [decodeTableWord, decodeNumber] at h
  by_cases hw : w % 2 ^ nbits < 2 ^ 34
  · rw [if_pos hw] at h
    exact Option.some.inj h
  · rw [if_neg hw] at h
    cases h

/-- Settles O6: an accepted word is executed, and `withFetchWord` presents one. -/
theorem stepRunsTheDecodedCommand : Obligations.StepRunsTheDecodedCommand := by
  refine ⟨fun s e rest w hin hr hc hn => step_of_command hin hr hc hn, fun s nbits w i hi => ?_⟩
  have hstep : step (s.withFetchWord nbits w) = exec i s.deliver := by
    rw [State.withFetchWord, step_presentFirst, decode_of_decodeTableWord hi]
  exact ⟨hstep, fun hn => by rw [hstep, State.deliver_none s hn]⟩

/-! ### A waiting response -/

/-- While a response waits that the host never takes, an edge only takes the input. -/
theorem step_of_held {v : ResponseWord} (hn : s.response = some v)
    (hin : ∀ e ∈ s.inputs, e.rst = false ∧ e.rspReady = false) : step s = .next { s with inputs := s.inputs.tail } := by
  match hi : s.inputs with
  | [] => rw [step_of_no_input hi, List.tail_nil, ← hi]
  | e :: rest =>
    obtain ⟨hr, hy⟩ := hin e (by simp [hi])
    rw [step_of_waiting hi hr hn, hy, if_neg Bool.false_ne_true, List.tail_cons]

/-- While a response waits that the host never takes, a run only takes inputs. -/
theorem runSteps_of_held {v : ResponseWord} (hn : s.response = some v)
    (hin : ∀ e ∈ s.inputs, e.rst = false ∧ e.rspReady = false) (n : Nat) :
    runSteps n s = .next { s with inputs := s.inputs.drop n } := by
  induction n generalizing s with
  | zero => rfl
  | succ n ih =>
    have hin' : ∀ e ∈ s.inputs.tail, e.rst = false ∧ e.rspReady = false :=
      fun e he => hin e (List.mem_of_mem_tail he)
    rw [runSteps_succ_next (step_of_held hn hin), ih (s := { s with inputs := s.inputs.tail }) hn hin', List.drop_tail]

/-- Settles O10: one edge by `step_of_waiting`, and any number of edges by induction. -/
theorem responseIsHeldUntilTaken : Obligations.ResponseIsHeldUntilTaken := by
  refine ⟨fun s e rest v hin hr hn => ⟨fun hy => ?_, fun hy => ?_⟩, fun s v n hn hin => ?_⟩
  · rw [step_of_waiting hin hr hn, hy, if_neg Bool.false_ne_true]
  · rw [step_of_waiting hin hr hn, if_pos hy, State.deliver_some { s with inputs := rest } hn]
  · exact ⟨_, runSteps_of_held hn hin n, hn, rfl, rfl, rfl, rfl⟩

/-! ### Counting responses -/

/-- No command delivers a response itself. -/
theorem exec_keeps_delivered {i : Instr} (h : exec i s = .next t) : t.delivered = s.delivered := by
  obtain ⟨n, -, rfl⟩ | ⟨d, -, -, rfl⟩ | ⟨v, -, -, rfl⟩ := exec_cases h
  · exact s.construct_delivered _
  · exact s.setRegister_delivered _ _
  · exact s.respond_delivered v

/-- A command that answers leaves a response, and any other leaves the port as it was (R67). -/
theorem exec_response {i : Instr} (h : exec i s = .next t) :
    (answers i = true → ∃ v, t.response = some v) ∧ (answers i = false → t.response = s.response) := by
  obtain ⟨n, rfl, rfl⟩ | ⟨d, rfl, -, rfl⟩ | ⟨v, hv, -, rfl⟩ := exec_cases h
  · exact ⟨nofun, fun _ => s.construct_response _⟩
  · exact ⟨nofun, fun _ => s.setRegister_response _ _⟩
  · exact ⟨fun _ => ⟨v, s.respond_response v⟩, fun hv' => absurd (hv.symm.trans hv') (by decide)⟩

/-- With the port free before it, a command leaves as many responses as it answers: one or none. -/
theorem exec_response_count {i : Instr} (hn : s.response = none) (h : exec i s = .next t) :
    t.response.toList.length = ([i].filter answers).length := by
  obtain ⟨hyes, hno⟩ := exec_response h
  cases ha : answers i with
  | true =>
    obtain ⟨v, hv⟩ := hyes ha
    simp [hv, ha]
  | false => simp [hno ha, hn, ha]

/-- A list of commands delivers one response for each command that answers, after all earlier ones (R47). -/
theorem execAll_delivered {is : List Instr} (hn : s.response = none) (h : execAll is s = .next t) :
    ∃ new, t.delivered = s.delivered ++ new ∧ new.length = (is.filter answers).length := by
  induction is generalizing s with
  | nil =>
    cases h
    exact ⟨[], by simp, rfl⟩
  | cons i rest ih =>
    obtain ⟨u, hi, hrest⟩ := execAll_cons_next h
    obtain ⟨new, hnew, hlen⟩ := ih u.deliver_response hrest
    refine ⟨u.response.toList ++ new, ?_, ?_⟩
    · rw [hnew, State.deliver_delivered, exec_keeps_delivered hi, List.append_assoc]
    · rw [List.length_append, exec_response_count hn hi, hlen, ← List.length_append, ← List.filter_append,
        List.singleton_append]

/-- Settles O16: what one command answers, and along a program the ports run the list of its commands. -/
theorem eachAnsweringCommandAnswersOnce : Obligations.EachAnsweringCommandAnswersOnce := by
  refine ⟨fun i s t h => ?_, fun s t ws hin hn hrun => ?_⟩
  · obtain ⟨hyes, hno⟩ := exec_response h
    exact ⟨hyes, hno, exec_keeps_delivered h⟩
  · exact execAll_delivered hn ((portsRefineSerialExecution s ws hin hn).symm.trans hrun)

end Sys2Proof.Machine
end

/-! ## Family 40_construction: INIT and RCNT (R80, R81, R83 to R85) -/

section
namespace Sys2Proof.Machine

/-- A new sketch keeps of the state before it the ports and the host's lists alone (R84). -/
theorem State.construct_congr {s s' : State} (hr : s.response = s'.response) (hi : s.inputs = s'.inputs)
    (hd : s.delivered = s'.delivered) (p : BitVec 5) : s.construct p = s'.construct p := by
  rw [State.construct, State.construct, hr, hi, hd]

/-- `2^P` fits the response word, so that RCNT's answer is not cut off (R83). -/
theorem registerCount_word_toNat (s : State) : (BitVec.ofNat 64 s.registerCount).toNat = 2 ^ s.precision := by
  have hfits : 2 ^ s.precision < 2 ^ 64 := Nat.pow_lt_pow_right (by decide) (s.precision_lt.trans (by decide))
  rw [BitVec.toNat_ofNat, State.registerCount, Nat.mod_eq_of_lt hfits]

/-- RCNT after INIT answers two to the power of the clamped operand. -/
theorem exec_rcnt_construct (n : Int) (a : BitVec 32) (s : State) :
    ∃ u, exec (.rcnt a) (s.construct (clampPrecision n)) = .next u ∧
      u.response = some (BitVec.ofNat 64 (2 ^ (clampPrecision n).toNat)) :=
  ⟨_, exec_rcnt (s.construct_CON _) a, State.respond_response _ _⟩

/-- Settles O17: the word decodes to an INIT, the clamp is `clampPrecision_toNat`, and the new array lists nothing. -/
theorem initConstructsAnEmptySketch : Obligations.InitConstructsAnEmptySketch := by
  intro arg s
  have hrun : exec (decode (0b00#2 ++ arg)) s = .next (s.construct (clampPrecision arg.toInt)) := by
    rw [decode_init_word, exec_init]
  have hP := clampPrecision_toNat arg.toInt
  have hzero (i : Nat) : Memory.read (s.construct (clampPrecision arg.toInt)).M i = 0#8 := Memory.read_nil i
  exact ⟨_, hrun, s.construct_CON _, hP, fun i _ => hzero i, s.construct_response _, s.construct_inputs _,
    s.construct_delivered _⟩

/-- Settles O19: RCNT only places its answer on the response port, and a legal `P` is itself the exponent. -/
theorem rcntAnswersTheRegisterCount : Obligations.RcntAnswersTheRegisterCount := by
  refine fun a s => ⟨fun hC => ?_, fun hC => exec_refused_iff.2 ⟨rfl, hC, nofun⟩⟩
  refine ⟨_, exec_rcnt hC a, s.respond_response _, s.respond_CON _, s.respond_P _, s.respond_M _, s.respond_inputs _,
    s.respond_delivered _, fun hlegal => ?_⟩
  obtain ⟨hlo, hhi⟩ := hlegal
  exact ⟨s.precision, hlo, hhi, registerCount_word_toNat s⟩

/-- Settles O18: INIT keeps nothing else of the state before it. -/
theorem initForgetsTheOldSketch : Obligations.InitForgetsTheOldSketch := by
  intro n s s' hr hi hd
  rw [exec_init, exec_init, State.construct_congr hr hi hd]

/-- Settles O20: the two operands clamp to 4 and to 16. -/
theorem clampExamples : Obligations.ClampExamples := by
  intro s
  have hlow : clampPrecision 1 = 4#5 := by decide
  have hhigh : clampPrecision 100 = 16#5 := by decide
  obtain ⟨u, hu, hanswer⟩ := exec_rcnt_construct 1 0 s
  obtain ⟨u', hu', hanswer'⟩ := exec_rcnt_construct 100 0 s
  rw [hlow] at hanswer
  rw [hhigh] at hanswer'
  exact ⟨⟨_, u, exec_init 1 s, hu, hanswer⟩, ⟨_, u', exec_init 100 s, hu', hanswer'⟩⟩

end Sys2Proof.Machine
end

/-! ## Family 41_add: the rank of a digest (R92 to R95, R140) -/

section
namespace Sys2Proof.Machine

/-- The recursion of R143 counts the places from where it starts down to the highest set bit. -/
theorem lzcGo_eq {x : BitVec 32} (hx : x.toNat ≠ 0) {j : Nat} (hj : x.toNat.log2 ≤ j) (n : Nat) :
    lzcGo x j n = n + (j - x.toNat.log2) := by
  have htop : x.getLsbD x.toNat.log2 = true := Nat.testBit_log2 hx
  induction j generalizing n with
  | zero =>
    have h0 : x.toNat.log2 = 0 := Nat.le_zero.1 hj
    rw [h0] at htop ⊢
    simp [lzcGo, htop]
  | succ j ih =>
    rcases hj.eq_or_lt with heq | hlt
    · rw [heq] at htop ⊢
      simp [lzcGo, htop]
    · have hclear : x.getLsbD (j + 1) = false := Nat.testBit_eq_false_of_lt ((Nat.log2_lt hx).1 hlt)
      rw [lzcGo, hclear, if_neg Bool.false_ne_true, ih (Nat.le_of_lt_succ hlt)]
      omega

/-- The leading-zero count of a word that is not zero, from the position of its highest set bit (R140). -/
theorem lzc32_eq {x : BitVec 32} (hx : x.toNat ≠ 0) : lzc32 x = 31 - x.toNat.log2 := by
  have hlt : x.toNat.log2 < 32 := (Nat.log2_lt hx).2 x.isLt
  rw [lzc32, lzcGo_eq hx (Nat.le_of_lt_succ hlt), Nat.zero_add]

theorem lzc32_zero : lzc32 0#32 = 32 := by decide

/-- The remaining bits stand at the top of the word, above `P` zero bits (R92). -/
theorem remainingBits_toNat {p : Nat} (hp : p ≤ 32) (d : Digest) :
    (remainingBits p d).toNat = d.toNat % 2 ^ (32 - p) * 2 ^ p := by
  rw [remainingBits, BitVec.toNat_shiftLeft, Nat.shiftLeft_eq, ← pow_sub_mul_pow 2 hp, Nat.mul_mod_mul_right]

theorem log2_mul_two_pow {n : Nat} (hn : n ≠ 0) (p : Nat) : (n * 2 ^ p).log2 = n.log2 + p := by
  have hpos : 0 < 2 ^ p := by positivity
  obtain ⟨hlo, hhi⟩ := (Nat.log2_eq_iff hn).1 rfl
  refine (Nat.log2_eq_iff (mul_ne_zero hn hpos.ne')).2 ⟨?_, ?_⟩
  · rw [pow_add]
    exact Nat.mul_le_mul_right _ hlo
  · rw [Nat.add_right_comm, pow_add]
    exact Nat.mul_lt_mul_of_pos_right hhi hpos

/-- No remaining bit is set: the word is zero (R94). -/
theorem remainingBits_eq_zero {p : Nat} {d : Digest} (hp : p ≤ 32) (hlow : d.toNat % 2 ^ (32 - p) = 0) :
    remainingBits p d = 0#32 :=
  BitVec.eq_of_toNat_eq (by rw [remainingBits_toNat hp, hlow, Nat.zero_mul, BitVec.toNat_ofNat, Nat.zero_mod])

/-- Some remaining bit is set: the highest one, moved up by `P`, ends the leading zeros (R94). -/
theorem lzc32_remainingBits {p : Nat} {d : Digest} (hp : p ≤ 32) (hlow : d.toNat % 2 ^ (32 - p) ≠ 0) :
    lzc32 (remainingBits p d) = 31 - p - (d.toNat % 2 ^ (32 - p)).log2 := by
  have hw := remainingBits_toNat hp d
  have hne : (remainingBits p d).toNat ≠ 0 := hw ▸ mul_ne_zero hlow (by positivity)
  rw [lzc32_eq hne, hw, log2_mul_two_pow hlow]
  omega

/-- The highest set bit lies among the `32 - P` remaining ones. -/
theorem log2_remaining_lt {p : Nat} {d : Digest} (hlow : d.toNat % 2 ^ (32 - p) ≠ 0) :
    (d.toNat % 2 ^ (32 - p)).log2 < 32 - p := (Nat.log2_lt hlow).2 (Nat.mod_lt _ (by positivity))

/-- With no remaining bit set the clamp gives the greatest rank (R95). -/
theorem rank_of_none_left {p : Nat} {d : Digest} (hp : p ≤ 32) (hlow : d.toNat % 2 ^ (32 - p) = 0) :
    rank p d = 33 - p := by
  rw [rank, rank0, remainingBits_eq_zero hp hlow, lzc32_zero, maxRank]
  omega

/-- The unclamped rank with a remaining bit set (R94). -/
theorem rank0_of_some_left {p : Nat} {d : Digest} (hp : p ≤ 32) (hlow : d.toNat % 2 ^ (32 - p) ≠ 0) :
    rank0 p d = 32 - p - (d.toNat % 2 ^ (32 - p)).log2 := by
  have hlt := log2_remaining_lt hlow
  rw [rank0, lzc32_remainingBits hp hlow]
  omega

/-- With a remaining bit set the clamp changes nothing (R95). -/
theorem rank_eq_rank0 {p : Nat} {d : Digest} (hp : p ≤ 32) (hlow : d.toNat % 2 ^ (32 - p) ≠ 0) :
    rank p d = rank0 p d := by
  have h0 := rank0_of_some_left hp hlow
  rw [rank, maxRank]
  omega

/-- Settles O23: the two cases of `low`, and the bounds of the clamp. -/
theorem rankCaseByCase : Obligations.RankCaseByCase := by
  intro p d ⟨hp4, hp16⟩ low
  have hp : p ≤ 32 := by omega
  refine ⟨fun hlow => ?_, fun hlow => ?_, rfl, rank_pos hp d, rank_le p d, by omega⟩
  · have hw : remainingBits p d = 0#32 := remainingBits_eq_zero hp hlow
    have hlzc : lzc32 (remainingBits p d) = 32 := hw ▸ lzc32_zero
    exact ⟨hw, hlzc, congrArg (· + 1) hlzc, rank_of_none_left hp hlow⟩
  · have hlog : low.log2 < 32 - p := log2_remaining_lt hlow
    have h0 : rank0 p d = 32 - p - low.log2 := rank0_of_some_left hp hlow
    exact ⟨lzc32_remainingBits hp hlow, h0, by omega, by omega, rank_eq_rank0 hp hlow⟩

end Sys2Proof.Machine
end

/-! ## Family 41_add: ADD and lists of ADD commands (R90, R91, R96 to R99) -/

section
namespace Sys2Proof.Machine

variable {s : State}

/-- The register array after ADD of one digest: the register of its bucket merged with its rank (R90, R96). -/
def Memory.addDigest (p : Nat) (M : List Host.Cell) (d : Digest) : List Host.Cell :=
  Memory.write M (bucketIndex p d) (mergeMax (Memory.read M (bucketIndex p d)) (rank p d))

/-- The register array after ADD of each digest of a list in turn. -/
def Memory.addDigests (p : Nat) (M : List Host.Cell) (ds : List Digest) : List Host.Cell :=
  ds.foldl (Memory.addDigest p) M

/-- The greatest rank among the digests of a list whose bucket is `i`, or 0 (R97). -/
def highestRank (p : Nat) (ds : List Digest) (i : Nat) : Nat :=
  ((ds.filter fun d => bucketIndex p d = i).map (rank p)).foldr max 0

/-- ADD on a constructed engine changes the register array alone (R90, R96). -/
theorem exec_add_eq (hC : s.CON = true) (d : Digest) :
    exec (.add d) s = .next { s with M := Memory.addDigest s.precision s.M d } := exec_add hC d

/-- Settles O25: `exec_add_eq` asks nothing of `P` and `M`. -/
theorem addCompletes : Obligations.AddCompletes := fun d _ hC => ⟨_, exec_add_eq hC d⟩

theorem Memory.addDigest_wf {M : List Host.Cell} (h : Memory.wf M) (p : Nat) (d : Digest) :
    Memory.wf (Memory.addDigest p M d) := Memory.write_wf h _ _

/-- ADD takes the register of the bucket to the maximum of its value and the rank (R96). -/
theorem Memory.read_addDigest_bucket {M : List Host.Cell} (h : Memory.wf M) (p : Nat) (d : Digest) :
    (Memory.read (Memory.addDigest p M d) (bucketIndex p d)).toNat =
      max (Memory.read M (bucketIndex p d)).toNat (rank p d) := by
  rw [Memory.addDigest, Memory.read_write_same h, mergeMax_toNat _ (rank_lt_256 p d)]

/-- ADD leaves every other register as it was (R96). -/
theorem Memory.read_addDigest_other {M : List Host.Cell} (h : Memory.wf M) {p i : Nat} {d : Digest}
    (hi : i ≠ bucketIndex p d) : Memory.read (Memory.addDigest p M d) i = Memory.read M i :=
  Memory.read_write_other h hi _

/-- Settles O24: the rank as `rankCaseByCase` gives it, and the two reads after `Memory.addDigest`. -/
theorem addRaisesOneRegister : Obligations.AddRaisesOneRegister := by
  intro d s idx low r
  refine ⟨fun hC ⟨hp4, hp16⟩ hwf => ?_, fun hC => exec_refused_iff.2 ⟨rfl, hC, nofun⟩⟩
  have hp : s.precision ≤ 32 := s.precision_lt.le
  have hidx : bucketIndex s.precision d = idx := bucketIndex_eq s.precision d
  have hr : rank s.precision d = r := by
    by_cases hlow : low = 0
    · rw [rank_of_none_left hp hlow]
      exact (if_pos hlow).symm
    · rw [rank_eq_rank0 hp hlow, rank0_of_some_left hp hlow]
      exact (if_neg hlow).symm
  rw [← hidx, ← hr]
  exact ⟨bucketIndex_lt hp d, _, exec_add_eq hC d, Memory.read_addDigest_bucket hwf _ d,
    fun i hi => Memory.read_addDigest_other hwf hi, rfl, rfl, rfl, rfl, rfl⟩

/-! ### Saturation (R99) -/

/-- A register at `MAXRANK` stays there. -/
theorem Memory.read_addDigest_of_saturated {M : List Host.Cell} (h : Memory.wf M) {p i : Nat}
    (hi : (Memory.read M i).toNat = maxRank p) (d : Digest) :
    Memory.read (Memory.addDigest p M d) i = Memory.read M i := by
  by_cases hb : i = bucketIndex p d
  · subst hb
    refine BitVec.eq_of_toNat_eq ?_
    rw [Memory.read_addDigest_bucket h, max_eq_left]
    exact hi ▸ rank_le p d
  · exact Memory.read_addDigest_other h hb

/-- The digest whose index bits are `i` and whose remaining bits are all zero. -/
theorem saturatingDigest_toNat {p i : Nat} (hp : p ≤ 32) (hi : i < 2 ^ p) :
    (BitVec.ofNat 32 (i * 2 ^ (32 - p))).toNat = i * 2 ^ (32 - p) := by
  have hfits : i * 2 ^ (32 - p) < 2 ^ p * 2 ^ (32 - p) := Nat.mul_lt_mul_of_pos_right hi (by positivity)
  rw [← pow_add, Nat.add_sub_cancel' hp] at hfits
  rw [BitVec.toNat_ofNat, Nat.mod_eq_of_lt hfits]

theorem bucketIndex_saturatingDigest {p i : Nat} (hp : p ≤ 32) (hi : i < 2 ^ p) :
    bucketIndex p (BitVec.ofNat 32 (i * 2 ^ (32 - p))) = i := by
  rw [bucketIndex_eq, saturatingDigest_toNat hp hi, Nat.mul_div_cancel _ (by positivity)]

theorem rank_saturatingDigest {p i : Nat} (hp : p ≤ 32) (hi : i < 2 ^ p) :
    rank p (BitVec.ofNat 32 (i * 2 ^ (32 - p))) = maxRank p :=
  rank_of_none_left hp (by rw [saturatingDigest_toNat hp hi, Nat.mul_mod_left])

/-- Settles O28: no rank exceeds `MAXRANK`, and a digest without remaining bits reaches it. -/
theorem bucketSaturates : Obligations.BucketSaturates := by
  intro s hC hinv
  have hp : s.precision ≤ 32 := s.precision_lt.le
  have hranks := hinv.ranksBounded hC
  obtain ⟨hwf, -, -⟩ := hinv
  refine ⟨fun i d hi => ⟨_, exec_add_eq hC d, Memory.read_addDigest_of_saturated hwf hi d⟩, fun i hi => ?_, ?_⟩
  · have hidx := bucketIndex_saturatingDigest hp hi
    refine ⟨hidx, _, exec_add_eq hC _, ?_⟩
    have hread := Memory.read_addDigest_bucket hwf s.precision (BitVec.ofNat 32 (i * 2 ^ (32 - s.precision)))
    rw [hidx, rank_saturatingDigest hp hi] at hread
    exact hread.trans (max_eq_right (Memory.read_le_maxRank hranks i))
  · rw [bucketIndex_eq]
    exact Nat.zero_div _

/-! ### Lists of ADD commands (R97, R98) -/

theorem highestRank_cons (p : Nat) (d : Digest) (ds : List Digest) (i : Nat) :
    highestRank p (d :: ds) i =
      if bucketIndex p d = i then max (rank p d) (highestRank p ds i) else highestRank p ds i := by
  by_cases h : bucketIndex p d = i <;> simp [highestRank, h]

/-- The greatest rank of a bucket is bounded by what bounds the rank of each of its digests. -/
theorem highestRank_le_iff {p : Nat} {ds : List Digest} {i b : Nat} :
    highestRank p ds i ≤ b ↔ ∀ d ∈ ds, bucketIndex p d = i → rank p d ≤ b := by
  induction ds with
  | nil => simp [highestRank]
  | cons d ds ih =>
    rw [highestRank_cons, List.forall_mem_cons, ← ih]
    split <;> simp [*]

/-- The greatest rank of a bucket depends only on which digests the list has. -/
theorem highestRank_congr {ds ds' : List Digest} (h : ∀ d, d ∈ ds ↔ d ∈ ds') (p i : Nat) :
    highestRank p ds i = highestRank p ds' i :=
  eq_of_forall_ge_iff fun b => by simp only [highestRank_le_iff, h]

theorem Memory.addDigests_wf {M : List Host.Cell} (h : Memory.wf M) (p : Nat) (ds : List Digest) :
    Memory.wf (Memory.addDigests p M ds) := by
  induction ds generalizing M with
  | nil => exact h
  | cons d ds ih => exact ih (Memory.addDigest_wf h p d)

/-- After ADD of a list of digests each register is the maximum of its value and the ranks of its bucket (R97). -/
theorem Memory.read_addDigests {M : List Host.Cell} (h : Memory.wf M) (p : Nat) (ds : List Digest) (i : Nat) :
    (Memory.read (Memory.addDigests p M ds) i).toNat = max (Memory.read M i).toNat (highestRank p ds i) := by
  induction ds generalizing M with
  | nil => exact (Nat.max_zero _).symm
  | cons d ds ih =>
    rw [highestRank_cons]
    refine (ih (Memory.addDigest_wf h p d)).trans ?_
    split
    · subst i
      rw [Memory.read_addDigest_bucket h, max_assoc]
    · rw [Memory.read_addDigest_other h (Ne.symm ‹_›)]

/-- The array after a set of ADD commands does not depend on their order or multiplicity (R98). -/
theorem Memory.addDigests_congr {M : List Host.Cell} (hM : Memory.wf M) {ds ds' : List Digest}
    (h : ∀ d, d ∈ ds ↔ d ∈ ds') (p : Nat) : Memory.addDigests p M ds = Memory.addDigests p M ds' :=
  Memory.ext (Memory.addDigests_wf hM p ds) (Memory.addDigests_wf hM p ds') fun i =>
    BitVec.eq_of_toNat_eq (by rw [Memory.read_addDigests hM, Memory.read_addDigests hM, highestRank_congr h])

/-- A delivery before the array is replaced adds nothing to the one after it. -/
theorem State.deliver_withM_deliver (s : State) (M : List Host.Cell) :
    State.deliver { s.deliver with M := M } = State.deliver { s with M := M } := by
  cases hr : s.response <;> simp [State.deliver, hr]

/-- A list of ADD commands that is not empty changes the array, and a response that waited before it is delivered. -/
theorem execAll_add_cons (hC : s.CON = true) (d : Digest) (ds : List Digest) :
    execAll ((d :: ds).map .add) s =
      .next (State.deliver { s with M := Memory.addDigests s.precision s.M (d :: ds) }) := by
  induction ds generalizing s d with
  | nil => exact execAll_cons_of_next (exec_add_eq hC d) []
  | cons d' ds ih =>
    have hrun := execAll_cons_of_next (exec_add_eq hC d) ((d' :: ds).map .add)
    rw [ih (by simpa using hC), State.deliver_withM_deliver] at hrun
    simpa [Memory.addDigests, State.precision] using hrun

/-- A list of ADD commands completes, and what it leaves of the sketch is the array of `Memory.addDigests`. -/
theorem execAll_add_sketch (hC : s.CON = true) (ds : List Digest) :
    ∃ t, execAll (ds.map .add) s = .next t ∧ t.precision = s.precision ∧
      t.M = Memory.addDigests s.precision s.M ds := by
  cases ds with
  | nil => exact ⟨s, rfl, rfl, rfl⟩
  | cons d ds => exact ⟨_, execAll_add_cons hC d ds, State.deliver_precision _, State.deliver_M _⟩

/-- Settles O26: the arrays are equal by `Memory.addDigests_congr`, and both lists are empty or neither is. -/
theorem addsDependOnlyOnTheSetOfDigests : Obligations.AddsDependOnlyOnTheSetOfDigests := by
  intro ds ds' s hC hwf h
  match ds, ds' with
  | [], [] => exact ⟨s, rfl, rfl⟩
  | [], d' :: _ => exact absurd ((h d').2 List.mem_cons_self) List.not_mem_nil
  | d :: _, [] => exact absurd ((h d).1 List.mem_cons_self) List.not_mem_nil
  | d :: ds, d' :: ds' =>
    exact ⟨_, execAll_add_cons hC d ds, Memory.addDigests_congr hwf h s.precision ▸ execAll_add_cons hC d' ds'⟩

/-- Settles O27: INIT leaves every register 0, and `Memory.read_addDigests` gives what the ADD commands make of it. -/
theorem registerIsTheMaximumRankSeen : Obligations.RegisterIsTheMaximumRankSeen := by
  intro n ds s
  have hinit := execAll_cons_of_next (exec_init n s) (ds.map .add)
  obtain ⟨t, hrun, hp, hM⟩ := execAll_add_sketch (s := (s.construct (clampPrecision n)).deliver) (by simp) ds
  refine ⟨t, hinit.trans hrun, fun i _ => ?_⟩
  rw [hM, hp, State.deliver_M, State.construct_M, Memory.read_addDigests ⟨.nil, by simp⟩, Memory.read_nil]
  exact Nat.zero_max _

end Sys2Proof.Machine
end

/-! ## Family 42_estimate: what rounding keeps (R150 to R152) -/

section
namespace Sys2Proof.Machine

variable {round : Nat → Nat → Nat} {n d : Nat}

/-- The unit in the last place is at most `2^-52` of the quotient, but for subnormal results. -/
theorem two_pow_mul_ulp_le (hn : 0 < n) (hd : 0 < d) (h : ulpExponent n d ≠ -1074) :
    (2 : ℚ) ^ (52 + ulpExponent n d) ≤ (n : ℚ) / d := by
  refine le_trans (zpow_le_zpow_right₀ one_le_two ?_) (floorLog2_spec hn hd).1
  unfold ulpExponent at h ⊢
  omega

/-- The unit in the last place is more than `2^-53` of the quotient. -/
theorem lt_two_pow_mul_ulp (hn : 0 < n) (hd : 0 < d) : (n : ℚ) / d < (2 : ℚ) ^ (53 + ulpExponent n d) := by
  refine (floorLog2_spec hn hd).2.trans_le (zpow_le_zpow_right₀ one_le_two ?_)
  unfold ulpExponent
  omega

/-- A whole number of units that is at most the quotient is at most the rounded significand. -/
theorem le_roundedSignificand (hr : RoundsToNeighbour round) (hd : 0 < d) {sig : Nat}
    (h : sig * (2 : ℚ) ^ ulpExponent n d ≤ (n : ℚ) / d) : sig ≤ roundedSignificand round n d := by
  have hD : 0 < d * 2 ^ (ulpExponent n d).toNat := by positivity
  have hDq : (0 : ℚ) < ((d * 2 ^ (ulpExponent n d).toNat : Nat) : ℚ) := by exact_mod_cast hD
  rw [← scaled_quotient n d (ulpExponent n d)] at h
  have hle := le_of_mul_le_mul_right h (by positivity)
  rw [le_div_iff₀ hDq] at hle
  exact ((Nat.le_div_iff_mul_le hD).2 (by exact_mod_cast hle)).trans (hr _ _ hD).1

/-- The rounded significand is less than one unit above the quotient. -/
theorem roundedSignificand_lt (hr : RoundsToNeighbour round) (hd : 0 < d) :
    roundedSignificand round n d * (2 : ℚ) ^ ulpExponent n d < (n : ℚ) / d + (2 : ℚ) ^ ulpExponent n d := by
  have hD : 0 < d * 2 ^ (ulpExponent n d).toNat := by positivity
  have hDq : (0 : ℚ) < ((d * 2 ^ (ulpExponent n d).toNat : Nat) : ℚ) := by exact_mod_cast hD
  have hlt := (hr (n * 2 ^ (-ulpExponent n d).toNat) _ hD).2
  have hltq : (roundedSignificand round n d : ℚ) * ((d * 2 ^ (ulpExponent n d).toNat : Nat) : ℚ) <
      ((n * 2 ^ (-ulpExponent n d).toNat : Nat) : ℚ) + ((d * 2 ^ (ulpExponent n d).toNat : Nat) : ℚ) := by
    exact_mod_cast hlt
  rw [← scaled_quotient n d (ulpExponent n d), ← add_one_mul]
  refine mul_lt_mul_of_pos_right ?_ (by positivity)
  rwa [← lt_div_iff₀ hDq, add_div, div_self hDq.ne'] at hltq

/-- The pattern rounding gives, unless it overflows: the exponent of its last place above the rounded significand. -/
theorem roundMagnitude_eq (hn : 0 < n) : roundMagnitude round n d =
    min ((ulpExponent n d + 1074).toNat * 2 ^ 52 + roundedSignificand round n d) f64Infinity := by
  rw [roundMagnitude, if_neg hn.ne']
  rfl

/-- Rounding does not fall below a pattern that is worth at most the quotient. -/
theorem le_roundMagnitude (hr : RoundsToNeighbour round) (hd : 0 < d) {m : Nat} (hm : m ≤ f64Infinity)
    (h : patternValue m ≤ (n : ℚ) / d) : m ≤ roundMagnitude round n d := by
  obtain rfl | hn := n.eq_zero_or_pos
  · have : m ≤ 0 := patternValue_strictMono.le_iff_le.1 (by simpa using h)
    omega
  rw [roundMagnitude_eq hn]
  refine le_min ?_ hm
  obtain ⟨-, hsig⟩ := roundedSignificand_range hr hn hd
  obtain ⟨e, sig, rfl, hsig53, he⟩ := exists_significand m
  rw [patternValue_of_significand hsig53.le he] at h
  have hge := ulpExponent_ge n d
  obtain hlt | heq | hgt := lt_trichotomy e (ulpExponent n d + 1074).toNat
  · omega
  · have hulp : (e : Int) - 1074 = ulpExponent n d := by omega
    rw [hulp] at h
    have := le_roundedSignificand hr hd h
    omega
  · have hbig : (2 : ℚ) ^ (53 + ulpExponent n d) ≤ sig * (2 : ℚ) ^ ((e : Int) - 1074) :=
      calc (2 : ℚ) ^ (53 + ulpExponent n d)
        _ ≤ (2 : ℚ) ^ (52 + ((e : Int) - 1074)) := zpow_le_zpow_right₀ one_le_two (by omega)
        _ = 2 ^ 52 * (2 : ℚ) ^ ((e : Int) - 1074) := by rw [zpow_add₀ two_ne_zero, zpow_ofNat]
        _ ≤ sig * (2 : ℚ) ^ ((e : Int) - 1074) := by
          have : (2 : ℚ) ^ 52 ≤ sig := by exact_mod_cast he.resolve_left (by omega)
          gcongr
    exact absurd (hbig.trans h) (lt_two_pow_mul_ulp hn hd).not_ge

/-- Rounding does not rise above a pattern that is worth at least the quotient. -/
theorem roundMagnitude_le (hr : RoundsToNeighbour round) (hd : 0 < d) {m : Nat}
    (h : (n : ℚ) / d ≤ patternValue m) : roundMagnitude round n d ≤ m := by
  obtain rfl | hn := n.eq_zero_or_pos
  · simp [roundMagnitude]
  rw [roundMagnitude_eq hn]
  refine (min_le_left _ _).trans (Nat.le_of_not_lt fun hlt => h.not_gt ?_)
  obtain ⟨hsig53, hsig⟩ := roundedSignificand_range hr hn hd
  have hge := ulpExponent_ge n d
  have hE : ((ulpExponent n d + 1074).toNat : Int) - 1074 = ulpExponent n d := by omega
  by_cases hcarry : ulpExponent n d ≠ -1074 ∧ roundedSignificand round n d = 2 ^ 52
  · obtain ⟨hnormal, hS⟩ := hcarry
    rw [hS] at hlt
    refine (patternValue_strictMono hlt).trans_le ?_
    rw [patternValue_of_significand (by norm_num) (.inr le_rfl), hE]
    refine (two_pow_mul_ulp_le hn hd hnormal).trans_eq' ?_
    rw [zpow_add₀ two_ne_zero, zpow_ofNat, Nat.cast_pow, Nat.cast_ofNat]
  · obtain ⟨S, hS⟩ : ∃ S, roundedSignificand round n d = S + 1 := by
      refine Nat.exists_eq_succ_of_ne_zero fun h0 => ?_
      have : ulpExponent n d = -1074 := by omega
      rw [h0, this] at hlt
      exact absurd hlt (by simp)
    have hlast := roundedSignificand_lt hr hd (n := n)
    rw [hS] at hlt hlast
    push_cast at hlast
    calc patternValue m
      _ ≤ patternValue ((ulpExponent n d + 1074).toNat * 2 ^ 52 + S) :=
        patternValue_strictMono.monotone (by omega)
      _ = S * (2 : ℚ) ^ ulpExponent n d := by
        rw [patternValue_of_significand (by omega) (by omega), hE]
      _ < (n : ℚ) / d := by linarith

/-! ### Signed rounding -/

/-- Rounding a rational under its own sign, the significand rounded by `round`: the form of `fround`, `froundDown` and
`froundUp`. -/
def roundWith (round : Nat → Nat → Nat) (r : ℚ) : F64 :=
  f64WithSign (decide (r < 0)) (roundMagnitude round r.num.natAbs r.den)

theorem froundDown_eq_roundWith (r : ℚ) : ∃ round, RoundsToNeighbour round ∧ froundDown r = roundWith round r := by
  refine ⟨_, ?_, rfl⟩
  split
  · exact divUp_neighbour
  · exact divDown_neighbour

theorem froundUp_eq_roundWith (r : ℚ) : ∃ round, RoundsToNeighbour round ∧ froundUp r = roundWith round r := by
  refine ⟨_, ?_, rfl⟩
  split
  · exact divDown_neighbour
  · exact divUp_neighbour

theorem f64Sign_roundWith (round : Nat → Nat → Nat) (r : ℚ) : f64Sign (roundWith round r) = decide (r < 0) :=
  f64Sign_withSign _ (roundMagnitude_lt _ _ _)

theorem f64ToRat_roundWith (round : Nat → Nat → Nat) (r : ℚ) : f64ToRat (roundWith round r) =
    if r < 0 then -patternValue (roundMagnitude round r.num.natAbs r.den)
    else patternValue (roundMagnitude round r.num.natAbs r.den) := by
  rw [roundWith, f64ToRat_withSign _ (roundMagnitude_lt _ _ _)]
  simp only [decide_eq_true_eq]

theorem natAbs_num_div_den (r : ℚ) : (r.num.natAbs : ℚ) / r.den = |r| := by
  rw [Nat.cast_natAbs, Int.cast_abs, ← Nat.abs_cast r.den, ← abs_div, Rat.num_div_den]

/-- A finite binary64 value, by its significand and the exponent of its last place. -/
def Representable (y : ℚ) : Prop :=
  ∃ (n : Nat) (k : Int), n ≤ 2 ^ 53 ∧ -1074 ≤ k ∧ |y| = n * (2 : ℚ) ^ k ∧ |y| < 2 ^ 1024

/-- The pattern with an empty fraction is worth a power of two. -/
theorem patternValue_two_pow (e : Nat) : patternValue (e * 2 ^ 52 + 2 ^ 52) = (2 : ℚ) ^ ((e : Int) - 1022) := by
  have hexp : (e : Int) - 1022 = 52 + ((e : Int) - 1074) := by ring
  rw [patternValue_of_significand (by norm_num) (.inr le_rfl), hexp, zpow_add₀ two_ne_zero, zpow_ofNat, Nat.cast_pow,
    Nat.cast_ofNat]

theorem patternValue_infinity : patternValue f64Infinity = 2 ^ 1024 := patternValue_two_pow 2046

/-- The significand can be shifted until it fills its places or the exponent is the least one. -/
theorem exists_shift {n : Nat} {k : Int} (hn : n ≤ 2 ^ 53) (hk : -1074 ≤ k) :
    ∃ e sig : Nat, sig ≤ 2 ^ 53 ∧ (e = 0 ∨ 2 ^ 52 ≤ sig) ∧ n * (2 : ℚ) ^ k = sig * (2 : ℚ) ^ ((e : Int) - 1074) := by
  obtain ⟨j, rfl⟩ : ∃ j : Nat, k = j - 1074 := ⟨(k + 1074).toNat, by omega⟩
  induction j generalizing n with
  | zero => exact ⟨0, n, hn, .inl rfl, rfl⟩
  | succ j ih =>
    obtain hlt | hge := lt_or_ge n (2 ^ 52)
    · obtain ⟨e, sig, hsig, he, hval⟩ := ih (n := 2 * n) (by omega) (by omega)
      refine ⟨e, sig, hsig, he, hval ▸ ?_⟩
      have hk : ((j + 1 : Nat) : Int) - 1074 = (j : Int) - 1074 + 1 := by push_cast; ring
      rw [hk, zpow_add_one₀ two_ne_zero]
      push_cast
      ring
    · exact ⟨j + 1, n, hn, .inr hge, rfl⟩

/-- A representable value is the value of a finite pattern. -/
theorem Representable.exists_pattern {y : ℚ} (h : Representable y) :
    ∃ m < f64Infinity, |y| = patternValue m := by
  obtain ⟨n, k, hn, hk, hy, hlt⟩ := h
  obtain ⟨e, sig, hsig, he, hval⟩ := exists_shift hn hk
  have hpattern : |y| = patternValue (e * 2 ^ 52 + sig) := by
    rw [hy, hval, patternValue_of_significand hsig he]
  refine ⟨_, ?_, hpattern⟩
  rwa [← patternValue_strictMono.lt_iff_lt, ← hpattern, patternValue_infinity]

/-- Rounding does not fall below a representable value that is at most its argument. -/
theorem Representable.le_roundWith (hr : RoundsToNeighbour round) {y r : ℚ} (hy : Representable y) (h : y ≤ r) :
    y ≤ f64ToRat (roundWith round r) := by
  obtain ⟨m, hm, hval⟩ := hy.exists_pattern
  rw [f64ToRat_roundWith]
  split
  · rename_i hneg
    rw [abs_of_neg (h.trans_lt hneg)] at hval
    have hle : roundMagnitude round r.num.natAbs r.den ≤ m :=
      roundMagnitude_le hr r.den_pos (by rw [natAbs_num_div_den, abs_of_neg hneg]; linarith)
    have := patternValue_strictMono.monotone hle
    linarith
  · rename_i hnonneg
    obtain hy0 | hy0 := le_total y 0
    · exact hy0.trans (patternValue_nonneg _)
    · rw [abs_of_nonneg hy0] at hval
      rw [hval]
      refine patternValue_strictMono.monotone (le_roundMagnitude hr r.den_pos hm.le ?_)
      rw [natAbs_num_div_den, abs_of_nonneg (not_lt.1 hnonneg)]
      linarith

/-- Rounding does not rise above a representable value that is at least its argument. -/
theorem Representable.roundWith_le (hr : RoundsToNeighbour round) {y r : ℚ} (hy : Representable y) (h : r ≤ y) :
    f64ToRat (roundWith round r) ≤ y := by
  obtain ⟨m, hm, hval⟩ := hy.exists_pattern
  rw [f64ToRat_roundWith]
  split
  · rename_i hneg
    obtain hy0 | hy0 := le_total 0 y
    · exact (neg_nonpos.2 (patternValue_nonneg _)).trans hy0
    · rw [abs_of_nonpos hy0] at hval
      have hle : m ≤ roundMagnitude round r.num.natAbs r.den :=
        le_roundMagnitude hr r.den_pos hm.le (by rw [natAbs_num_div_den, abs_of_neg hneg]; linarith)
      have := patternValue_strictMono.monotone hle
      linarith
  · rename_i hnonneg
    have hr0 := not_lt.1 hnonneg
    rw [abs_of_nonneg (hr0.trans h)] at hval
    rw [hval]
    exact patternValue_strictMono.monotone
      (roundMagnitude_le hr r.den_pos (by rw [natAbs_num_div_den, abs_of_nonneg hr0]; linarith))

/-- A representable value is its own rounding. -/
theorem Representable.roundWith_eq (hr : RoundsToNeighbour round) {y : ℚ} (hy : Representable y) :
    f64ToRat (roundWith round y) = y := le_antisymm (hy.roundWith_le hr le_rfl) (hy.le_roundWith hr le_rfl)

/-- Rounding stays finite up to the greatest finite value; here, up to a representable bound. -/
theorem Representable.f64Finite_roundWith (hr : RoundsToNeighbour round) {y r : ℚ} (hy : Representable y)
    (h : |r| ≤ |y|) : f64Finite (roundWith round r) = true := by
  obtain ⟨m, hm, hval⟩ := hy.exists_pattern
  rw [roundWith, f64Finite_withSign _ (roundMagnitude_lt _ _ _), decide_eq_true_eq]
  exact (roundMagnitude_le hr r.den_pos (by rwa [natAbs_num_div_den, ← hval])).trans_lt hm

/-! ### Which values are representable -/

theorem Representable.neg {y : ℚ} (h : Representable y) : Representable (-y) := by
  simpa only [Representable, abs_neg] using h

/-- A whole number of at most 53 bits times a power of two, below the overflow. -/
theorem Representable.of_dyadic {n : Nat} {k : Int} (hn : n ≤ 2 ^ 53) (hk : -1074 ≤ k)
    (hlt : n * (2 : ℚ) ^ k < 2 ^ 1024) : Representable (n * (2 : ℚ) ^ k) := by
  have habs : |n * (2 : ℚ) ^ k| = n * (2 : ℚ) ^ k :=
    abs_of_nonneg (mul_nonneg n.cast_nonneg (zpow_nonneg zero_le_two k))
  exact ⟨n, k, hn, hk, habs, habs.trans_lt hlt⟩

/-- What a power of two below `2^1024` bounds does not overflow. -/
theorem lt_overflow {r : ℚ} {j : Nat} (hj : j < 1024) (h : r ≤ 2 ^ j) : r < 2 ^ 1024 :=
  h.trans_lt (pow_lt_pow_right₀ one_lt_two hj)

theorem Representable.natCast {n : Nat} (hn : n ≤ 2 ^ 53) : Representable n := by
  have hlt : (n : ℚ) < 2 ^ 1024 := lt_overflow (j := 53) (by decide) (by exact_mod_cast hn)
  simpa using of_dyadic (k := 0) hn (by norm_num) (by simpa using hlt)

theorem Representable.two_zpow {k : Int} (h1 : -1074 ≤ k) (h2 : k ≤ 1023) : Representable ((2 : ℚ) ^ k) := by
  have hlt : (2 : ℚ) ^ k < 2 ^ 1024 := by
    rw [← zpow_natCast]
    exact zpow_lt_zpow_right₀ one_lt_two (by push_cast; omega)
  simpa using of_dyadic (n := 1) (k := k) (by norm_num) h1 (by simpa using hlt)

theorem f64Magnitude_nonneg (a : F64) : 0 ≤ f64Magnitude a := f64Magnitude_eq a ▸ patternValue_nonneg _

theorem abs_f64ToRat (a : F64) : |f64ToRat a| = f64Magnitude a := by
  rw [f64ToRat]
  split
  · rw [abs_neg, abs_of_nonneg (f64Magnitude_nonneg a)]
  · exact abs_of_nonneg (f64Magnitude_nonneg a)

theorem f64Finite_iff (a : F64) : f64Finite a = true ↔ a.toNat % 2 ^ 63 < f64Infinity := by
  rw [f64Finite, f64Exponent_eq, decide_eq_true_eq, f64Infinity]
  omega

/-- The value of a finite pattern is representable. -/
theorem Representable.of_finite {a : F64} (h : f64Finite a = true) : Representable (f64ToRat a) := by
  have hm := (f64Finite_iff a).1 h
  have hval : |f64ToRat a| = patternValue (a.toNat % 2 ^ 63) := by rw [abs_f64ToRat, f64Magnitude_eq]
  have hlt := patternValue_strictMono hm
  obtain ⟨e, sig, he, hsig, hcases⟩ := exists_significand (a.toNat % 2 ^ 63)
  refine ⟨sig, (e : Int) - 1074, hsig.le, by omega, ?_, ?_⟩
  · rw [hval, he, patternValue_of_significand hsig.le hcases]
  · rwa [hval, ← patternValue_infinity]

/-- Scaling a representable value up by a power of two is exact, below the overflow. -/
theorem Representable.mul_two_pow {y : ℚ} (h : Representable y) (j : Nat) (hlt : |y| * 2 ^ j < 2 ^ 1024) :
    Representable (y * 2 ^ j) := by
  obtain ⟨n, k, hn, hk, hy, -⟩ := h
  have habs : |y * 2 ^ j| = |y| * 2 ^ j := by rw [abs_mul, abs_of_nonneg (by positivity : (0 : ℚ) ≤ 2 ^ j)]
  refine ⟨n, k + j, hn, by omega, ?_, habs ▸ hlt⟩
  rw [habs, hy, zpow_add₀ two_ne_zero, zpow_natCast, mul_assoc]

/-- Scaling a representable value of at least 1 down by a power of two is exact, above the underflow. -/
theorem Representable.div_two_pow {y : ℚ} (h : Representable y) {j : Nat} (hj : j ≤ 1000) (hy1 : 1 ≤ |y|) :
    Representable (y / 2 ^ j) := by
  obtain ⟨n, k, hn, hk, hy, hlt⟩ := h
  have hk53 : -53 ≤ k := by
    by_contra hc
    have hsmall : (n : ℚ) * (2 : ℚ) ^ k < 1 :=
      calc (n : ℚ) * (2 : ℚ) ^ k
        _ ≤ 2 ^ (53 : Nat) * (2 : ℚ) ^ k := by gcongr; exact_mod_cast hn
        _ = (2 : ℚ) ^ (53 + k) := by rw [zpow_add₀ two_ne_zero, zpow_ofNat]
        _ < 1 := zpow_lt_one_of_neg₀ one_lt_two (by omega)
    linarith
  have habs : |y / 2 ^ j| = |y| / 2 ^ j := by rw [abs_div, abs_of_nonneg (by positivity : (0 : ℚ) ≤ 2 ^ j)]
  refine ⟨n, k - j, hn, by omega, ?_, ?_⟩
  · rw [habs, hy, zpow_sub₀ two_ne_zero, zpow_natCast, mul_div_assoc]
  · rw [habs]
    exact (div_le_self (abs_nonneg y) (one_le_pow₀ one_le_two)).trans_lt hlt

/-- A pattern is determined by its sign and its value. -/
theorem f64_ext {a b : F64} (hs : f64Sign a = f64Sign b) (hv : f64ToRat a = f64ToRat b) : a = b := by
  have hmag : a.toNat % 2 ^ 63 = b.toNat % 2 ^ 63 := by
    refine patternValue_strictMono.injective ?_
    rw [← f64Magnitude_eq, ← f64Magnitude_eq, ← abs_f64ToRat, ← abs_f64ToRat, hv]
  rw [f64Sign_eq, f64Sign_eq, decide_eq_decide] at hs
  refine BitVec.eq_of_toNat_eq ?_
  have := a.isLt
  have := b.isLt
  omega

end Sys2Proof.Machine
end

/-! ## Family 42_estimate: the operations on values with sign bit 0 (R153 to R158) -/

section
namespace Sys2Proof.Machine

/-! ### Rounding to nearest -/

theorem Representable.le_fround {y r : ℚ} (hy : Representable y) (h : y ≤ r) : y ≤ f64ToRat (fround r) :=
  hy.le_roundWith divNearest_neighbour h

theorem Representable.fround_le {y r : ℚ} (hy : Representable y) (h : r ≤ y) : f64ToRat (fround r) ≤ y :=
  hy.roundWith_le divNearest_neighbour h

theorem Representable.f64ToRat_fround {y : ℚ} (hy : Representable y) : f64ToRat (fround y) = y :=
  hy.roundWith_eq divNearest_neighbour

theorem Representable.f64Finite_fround {y r : ℚ} (hy : Representable y) (h : |r| ≤ |y|) :
    f64Finite (fround r) = true := hy.f64Finite_roundWith divNearest_neighbour h

theorem f64Sign_fround (r : ℚ) : f64Sign (fround r) = decide (r < 0) := f64Sign_roundWith divNearest r

/-! ### Finite values with sign bit 0 -/

/-- The pattern is finite, has sign bit 0, and is worth `v`. -/
structure Worth (a : F64) (v : ℚ) : Prop where
  finite : f64Finite a = true
  sign : f64Sign a = false
  value : f64ToRat a = v

variable {a b : F64} {u v : ℚ}

theorem Worth.nonneg (h : Worth a v) : 0 ≤ v := by
  rw [← h.value, f64ToRat, h.sign, if_neg Bool.false_ne_true]
  exact f64Magnitude_nonneg a

theorem Worth.representable (h : Worth a v) : Representable v := h.value ▸ .of_finite h.finite

theorem Worth.magnitude (h : Worth a v) : f64Magnitude a = v := by
  rw [← abs_f64ToRat, h.value, abs_of_nonneg h.nonneg]

/-- A pattern with sign bit 0 is determined by its value. -/
theorem Worth.unique (ha : Worth a v) (hb : Worth b v) : a = b :=
  f64_ext (ha.sign.trans hb.sign.symm) (ha.value.trans hb.value.symm)

theorem Worth.congr (h : Worth a u) (huv : u = v) : Worth a v := huv ▸ h

/-- A representable value that is not negative is the value of its rounding. -/
theorem Representable.worth (h : Representable v) (hv : 0 ≤ v) : Worth (fround v) v :=
  ⟨h.f64Finite_fround le_rfl, by rw [f64Sign_fround, decide_eq_false hv.not_gt], h.f64ToRat_fround⟩

/-- Rounding what lies between 0 and a representable value. -/
theorem Representable.worth_fround (h : Representable u) (hv : 0 ≤ v) (hvu : v ≤ u) :
    Worth (fround v) (f64ToRat (fround v)) := by
  refine ⟨h.f64Finite_fround ?_, by rw [f64Sign_fround, decide_eq_false hv.not_gt], rfl⟩
  rwa [abs_of_nonneg hv, abs_of_nonneg (hv.trans hvu)]

/-- A pattern with sign bit 0 is the rounding of its value. -/
theorem Worth.eq_fround (h : Worth a v) : a = fround v := h.unique (h.representable.worth h.nonneg)

theorem worth_zero : Worth 0x0000000000000000#64 0 := ⟨by decide, by decide, by decide +kernel⟩

theorem worth_one : Worth 0x3FF0000000000000#64 1 := ⟨by decide, by decide, by decide +kernel⟩

theorem fround_one : fround 1 = 0x3FF0000000000000#64 := worth_one.eq_fround.symm

theorem fround_zero : fround 0 = 0x0000000000000000#64 := worth_zero.eq_fround.symm

theorem worth_fround_one : Worth (fround 1) 1 := fround_one ▸ worth_one

theorem worth_fround_zero : Worth (fround 0) 0 := fround_zero ▸ worth_zero

/-! ### Conversions (R156) -/

/-- A whole number of at most 53 bits converts exactly. -/
theorem worth_i2f {n : Nat} (hn : n ≤ 2 ^ 53) : Worth (i2f n) n := by
  rw [i2f, Int.cast_natCast]
  exact (Representable.natCast hn).worth n.cast_nonneg

theorem pow2_toNat {k : Int} (h1 : -1022 ≤ k) (h2 : k ≤ 1023) : (pow2 k).toNat = (k + 1023).toNat * 2 ^ 52 := by
  rw [pow2, BitVec.toNat_shiftLeft, BitVec.toNat_ofInt, Nat.shiftLeft_eq]
  omega

/-- A power of two in the normal range converts exactly. -/
theorem worth_pow2 {k : Int} (h1 : -1022 ≤ k) (h2 : k ≤ 1023) : Worth (pow2 k) ((2 : ℚ) ^ k) := by
  have hnat := pow2_toNat h1 h2
  have hmod : (pow2 k).toNat % 2 ^ 63 = (k + 1022).toNat * 2 ^ 52 + 2 ^ 52 := by omega
  have hsign : f64Sign (pow2 k) = false := by
    rw [f64Sign_eq, decide_eq_false_iff_not]
    omega
  refine ⟨?_, hsign, ?_⟩
  · rw [f64Finite_iff, hmod, f64Infinity]
    omega
  · have hexp : ((k + 1022).toNat : Int) - 1022 = k := by omega
    rw [f64ToRat, hsign, if_neg Bool.false_ne_true, f64Magnitude_eq, hmod, patternValue_two_pow, hexp]

/-! ### Arithmetic (R153 to R155, R158) -/

/-- The magnitude of a rational does not depend on its sign. -/
theorem roundSigned_abs (neg : Bool) (r : ℚ) : roundSigned neg |r| = roundSigned neg r := by
  obtain h | h := abs_choice r <;> simp [h, roundSigned]

/-- The product of two finite patterns: the sign is the exclusive-or of the signs, and the value is the exact product
rounded once (R154). -/
theorem fmul_of_finite (ha : f64Finite a = true) (hb : f64Finite b = true) :
    fmul a b = roundSigned (f64Sign a ^^ f64Sign b) (f64ToRat a * f64ToRat b) := by
  rw [fmul, ha, hb, Bool.and_self, if_pos rfl, ← abs_f64ToRat, ← abs_f64ToRat, ← abs_mul, roundSigned_abs]

/-- The quotient of two finite patterns, the divisor not zero (R155). -/
theorem fdiv_of_finite (ha : f64Finite a = true) (hb : f64Finite b = true) (h : f64ToRat b ≠ 0) :
    fdiv a b = roundSigned (f64Sign a ^^ f64Sign b) (f64ToRat a / f64ToRat b) := by
  have hmag : f64Magnitude b ≠ 0 := by rwa [← abs_f64ToRat, abs_ne_zero]
  rw [fdiv, ha, hb, decide_eq_true hmag, Bool.and_self, Bool.and_self, if_pos rfl, ← abs_f64ToRat, ← abs_f64ToRat,
    ← abs_div, roundSigned_abs]

theorem roundSigned_of_nonneg (h : 0 ≤ v) : roundSigned false v = fround v := by
  rw [fround, decide_eq_false h.not_gt]

theorem roundSigned_of_neg (h : v < 0) : roundSigned true v = fround v := by rw [fround, decide_eq_true h]

theorem Worth.fmul_eq (ha : Worth a u) (hb : Worth b v) : fmul a b = fround (u * v) := by
  rw [fmul_of_finite ha.finite hb.finite, ha.sign, hb.sign, ha.value, hb.value]
  exact roundSigned_of_nonneg (mul_nonneg ha.nonneg hb.nonneg)

theorem Worth.fdiv_eq (ha : Worth a u) (hb : Worth b v) (hv : 0 < v) : fdiv a b = fround (u / v) := by
  rw [fdiv_of_finite ha.finite hb.finite (hb.value ▸ hv.ne'), ha.sign, hb.sign, ha.value, hb.value]
  exact roundSigned_of_nonneg (div_nonneg ha.nonneg hv.le)

/-- An exact product. -/
theorem Worth.fmul (ha : Worth a u) (hb : Worth b v) (h : Representable (u * v)) : Worth (fmul a b) (u * v) :=
  ha.fmul_eq hb ▸ h.worth (mul_nonneg ha.nonneg hb.nonneg)

/-- An exact quotient. -/
theorem Worth.fdiv (ha : Worth a u) (hb : Worth b v) (hv : 0 < v) (h : Representable (u / v)) :
    Worth (fdiv a b) (u / v) := ha.fdiv_eq hb hv ▸ h.worth (div_nonneg ha.nonneg hv.le)

/-- A sum with an operand of sign bit 0 is the exact sum rounded once (R153). -/
theorem Worth.fadd_eq_of_finite (ha : Worth a u) (hb : f64Finite b = true) : fadd a b = fround (u + f64ToRat b) := by
  rw [Machine.fadd, ha.finite, hb, Bool.and_self, if_pos rfl, ha.value, ha.sign, Bool.false_and]
  split
  · rename_i hsum
    rw [hsum, fround_zero]
    decide
  · rfl

/-- An exact sum. -/
theorem Worth.fadd (ha : Worth a u) (hb : Worth b v) (h : Representable (u + v)) : Worth (fadd a b) (u + v) := by
  rw [ha.fadd_eq_of_finite hb.finite, hb.value]
  exact h.worth (add_nonneg ha.nonneg hb.nonneg)

/-- Negation keeps the 63 bits of the magnitude. -/
theorem fneg_toNat_mod (a : F64) : (fneg a).toNat % 2 ^ 63 = a.toNat % 2 ^ 63 := by
  have hlow : (fneg a).setWidth 63 = a.setWidth 63 := by
    rw [fneg, BitVec.setWidth_xor, show (1#64 <<< 63).setWidth 63 = 0#63 by decide, BitVec.xor_zero]
  simpa only [BitVec.toNat_setWidth] using congrArg BitVec.toNat hlow

theorem f64Sign_fneg (a : F64) : f64Sign (fneg a) = !f64Sign a := by
  rw [f64Sign, f64Sign, fneg, BitVec.msb_xor, show (1#64 <<< 63).msb = true by decide, Bool.xor_true]

theorem f64Magnitude_fneg (a : F64) : f64Magnitude (fneg a) = f64Magnitude a := by
  rw [f64Magnitude_eq, f64Magnitude_eq, fneg_toNat_mod]

theorem f64Finite_fneg (a : F64) : f64Finite (fneg a) = f64Finite a := by
  rw [Bool.eq_iff_iff, f64Finite_iff, f64Finite_iff, fneg_toNat_mod]

theorem f64ToRat_fneg (a : F64) : f64ToRat (fneg a) = -f64ToRat a := by
  rw [f64ToRat, f64ToRat, f64Sign_fneg, f64Magnitude_fneg]
  cases f64Sign a <;> simp

theorem Worth.fsub_eq (ha : Worth a u) (hb : Worth b v) : fsub a b = fround (u - v) := by
  rw [fsub, ha.fadd_eq_of_finite (by rw [f64Finite_fneg, hb.finite]), f64ToRat_fneg, hb.value, sub_eq_add_neg]

/-! ### Comparisons (R157) -/

theorem fle_iff (ha : f64Finite a = true) (hb : f64Finite b = true) : fle a b = true ↔ f64ToRat a ≤ f64ToRat b := by
  simp [fle, ha, hb]

theorem fgt_iff (ha : f64Finite a = true) (hb : f64Finite b = true) : fgt a b = true ↔ f64ToRat b < f64ToRat a := by
  simp [fgt, ha, hb]

theorem Worth.fle_iff (ha : Worth a u) (hb : Worth b v) : fle a b = true ↔ u ≤ v := by
  rw [Machine.fle_iff ha.finite hb.finite, ha.value, hb.value]

theorem Worth.fgt_iff (ha : Worth a u) (hb : Worth b v) : fgt a b = true ↔ v < u := by
  rw [Machine.fgt_iff ha.finite hb.finite, ha.value, hb.value]

/-! ### Patterns -/

theorem f64FinitePositive_iff (a : F64) : f64FinitePositive a = true ↔ 0 < a.toNat ∧ a.toNat < f64Infinity :=
  decide_eq_true_iff

/-- The value of a pattern with sign bit 0. -/
theorem worth_of_toNat_eq {m : Nat} (h : a.toNat = m) (hm : m < f64Infinity) : Worth a (patternValue m) := by
  subst m
  have h63 : a.toNat % 2 ^ 63 = a.toNat := by rw [f64Infinity] at hm; omega
  have hs : f64Sign a = false := by rw [f64Sign_eq, decide_eq_false_iff_not]; rw [f64Infinity] at hm; omega
  refine ⟨(f64Finite_iff a).2 (h63.symm ▸ hm), hs, ?_⟩
  rw [f64ToRat, hs, if_neg Bool.false_ne_true, f64Magnitude_eq, h63]

theorem Worth.toNat_lt (h : Worth a v) : a.toNat < f64Infinity := by
  have hs := h.sign
  have hf := (f64Finite_iff a).1 h.finite
  rw [f64Sign_eq, decide_eq_false_iff_not] at hs
  omega

theorem Worth.patternValue_eq (h : Worth a v) : patternValue a.toNat = v :=
  (worth_of_toNat_eq rfl h.toNat_lt).value.symm.trans h.value

/-- What is worth less than the pattern `m + 1` is worth at most the pattern `m`. -/
theorem Worth.le_patternValue (ha : Worth a u) (hb : Worth b v) {m : Nat} (hm : b.toNat = m + 1) (h : u < v) :
    u ≤ patternValue m := by
  rw [← ha.patternValue_eq, ← hb.patternValue_eq, patternValue_strictMono.lt_iff_lt, hm] at h
  rw [← ha.patternValue_eq]
  exact patternValue_strictMono.monotone (Nat.le_of_lt_succ h)

/-- A finite positive pattern is one with sign bit 0 and a positive value. -/
theorem f64FinitePositive_iff_worth : f64FinitePositive a = true ↔ Worth a (f64ToRat a) ∧ 0 < f64ToRat a := by
  rw [f64FinitePositive_iff]
  constructor
  · rintro ⟨h0, h1⟩
    have hw := worth_of_toNat_eq rfl h1
    refine ⟨⟨hw.finite, hw.sign, rfl⟩, ?_⟩
    rw [hw.value, ← patternValue_zero]
    exact patternValue_strictMono h0
  · rintro ⟨hw, hpos⟩
    refine ⟨?_, hw.toNat_lt⟩
    rwa [← patternValue_strictMono.lt_iff_lt, patternValue_zero, hw.patternValue_eq]

/-- A value of at least `2^-1022` is normal (R150). -/
theorem Worth.exponent_ne_zero (h : Worth a v) (hv : (2 : ℚ) ^ (-1022 : Int) ≤ v) : f64Exponent a ≠ 0 := by
  intro h0
  have hlt := h.toNat_lt
  rw [f64Exponent_eq] at h0
  rw [f64Infinity] at hlt
  have hsmall : patternValue a.toNat < patternValue (0 * 2 ^ 52 + 2 ^ 52) :=
    patternValue_strictMono (by omega)
  rw [h.patternValue_eq, patternValue_two_pow] at hsmall
  exact hsmall.not_ge hv

/-- Adding to the exponent field of a normal pattern scales its value by a power of two. -/
theorem Worth.add_exponent (h : Worth a v) {j : Nat} (he : 2 ^ 52 ≤ a.toNat)
    (hj : a.toNat + j * 2 ^ 52 < f64Infinity) : Worth (a + BitVec.ofNat 64 j <<< 52) (v * 2 ^ j) := by
  have hnat : (a + BitVec.ofNat 64 j <<< 52).toNat = a.toNat + j * 2 ^ 52 := by
    rw [f64Infinity] at hj
    rw [BitVec.toNat_add, BitVec.toNat_shiftLeft, BitVec.toNat_ofNat, Nat.shiftLeft_eq]
    omega
  refine (worth_of_toNat_eq hnat hj).congr ?_
  obtain ⟨e, sig, hm, hsig, hcases⟩ := exists_significand a.toNat
  have hsig52 : 2 ^ 52 ≤ sig := by omega
  have hsum : a.toNat + j * 2 ^ 52 = (e + j) * 2 ^ 52 + sig := by rw [hm]; ring
  have hexp : ((e + j : Nat) : Int) - 1074 = (e : Int) - 1074 + j := by push_cast; ring
  rw [hsum, ← h.patternValue_eq, hm, patternValue_of_significand hsig.le (.inr hsig52),
    patternValue_of_significand hsig.le (.inr hsig52), hexp, zpow_add₀ two_ne_zero, zpow_natCast, mul_assoc]

end Sys2Proof.Machine
end

/-! ## Family 42_estimate: bounds on the logarithm unit (R159, R160) -/

section
namespace Sys2Proof.Machine

variable {x : F64} {y : ℚ}

theorem lnUnits_eq (n : Int) : lnUnits n = n / 2 ^ lnScale := by
  rw [lnUnits, Rat.mkRat_eq_div, Nat.cast_pow, Nat.cast_ofNat]

/-- The exponent of a finite positive pattern. -/
theorem natAbs_lnExponent_le (h : f64FinitePositive x = true) : (lnExponent x).natAbs ≤ 1074 := by
  obtain ⟨h0, h1⟩ := (f64FinitePositive_iff x).1 h
  obtain ⟨hpos, -⟩ := f64ToRat_eq_significand h
  have hfrac : f64Fraction x < 2 ^ 52 := by rw [f64Fraction_eq]; omega
  have hexp : f64Exponent x < 2047 := by rw [f64Exponent_eq]; rw [f64Infinity] at h1; omega
  have hlog : (f64Significand x).log2 < 53 := (Nat.log2_lt hpos.ne').2 (by rw [f64Significand]; split <;> omega)
  rw [lnExponent]
  split
  · omega
  · have : 52 ≤ (f64Significand x).log2 :=
      (Nat.le_log2 hpos.ne').2 (by rw [f64Significand, if_neg ‹_›]; omega)
    omega

/-- The enclosure of the logarithm is narrow: less than `2^18` units wide. -/
theorem lnHigh_lt (h : f64FinitePositive x = true) : lnHigh x < lnLow x + 2 ^ 18 := by
  have hexp := natAbs_lnExponent_le h
  have hwidth (n d : Nat) : (artanhHigh n d : Int) = artanhLow n d + 102 := by
    rw [artanhHigh, artanhLow, lnTerms]
    push_cast
    ring
  rw [lnHigh, lnLow, hwidth (lnNumerator x)]
  split <;> rw [hwidth 1 3, mul_add (lnExponent x)] <;> omega

/-- The two candidates for the logarithm are its enclosure, rounded. -/
theorem LN_cases (h : f64FinitePositive x = true) (hx : x ≠ 0x3FF0000000000000#64) :
    ∃ round n, RoundsToNeighbour round ∧ LN x = roundWith round (lnUnits n) ∧ lnLow x ≤ n ∧ n ≤ lnHigh x := by
  have hle : lnLow x ≤ lnHigh x := by
    obtain ⟨hlow, hhigh⟩ := ln_enclosure h
    exact_mod_cast hlow.trans hhigh
  rw [LN, if_neg hx, if_pos h]
  split
  · obtain ⟨round, hr, heq⟩ := froundUp_eq_roundWith (lnUnits (lnLow x))
    exact ⟨round, _, hr, heq, le_rfl, hle⟩
  · obtain ⟨round, hr, heq⟩ := froundDown_eq_roundWith (lnUnits (lnHigh x))
    exact ⟨round, _, hr, heq, hle, le_rfl⟩

/-- What lies in the enclosure is close to the real logarithm. -/
theorem abs_lnUnits_sub_log_lt (h : f64FinitePositive x = true) {n : Int} (h1 : lnLow x ≤ n) (h2 : n ≤ lnHigh x) :
    |((lnUnits n : ℚ) : ℝ) - Real.log (f64ToRat x : ℝ)| < 1 / 2 ^ 100 := by
  obtain ⟨hlow, hhigh⟩ := ln_enclosure h
  have hwidth : (lnHigh x : ℝ) < lnLow x + 2 ^ 18 := by exact_mod_cast lnHigh_lt h
  have h1 : (lnLow x : ℝ) ≤ n := by exact_mod_cast h1
  have h2 : (n : ℝ) ≤ lnHigh x := by exact_mod_cast h2
  have hscale : (0 : ℝ) < 2 ^ lnScale := by positivity
  have hunit : (2 : ℝ) ^ 18 / 2 ^ lnScale ≤ 1 / 2 ^ 100 := by
    rw [div_le_div_iff₀ hscale (by positivity), ← pow_add, one_mul]
    exact pow_le_pow_right₀ one_le_two (by decide)
  have hdiff : ((lnUnits n : ℚ) : ℝ) - Real.log (f64ToRat x : ℝ) =
      ((n : ℝ) - 2 ^ lnScale * Real.log (f64ToRat x : ℝ)) / 2 ^ lnScale := by
    rw [lnUnits_eq]
    push_cast
    field_simp
  refine lt_of_lt_of_le ?_ hunit
  rw [hdiff, abs_div, abs_of_pos hscale, div_lt_div_iff_of_pos_right hscale, abs_lt]
  constructor <;> linarith

/-- The logarithm unit at 1 (R159). -/
theorem LN_one : LN 0x3FF0000000000000#64 = 0x0000000000000000#64 := if_pos rfl

/-- The logarithm unit is at most a representable value that lies clear above the real logarithm. -/
theorem LN_le (h : f64FinitePositive x = true) (hx : x ≠ 0x3FF0000000000000#64) (hy : Representable y)
    (hlog : Real.log (f64ToRat x : ℝ) + 1 / 2 ^ 100 ≤ y) : f64ToRat (LN x) ≤ y := by
  obtain ⟨round, n, hr, heq, h1, h2⟩ := LN_cases h hx
  have hnear := (abs_lt.1 (abs_lnUnits_sub_log_lt h h1 h2)).2
  rw [heq]
  refine hy.roundWith_le hr ?_
  have : ((lnUnits n : ℚ) : ℝ) ≤ y := by linarith
  exact_mod_cast this

/-- The real logarithm of a finite positive value is small. -/
theorem abs_log_le (h : f64FinitePositive x = true) : |Real.log (f64ToRat x : ℝ)| ≤ 1074 := by
  obtain ⟨hw, hpos⟩ := f64FinitePositive_iff_worth.1 h
  obtain ⟨n, k, -, hk, hval, hlt⟩ := hw.representable
  rw [abs_of_pos hpos] at hval hlt
  have hn : 1 ≤ n := by
    refine Nat.one_le_iff_ne_zero.2 fun h0 => hpos.ne' ?_
    rw [hval, h0, Nat.cast_zero, zero_mul]
  have hlow : (2 : ℚ) ^ (-1074 : Int) ≤ f64ToRat x :=
    calc (2 : ℚ) ^ (-1074 : Int)
      _ ≤ (2 : ℚ) ^ k := zpow_le_zpow_right₀ one_le_two hk
      _ ≤ n * (2 : ℚ) ^ k := le_mul_of_one_le_left (zpow_nonneg zero_le_two k) (by exact_mod_cast hn)
      _ = f64ToRat x := hval.symm
  have h1 := Real.log_le_log (Rat.cast_pos.2 (zpow_pos two_pos _)) (Rat.cast_le.2 hlow)
  have h2 := Real.log_le_log (Rat.cast_pos.2 hpos) (Rat.cast_le.2 hlt.le)
  rw [Rat.cast_zpow, Rat.cast_ofNat, Real.log_zpow] at h1
  rw [Rat.cast_pow, Rat.cast_ofNat, Real.log_pow] at h2
  have h2pos := Real.log_pos one_lt_two
  have h2lt := Real.log_two_lt_d9
  push_cast at h1 h2
  rw [abs_le]
  constructor <;> linarith

/-- What lies in the enclosure is small. -/
theorem abs_lnUnits_le (h : f64FinitePositive x = true) {n : Int} (h1 : lnLow x ≤ n) (h2 : n ≤ lnHigh x) :
    |lnUnits n| ≤ 1075 := by
  have hnear := abs_lnUnits_sub_log_lt h h1 h2
  have hlog := abs_log_le h
  have htri := abs_sub_abs_le_abs_sub ((lnUnits n : ℚ) : ℝ) (Real.log (f64ToRat x : ℝ))
  have hsmall : (1 : ℝ) / 2 ^ 100 ≤ 1 := by norm_num
  have hbound : |((lnUnits n : ℚ) : ℝ)| ≤ 1075 := by linarith
  exact_mod_cast hbound

/-- The bound of the logarithm unit is a whole number. -/
theorem representable_1075 : Representable 1075 := .natCast (n := 1075) (by norm_num)

/-- The logarithm unit answers a finite value. -/
theorem f64Finite_LN (h : f64FinitePositive x = true) : f64Finite (LN x) = true := by
  by_cases hx : x = 0x3FF0000000000000#64
  · rw [hx, LN_one]
    exact worth_zero.finite
  obtain ⟨round, n, hr, heq, h1, h2⟩ := LN_cases h hx
  rw [heq]
  exact representable_1075.f64Finite_roundWith hr ((abs_lnUnits_le h h1 h2).trans (le_abs_self _))

/-- The logarithm unit answers a small value. -/
theorem abs_LN_le (h : f64FinitePositive x = true) : |f64ToRat (LN x)| ≤ 1075 := by
  by_cases hx : x = 0x3FF0000000000000#64
  · rw [hx, LN_one, worth_zero.value]
    norm_num
  obtain ⟨round, n, hr, heq, h1, h2⟩ := LN_cases h hx
  have hbound := abs_le.1 (abs_lnUnits_le h h1 h2)
  rw [heq]
  exact abs_le.2 ⟨representable_1075.neg.le_roundWith hr hbound.1, representable_1075.roundWith_le hr hbound.2⟩

/-- Scaling the logarithm unit's answer by a power of two is exact (R118, R120). -/
theorem representable_mul_LN (h : f64FinitePositive x = true) {j : Nat} (hj : j ≤ 1000) :
    Representable (2 ^ j * f64ToRat (LN x)) := by
  rw [mul_comm]
  refine (Representable.of_finite (f64Finite_LN h)).mul_two_pow j (lt_overflow (j := 11 + j) (by omega) ?_)
  rw [pow_add]
  gcongr
  exact (abs_LN_le h).trans (by norm_num)

/-- The exponent of an operand of at least 1 is not negative. -/
theorem lnExponent_nonneg (h : f64FinitePositive x = true) (h1 : 1 ≤ f64ToRat x) : 0 ≤ lnExponent x := by
  obtain ⟨-, hval⟩ := f64ToRat_eq_significand h
  by_contra hneg
  refine h1.not_gt ?_
  have hsig : (f64Significand x : ℚ) < 2 ^ ((f64Significand x).log2 + 1) := by exact_mod_cast Nat.lt_log2_self
  calc f64ToRat x
    _ = f64Significand x * (2 : ℚ) ^ (lnExponent x - (f64Significand x).log2) := hval
    _ < 2 ^ ((f64Significand x).log2 + 1) * (2 : ℚ) ^ (lnExponent x - (f64Significand x).log2) :=
      mul_lt_mul_of_pos_right hsig (zpow_pos two_pos _)
    _ = (2 : ℚ) ^ (lnExponent x + 1) := by
      rw [← zpow_natCast, ← zpow_add₀ two_ne_zero]
      congr 1
      push_cast
      ring
    _ ≤ 1 := zpow_le_one_of_nonpos₀ one_le_two (by omega)

/-- At operands of at least 1 the logarithm unit answers a value with sign bit 0. -/
theorem worth_LN (h : f64FinitePositive x = true) (h1 : 1 ≤ f64ToRat x) : Worth (LN x) (f64ToRat (LN x)) := by
  refine ⟨f64Finite_LN h, ?_, rfl⟩
  by_cases hx : x = 0x3FF0000000000000#64
  · rw [hx, LN_one]
    exact worth_zero.sign
  obtain ⟨round, n, -, heq, hlow, -⟩ := LN_cases h hx
  have hlow0 : 0 ≤ lnLow x := by
    have := lnExponent_nonneg h h1
    rw [lnLow]
    positivity
  have hn : (0 : ℚ) ≤ n := by exact_mod_cast hlow0.trans hlow
  rw [heq, f64Sign_roundWith, decide_eq_false_iff_not, not_lt, lnUnits_eq]
  positivity

/-- A binary64 value below 1 is at most `1 - 2^-53`. -/
theorem le_of_f64ToRat_lt_one (h : f64FinitePositive x = true) (h1 : f64ToRat x < 1) :
    f64ToRat x ≤ 1 - 1 / 2 ^ 53 := by
  have hlast : patternValue 0x3FEFFFFFFFFFFFFF = 1 - 1 / 2 ^ 53 := by decide +kernel
  rw [← hlast]
  exact (f64FinitePositive_iff_worth.1 h).1.le_patternValue worth_one rfl h1

/-- Below 1 the logarithm unit is clearly negative (R160 (b)). -/
theorem LN_le_of_lt_one (h : f64FinitePositive x = true) (h1 : f64ToRat x < 1) :
    f64ToRat (LN x) ≤ -(2 : ℚ) ^ (-54 : Int) := by
  have hx : x ≠ 0x3FF0000000000000#64 := fun he => h1.ne (he ▸ worth_one.value)
  refine LN_le h hx (Representable.two_zpow (by norm_num) (by norm_num)).neg ?_
  have hpos : (0 : ℝ) < f64ToRat x := by exact_mod_cast (f64FinitePositive_iff_worth.1 h).2
  have hle := (Rat.cast_le (K := ℝ)).2 (le_of_f64ToRat_lt_one h h1)
  have hlog := Real.log_le_sub_one_of_pos hpos
  have hnum : (((-(2 : ℚ) ^ (-54 : Int) : ℚ)) : ℝ) = -1 / 2 ^ 54 := by norm_num
  rw [hnum]
  norm_num at hle ⊢
  linarith

end Sys2Proof.Machine
end

/-! ## Family 42_estimate: the scan of the registers (R112 to R114) -/

section
namespace Sys2Proof.Machine

variable {p : Nat} {M N : List Host.Cell} {s : State}

/-- What EST reads of a constructed engine: a legal precision (R21), and no register of the index domain above
`MAXRANK` (R25). -/
structure ScanBounded (p : Nat) (M : List Host.Cell) : Prop where
  legal : legalPrecision p
  rank_le : ∀ i < 2 ^ p, (Memory.read M i).toNat ≤ maxRank p

theorem State.Inv.scanBounded (h : s.Inv) (hC : s.CON = true) : ScanBounded s.precision s.M := by
  have hranks := h.ranksBounded hC
  obtain ⟨-, -, hcon⟩ := h
  exact ⟨(hcon hC).1, fun i _ => Memory.read_le_maxRank hranks i⟩

/-- The term of one register in `ZACC` (R113). -/
def zTerm (p : Nat) (M : List Host.Cell) (i : Nat) : Nat := 2 ^ (maxRank p - (Memory.read M i).toNat)

theorem zAcc_eq_sum (p : Nat) (M : List Host.Cell) : zAcc p M = ∑ i ∈ Finset.range (2 ^ p), zTerm p M i := rfl

theorem zeroCount_eq_card (p : Nat) (M : List Host.Cell) :
    zeroCount p M = ((Finset.range (2 ^ p)).filter fun i => Memory.read M i = 0#8).card := by
  rw [zeroCount, countP_range, Finset.card_filter]
  simp only [decide_eq_true_eq]

theorem zeroCount_le (p : Nat) (M : List Host.Cell) : zeroCount p M ≤ 2 ^ p := by
  rw [zeroCount_eq_card]
  exact (Finset.card_filter_le _ _).trans_eq (Finset.card_range _)

theorem zAcc_congr (h : ∀ i < 2 ^ p, Memory.read M i = Memory.read N i) : zAcc p M = zAcc p N := by
  rw [zAcc_eq_sum, zAcc_eq_sum]
  exact Finset.sum_congr rfl fun i hi => by rw [zTerm, zTerm, h i (Finset.mem_range.1 hi)]

theorem zeroCount_congr (h : ∀ i < 2 ^ p, Memory.read M i = Memory.read N i) : zeroCount p M = zeroCount p N := by
  rw [zeroCount_eq_card, zeroCount_eq_card]
  exact congrArg _ (Finset.filter_congr fun i hi => by rw [h i (Finset.mem_range.1 hi)])

/-- The estimate depends on the registers of the index domain alone (R123). -/
theorem estimate_congr (ln : F64 → F64) (h : ∀ i < 2 ^ p, Memory.read M i = Memory.read N i) :
    estimate ln p M = estimate ln p N := by
  rw [estimate, estimate, rawEstimate, rawEstimate, harmonicSum, harmonicSum, zAcc_congr h, zeroCount_congr h]

theorem one_le_zTerm (p : Nat) (M : List Host.Cell) (i : Nat) : 1 ≤ zTerm p M i := Nat.one_le_two_pow

theorem zTerm_le (p : Nat) (M : List Host.Cell) (i : Nat) : zTerm p M i ≤ 2 ^ maxRank p :=
  Nat.pow_le_pow_right two_pos (Nat.sub_le _ _)

theorem sum_range_one (p : Nat) : ∑ _i ∈ Finset.range (2 ^ p), 1 = 2 ^ p := by simp

/-- The sum over all registers of the greatest term, that of a register at 0. -/
theorem sum_range_maxRank (hp : legalPrecision p) : ∑ _i ∈ Finset.range (2 ^ p), 2 ^ maxRank p = 2 ^ 33 := by
  obtain ⟨-, hp16⟩ := hp
  have hadd : p + maxRank p = 33 := by rw [maxRank]; omega
  rw [Finset.sum_const, Finset.card_range, smul_eq_mul, ← pow_add, hadd]

theorem two_pow_le_zAcc (p : Nat) (M : List Host.Cell) : 2 ^ p ≤ zAcc p M :=
  (sum_range_one p).symm.trans_le (Finset.sum_le_sum fun i _ => one_le_zTerm p M i)

theorem zAcc_le (hp : legalPrecision p) (M : List Host.Cell) : zAcc p M ≤ 2 ^ 33 :=
  (Finset.sum_le_sum fun i _ => zTerm_le p M i).trans_eq (sum_range_maxRank hp)

/-- The least `ZACC` is that of registers that are all at `MAXRANK` (R114). -/
theorem zAcc_eq_two_pow_iff (h : ScanBounded p M) :
    zAcc p M = 2 ^ p ↔ ∀ i < 2 ^ p, (Memory.read M i).toNat = maxRank p := by
  have hsum := Finset.sum_eq_sum_iff_of_le fun i (_ : i ∈ Finset.range (2 ^ p)) => one_le_zTerm p M i
  rw [sum_range_one, ← zAcc_eq_sum, eq_comm] at hsum
  refine hsum.trans (forall_congr' fun i => ?_)
  rw [Finset.mem_range]
  refine imp_congr_right fun hi => ?_
  have hle := h.rank_le i hi
  rw [zTerm, eq_comm, Nat.pow_eq_one]
  omega

/-- The greatest `ZACC` is that of registers that are all 0 (R114). -/
theorem zAcc_eq_max_iff (hp : legalPrecision p) : zAcc p M = 2 ^ 33 ↔ ∀ i < 2 ^ p, Memory.read M i = 0#8 := by
  rw [zAcc_eq_sum, ← sum_range_maxRank hp, Finset.sum_eq_sum_iff_of_le fun i _ => zTerm_le p M i]
  refine forall_congr' fun i => ?_
  rw [Finset.mem_range]
  refine imp_congr_right fun hi => ?_
  obtain ⟨-, hp16⟩ := hp
  have hrank : 0 < maxRank p := by rw [maxRank]; omega
  rw [zTerm, Nat.pow_right_injective le_rfl |>.eq_iff, ← BitVec.toNat_inj, BitVec.toNat_ofNat]
  omega

/-! ### The harmonic sum in binary64 (R113) -/

/-- A whole number of units `2^(P - 33)`, up to the greatest `ZACC`, is representable. -/
theorem representable_units (hp : legalPrecision p) {n : Nat} (hn : n ≤ 2 ^ 33) :
    Representable (n * (2 : ℚ) ^ ((p : Int) - 33)) := by
  obtain ⟨-, hp16⟩ := hp
  refine .of_dyadic (hn.trans (by norm_num)) (by omega) (lt_overflow (j := 33) (by decide) ?_)
  calc (n : ℚ) * (2 : ℚ) ^ ((p : Int) - 33)
    _ ≤ n := mul_le_of_le_one_right n.cast_nonneg (zpow_le_one_of_nonpos₀ one_le_two (by omega))
    _ ≤ 2 ^ 33 := by exact_mod_cast hn

/-- `Z` is exactly `ZACC * 2^(P - 33)` (R113). -/
theorem worth_harmonicSum (hp : legalPrecision p) (M : List Host.Cell) :
    Worth (harmonicSum p M) (zAcc p M * (2 : ℚ) ^ ((p : Int) - 33)) := by
  have hle := zAcc_le hp M
  have hunits := representable_units hp hle
  obtain ⟨-, hp16⟩ := hp
  exact (worth_i2f (hle.trans (by norm_num))).fmul (worth_pow2 (by omega) (by omega)) hunits

/-- The term of a register in units of `2^(P - 33)` is `2^(-M[i])`. -/
theorem zTerm_mul_unit (h : ScanBounded p M) {i : Nat} (hi : i < 2 ^ p) :
    zTerm p M i * (2 : ℚ) ^ ((p : Int) - 33) = (2 : ℚ) ^ (-((Memory.read M i).toNat : Int)) := by
  have hle := h.rank_le i hi
  obtain ⟨-, hp16⟩ := h.legal
  rw [zTerm, Nat.cast_pow, Nat.cast_ofNat, ← zpow_natCast, ← zpow_add₀ two_ne_zero]
  congr 1
  rw [maxRank] at hle ⊢
  omega

theorem worth_pow2_neg_rank (h : ScanBounded p M) {i : Nat} (hi : i < 2 ^ p) :
    Worth (pow2 (-((Memory.read M i).toNat : Int))) (zTerm p M i * (2 : ℚ) ^ ((p : Int) - 33)) := by
  have hlt := (Memory.read M i).isLt
  rw [zTerm_mul_unit h hi]
  exact worth_pow2 (by omega) (by omega)

/-- Accumulating in binary64 is exact as long as the sum stays within the greatest `ZACC`. -/
theorem worth_foldl_fadd (h : ScanBounded p M) (order : List Nat) (horder : ∀ i ∈ order, i < 2 ^ p) {z : F64} {n : Nat}
    (hz : Worth z (n * (2 : ℚ) ^ ((p : Int) - 33))) (hsum : n + (order.map (zTerm p M)).sum ≤ 2 ^ 33) :
    Worth (order.foldl (fun z i => fadd z (pow2 (-((Memory.read M i).toNat : Int)))) z)
      ((n + (order.map (zTerm p M)).sum : Nat) * (2 : ℚ) ^ ((p : Int) - 33)) := by
  induction order generalizing z n with
  | nil => exact hz
  | cons i order ih =>
    rw [List.map_cons, List.sum_cons, ← Nat.add_assoc] at hsum ⊢
    have hadd : (n : ℚ) * (2 : ℚ) ^ ((p : Int) - 33) + zTerm p M i * (2 : ℚ) ^ ((p : Int) - 33) =
        (n + zTerm p M i : Nat) * (2 : ℚ) ^ ((p : Int) - 33) := by
      rw [Nat.cast_add, add_mul]
    have hunits := representable_units h.legal (n := n + zTerm p M i) (by omega)
    have hstep := hz.fadd (worth_pow2_neg_rank h (horder i (by simp))) (hadd ▸ hunits)
    exact ih (fun j hj => horder j (by simp [hj])) (hstep.congr hadd) hsum

/-- Settles O42: both `harmonicSum` and every accumulation are exact, and the sum has no order. -/
theorem harmonicSumIsExactInAnyOrder : Obligations.HarmonicSumIsExactInAnyOrder := by
  intro s hinv hC
  have h := hinv.scanBounded hC
  have hZ := worth_harmonicSum h.legal s.M
  refine ⟨two_pow_le_zAcc _ _, zAcc_le h.legal _, zAcc_eq_sum _ _, ?_, fun order hperm => ?_⟩
  · rw [hZ.value, zAcc_eq_sum, Nat.cast_sum, Finset.sum_mul]
    exact Finset.sum_congr rfl fun i hi => zTerm_mul_unit h (Finset.mem_range.1 hi)
  · have hsum : 0 + (order.map (zTerm s.precision s.M)).sum = zAcc s.precision s.M := by
      rw [Nat.zero_add]
      exact (hperm.map _).sum_eq
    refine (worth_foldl_fadd h order (fun i hi => List.mem_range.1 (hperm.mem_iff.1 hi)) (n := 0) ?_ ?_).unique
      (hsum ▸ hZ)
    · exact worth_zero.congr (by simp)
    · exact hsum ▸ zAcc_le h.legal _

theorem mul_unit_inj {m n : Nat} :
    (m : ℚ) * (2 : ℚ) ^ ((p : Int) - 33) = n * (2 : ℚ) ^ ((p : Int) - 33) ↔ m = n := by
  rw [mul_left_inj' (zpow_ne_zero _ two_ne_zero), Nat.cast_inj]

/-- The least and the greatest value of `Z`, in units of `2^(P - 33)`. -/
theorem least_units (p : Nat) : (2 : ℚ) ^ (2 * (p : Int) - 33) = (2 ^ p : Nat) * (2 : ℚ) ^ ((p : Int) - 33) := by
  rw [Nat.cast_pow, Nat.cast_ofNat, ← zpow_natCast, ← zpow_add₀ two_ne_zero]
  congr 1
  ring

theorem greatest_units (p : Nat) : (2 : ℚ) ^ p = (2 ^ 33 : Nat) * (2 : ℚ) ^ ((p : Int) - 33) := by
  rw [Nat.cast_pow, Nat.cast_ofNat, ← zpow_natCast, ← zpow_natCast, ← zpow_add₀ two_ne_zero]
  congr 1
  push_cast
  ring

theorem harmonicSum_ge (hp : legalPrecision p) (M : List Host.Cell) :
    (2 : ℚ) ^ (2 * (p : Int) - 33) ≤ f64ToRat (harmonicSum p M) := by
  rw [(worth_harmonicSum hp M).value, least_units]
  gcongr
  exact two_pow_le_zAcc p M

theorem harmonicSum_le (hp : legalPrecision p) (M : List Host.Cell) : f64ToRat (harmonicSum p M) ≤ 2 ^ p := by
  rw [(worth_harmonicSum hp M).value, greatest_units]
  gcongr
  exact zAcc_le hp M

theorem harmonicSum_pos (hp : legalPrecision p) (M : List Host.Cell) : 0 < f64ToRat (harmonicSum p M) :=
  (zpow_pos two_pos _).trans_le (harmonicSum_ge hp M)

/-- Settles O43: the bounds of `ZACC` and where it reaches them, in units of `2^(P - 33)`. -/
theorem harmonicSumBounds : Obligations.HarmonicSumBounds := by
  intro s hinv hC
  have h := hinv.scanBounded hC
  have hZ := worth_harmonicSum h.legal s.M
  have hge := harmonicSum_ge h.legal s.M
  have hnormal : (2 : ℚ) ^ (-1022 : Int) ≤ (2 : ℚ) ^ (2 * (s.precision : Int) - 33) :=
    zpow_le_zpow_right₀ one_le_two (by omega)
  refine ⟨hZ.finite, hZ.exponent_ne_zero (hnormal.trans (hZ.value ▸ hge)), hge, harmonicSum_le h.legal s.M, ?_, ?_⟩
  · rw [hZ.value, least_units, mul_unit_inj]
    exact (zAcc_eq_two_pow_iff h).symm
  · rw [hZ.value, greatest_units, mul_unit_inj]
    exact (zAcc_eq_max_iff h.legal).symm

end Sys2Proof.Machine
end

/-! ## Family 42_estimate: the raw estimate (R115 to R117, R122) -/

section
namespace Sys2Proof.Machine

variable {p : Nat} {M : List Host.Cell}

/-- Settles O44: each constant evaluates to its pattern, and each decimal rounds to it. -/
theorem biasConstantTable : Obligations.BiasConstantTable := by
  unfold Obligations.BiasConstantTable
  decide +kernel

/-- The exact value of the large-range threshold (R122). -/
theorem tLarge_value : f64ToRat tLarge = 4803839602528529 / 33554432 := by decide +kernel

theorem worth_tLarge : Worth tLarge (f64ToRat tLarge) := ⟨by decide +kernel, by decide +kernel, rfl⟩

/-- Settles O48: the pattern evaluates, and the rest is arithmetic on its value. -/
theorem largeRangeThreshold : Obligations.LargeRangeThreshold := by
  have hfround : tLarge = fround (4294967296 / 30) := by decide +kernel
  have hpattern : tLarge = 0x41A1111111111111#64 := by decide +kernel
  exact ⟨rfl, hfround, hpattern, tLarge_value, by rw [tLarge_value]; norm_num⟩

/-! ### The bias constant -/

/-- The bias constants lie between those of `P = 4` and of `P = 16` (R116). -/
theorem alpha_toNat_mem (hp : legalPrecision p) :
    0x3FE589374BC6A7F0 ≤ (alpha p).toNat ∧ (alpha p).toNat ≤ 0x3FE714CAD53D1AD7 := by
  have hall : ∀ p < 17, 4 ≤ p →
      0x3FE589374BC6A7F0 ≤ (alpha p).toNat ∧ (alpha p).toNat ≤ 0x3FE714CAD53D1AD7 := by decide +kernel
  obtain ⟨h4, h16⟩ := hp
  exact hall p (by omega) h4

/-- The bias constants increase with `P` (R116). -/
theorem alpha_toNat_lt {p' : Nat} (hp : legalPrecision p) (hp' : legalPrecision p') (h : p < p') :
    (alpha p).toNat < (alpha p').toNat := by
  have hall : ∀ p' < 17, ∀ p < p', 4 ≤ p → (alpha p).toNat < (alpha p').toNat := by decide +kernel
  obtain ⟨h4, -⟩ := hp
  obtain ⟨-, h16⟩ := hp'
  exact hall p' (by omega) p h h4

theorem worth_alpha (hp : legalPrecision p) : Worth (alpha p) (f64ToRat (alpha p)) := by
  obtain ⟨-, hle⟩ := alpha_toNat_mem hp
  have hw := worth_of_toNat_eq (a := alpha p) rfl (hle.trans_lt (by decide))
  exact hw.congr hw.value.symm

theorem alpha_lt {p' : Nat} (hp : legalPrecision p) (hp' : legalPrecision p') (h : p < p') :
    f64ToRat (alpha p) < f64ToRat (alpha p') := by
  rw [← (worth_alpha hp).patternValue_eq, ← (worth_alpha hp').patternValue_eq]
  exact patternValue_strictMono (alpha_toNat_lt hp hp' h)

theorem two_thirds_lt_alpha (hp : legalPrecision p) : 2 / 3 < f64ToRat (alpha p) := by
  have hleast : 2 / 3 < patternValue 0x3FE589374BC6A7F0 := by decide +kernel
  rw [← (worth_alpha hp).patternValue_eq]
  exact hleast.trans_le (patternValue_strictMono.monotone (alpha_toNat_mem hp).1)

theorem alpha_lt_three_quarters (hp : legalPrecision p) : f64ToRat (alpha p) < 3 / 4 := by
  have hgreatest : patternValue 0x3FE714CAD53D1AD7 < 3 / 4 := by decide +kernel
  rw [← (worth_alpha hp).patternValue_eq]
  exact (patternValue_strictMono.monotone (alpha_toNat_mem hp).2).trans_lt hgreatest

/-- Adding to the exponent field of a bias constant scales it by a power of two. -/
theorem worth_alpha_add_exponent (hp : legalPrecision p) {j : Nat} (hj : j ≤ 33) :
    Worth (alpha p + BitVec.ofNat 64 j <<< 52) (f64ToRat (alpha p) * 2 ^ j) := by
  obtain ⟨hge, hle⟩ := alpha_toNat_mem hp
  exact (worth_alpha hp).add_exponent (by omega) (by rw [f64Infinity]; omega)

theorem representable_alpha_mul (hp : legalPrecision p) {j : Nat} (hj : j ≤ 33) :
    Representable (f64ToRat (alpha p) * 2 ^ j) := (worth_alpha_add_exponent hp hj).representable

/-! ### The raw estimate -/

/-- `2^P` converts exactly (R156). -/
theorem worth_registerCountF (hp : legalPrecision p) : Worth (registerCountF p) (2 ^ p) := by
  obtain ⟨-, h16⟩ := hp
  refine (worth_i2f (Nat.pow_le_pow_right two_pos (by omega : p ≤ 53))).congr ?_
  rw [Nat.cast_pow, Nat.cast_ofNat]

/-- One multiplication of the bias constant by `2^P` is exact. -/
theorem worth_alpha_mul_registerCountF (hp : legalPrecision p) :
    Worth (fmul (alpha p) (registerCountF p)) (f64ToRat (alpha p) * 2 ^ p) :=
  (worth_alpha hp).fmul (worth_registerCountF hp) (representable_alpha_mul hp (by omega))

/-- The numerator of the raw estimate is exact (R117). -/
theorem worth_numerator (hp : legalPrecision p) :
    Worth (fmul (fmul (alpha p) (registerCountF p)) (registerCountF p)) (f64ToRat (alpha p) * 2 ^ (2 * p)) := by
  have hsq : f64ToRat (alpha p) * 2 ^ p * 2 ^ p = f64ToRat (alpha p) * 2 ^ (2 * p) := by
    rw [mul_assoc, ← pow_add, two_mul]
  have hrep := representable_alpha_mul hp (j := 2 * p) (by omega)
  exact ((worth_alpha_mul_registerCountF hp).fmul (worth_registerCountF hp) (hsq ▸ hrep)).congr hsq

/-- The raw estimate rounds once, at the division (R117). -/
theorem rawEstimate_eq (hp : legalPrecision p) (M : List Host.Cell) :
    rawEstimate p M = fround (f64ToRat (alpha p) * 2 ^ (2 * p) / f64ToRat (harmonicSum p M)) := by
  have hZ := worth_harmonicSum hp M
  exact (worth_numerator hp).fdiv_eq (hZ.congr hZ.value.symm) (harmonicSum_pos hp M)

/-- The exact quotient lies between `alpha * 2^P` and `alpha * 2^33`. -/
theorem quotient_bounds (hp : legalPrecision p) (M : List Host.Cell) :
    f64ToRat (alpha p) * 2 ^ p ≤ f64ToRat (alpha p) * 2 ^ (2 * p) / f64ToRat (harmonicSum p M) ∧
      f64ToRat (alpha p) * 2 ^ (2 * p) / f64ToRat (harmonicSum p M) ≤ f64ToRat (alpha p) * 2 ^ 33 := by
  have hpos := harmonicSum_pos hp M
  have halpha := (worth_alpha hp).nonneg
  rw [le_div_iff₀ hpos, div_le_iff₀ hpos]
  constructor
  · calc f64ToRat (alpha p) * 2 ^ p * f64ToRat (harmonicSum p M)
      _ ≤ f64ToRat (alpha p) * 2 ^ p * 2 ^ p := by
        gcongr
        exact harmonicSum_le hp M
      _ = f64ToRat (alpha p) * 2 ^ (2 * p) := by rw [mul_assoc, ← pow_add, two_mul]
  · calc f64ToRat (alpha p) * 2 ^ (2 * p)
      _ = f64ToRat (alpha p) * 2 ^ 33 * (2 : ℚ) ^ (2 * (p : Int) - 33) := by
        rw [mul_assoc, ← zpow_natCast, ← zpow_natCast, ← zpow_add₀ two_ne_zero]
        congr 2
        push_cast
        ring
      _ ≤ f64ToRat (alpha p) * 2 ^ 33 * f64ToRat (harmonicSum p M) := by
        gcongr
        exact harmonicSum_ge hp M

theorem rawEstimate_ge (hp : legalPrecision p) (M : List Host.Cell) :
    f64ToRat (alpha p) * 2 ^ p ≤ f64ToRat (rawEstimate p M) := by
  rw [rawEstimate_eq hp]
  exact (representable_alpha_mul hp (by omega)).le_fround (quotient_bounds hp M).1

theorem rawEstimate_le (hp : legalPrecision p) (M : List Host.Cell) :
    f64ToRat (rawEstimate p M) ≤ f64ToRat (alpha p) * 2 ^ 33 := by
  rw [rawEstimate_eq hp]
  exact (representable_alpha_mul hp le_rfl).fround_le (quotient_bounds hp M).2

/-- The raw estimate is more than 1. -/
theorem one_lt_rawEstimate (hp : legalPrecision p) (M : List Host.Cell) : 1 < f64ToRat (rawEstimate p M) := by
  have halpha := two_thirds_lt_alpha hp
  have hpow : (2 : ℚ) ^ 4 ≤ 2 ^ p := pow_le_pow_right₀ one_le_two hp.1
  calc (1 : ℚ)
    _ < 2 / 3 * 2 ^ 4 := by norm_num
    _ ≤ f64ToRat (alpha p) * 2 ^ p := by gcongr
    _ ≤ f64ToRat (rawEstimate p M) := rawEstimate_ge hp M

theorem worth_rawEstimate (hp : legalPrecision p) (M : List Host.Cell) :
    Worth (rawEstimate p M) (f64ToRat (rawEstimate p M)) := by
  obtain ⟨hge, hle⟩ := quotient_bounds hp M
  have halpha := (worth_alpha hp).nonneg
  rw [rawEstimate_eq hp]
  exact (representable_alpha_mul hp le_rfl).worth_fround (le_trans (by positivity) hge) hle

/-- Settles O45: the one rounding, and the bounds of the quotient, which are representable. -/
theorem rawEstimateRoundsOnce : Obligations.RawEstimateRoundsOnce := by
  intro s hinv hC
  have hp := (hinv.scanBounded hC).legal
  have hnormal : (2 : ℚ) ^ (-1022 : Int) ≤ f64ToRat (rawEstimate s.precision s.M) :=
    (zpow_le_one_of_nonpos₀ one_le_two (by norm_num)).trans (one_lt_rawEstimate hp s.M).le
  have hw := worth_rawEstimate hp s.M
  exact ⟨rawEstimate_eq hp s.M, hw.finite, hw.exponent_ne_zero hnormal, rawEstimate_ge hp s.M, rawEstimate_le hp s.M⟩

/-! ### Registers that are all equal (R125, R127, R128) -/

/-- With every register at `k`, `ZACC` is `2^P` equal terms. -/
theorem zAcc_of_uniform {k : Nat} (hk : k ≤ 33) (hu : ∀ i < 2 ^ p, (Memory.read M i).toNat = k) :
    zAcc p M = 2 ^ p * 2 ^ (maxRank p - k) := by
  have hnat : (BitVec.ofNat 8 k).toNat = k := by rw [BitVec.toNat_ofNat]; omega
  have h := zAcc_uniform (p := p) (M := M) (v := BitVec.ofNat 8 k) fun i hi =>
    BitVec.eq_of_toNat_eq ((hu i hi).trans hnat.symm)
  rwa [hnat] at h

/-- With every register at `k`, `Z` is `2^(P - k)`. -/
theorem harmonicSum_of_uniform (hp : legalPrecision p) {k : Nat} (hk : k ≤ maxRank p)
    (hu : ∀ i < 2 ^ p, (Memory.read M i).toNat = k) : f64ToRat (harmonicSum p M) = (2 : ℚ) ^ ((p : Int) - k) := by
  rw [maxRank] at hk
  rw [(worth_harmonicSum hp M).value, zAcc_of_uniform (by omega) hu, maxRank, ← pow_add, Nat.cast_pow, Nat.cast_ofNat,
    ← zpow_natCast, ← zpow_add₀ two_ne_zero]
  congr 1
  omega

/-- With every register at `k`, the raw estimate is exactly `alpha * 2^(P + k)` (R128). -/
theorem rawEstimate_of_uniform (hp : legalPrecision p) {k : Nat} (hk : k ≤ maxRank p)
    (hu : ∀ i < 2 ^ p, (Memory.read M i).toNat = k) :
    rawEstimate p M = alpha p + BitVec.ofNat 64 (p + k) <<< 52 := by
  have hquotient : f64ToRat (alpha p) * 2 ^ (2 * p) / f64ToRat (harmonicSum p M) =
      f64ToRat (alpha p) * 2 ^ (p + k) := by
    rw [harmonicSum_of_uniform hp hk hu, div_eq_iff (zpow_ne_zero _ two_ne_zero), mul_assoc, ← zpow_natCast,
      ← zpow_natCast, ← zpow_add₀ two_ne_zero]
    congr 2
    push_cast
    ring
  have hj : p + k ≤ 33 := by rw [maxRank] at hk; obtain ⟨-, h16⟩ := hp; omega
  rw [rawEstimate_eq hp, hquotient]
  exact (worth_alpha_add_exponent hp hj).eq_fround.symm

/-- No register is 0 where all are at `k >= 1`. -/
theorem zeroCount_of_uniform {k : Nat} (hk : 1 ≤ k) (hu : ∀ i < 2 ^ p, (Memory.read M i).toNat = k) :
    zeroCount p M = 0 := by
  rw [zeroCount_eq_card, Finset.card_eq_zero, Finset.filter_eq_empty_iff]
  intro i hi h0
  have := hu i (Finset.mem_range.1 hi)
  rw [h0] at this
  simp at this
  omega

end Sys2Proof.Machine
end

/-! ## Family 42_estimate: the small-range correction (R118, R119, R124) -/

section
namespace Sys2Proof.Machine

variable {p zeros : Nat} {e : F64} {M : List Host.Cell} {ln : F64 → F64}

/-- The small-range threshold is exact (R118). -/
theorem worth_smallThreshold (hp : legalPrecision p) : Worth (smallThreshold p) (5 / 2 * 2 ^ p) := by
  have hconst : Worth (fround (mkRat 5 2)) (5 / 2) := ⟨by decide +kernel, by decide +kernel, by decide +kernel⟩
  refine hconst.fmul (worth_registerCountF hp)
    (hconst.representable.mul_two_pow p (lt_overflow (j := 2 + p) (by have := hp.2; omega) ?_))
  rw [pow_add]
  gcongr
  norm_num [abs_of_pos]

/-- Step 3 replaces the raw estimate exactly when it is at most `2.5 m` and a register is 0 (R118, R119). -/
theorem smallRangeApplies_iff (hp : legalPrecision p) (zeros : Nat) (M : List Host.Cell) :
    smallRangeApplies p zeros (rawEstimate p M) = true ↔
      f64ToRat (rawEstimate p M) ≤ 5 / 2 * 2 ^ p ∧ 0 < zeros := by
  rw [smallRangeApplies, Bool.and_eq_true, decide_eq_true_eq,
    (worth_rawEstimate hp M).fle_iff (worth_smallThreshold hp)]

theorem smallRange_of_applies (h : smallRangeApplies p zeros e = true) :
    smallRange ln p zeros e = linearCount ln p zeros := if_pos h

theorem smallRange_of_not_applies (h : ¬smallRangeApplies p zeros e = true) : smallRange ln p zeros e = e := if_neg h

/-! ### The operand of linear counting -/

theorem worth_zeros (hp : legalPrecision p) (hz : zeros ≤ 2 ^ p) : Worth (i2f zeros) zeros := by
  obtain ⟨-, h16⟩ := hp
  exact worth_i2f (hz.trans (Nat.pow_le_pow_right two_pos (by omega)))

/-- The operand of linear counting is the exact quotient rounded once (R118). -/
theorem countingOperand_eq (hp : legalPrecision p) (h0 : 0 < zeros) (hz : zeros ≤ 2 ^ p) :
    fdiv (registerCountF p) (i2f zeros) = fround (2 ^ p / zeros) :=
  (worth_registerCountF hp).fdiv_eq (worth_zeros hp hz) (by exact_mod_cast h0)

theorem one_le_quotient (h0 : 0 < zeros) (hz : zeros ≤ 2 ^ p) : (1 : ℚ) ≤ 2 ^ p / zeros := by
  rw [one_le_div (by exact_mod_cast h0)]
  exact_mod_cast hz

theorem quotient_le (hp : legalPrecision p) (h0 : 0 < zeros) : (2 : ℚ) ^ p / zeros ≤ 65536 := by
  have h1 : (1 : ℚ) ≤ zeros := by exact_mod_cast h0
  calc (2 : ℚ) ^ p / zeros
    _ ≤ 2 ^ p := div_le_self (by positivity) h1
    _ ≤ 2 ^ 16 := pow_le_pow_right₀ one_le_two hp.2
    _ = 65536 := by norm_num

theorem representable_one : Representable 1 := .natCast (n := 1) (by norm_num)

theorem representable_65536 : Representable 65536 := .natCast (n := 65536) (by norm_num)

/-- The operand of linear counting lies in `1 .. 65536` (R162). -/
theorem countingOperand_bounds (hp : legalPrecision p) (h0 : 0 < zeros) (hz : zeros ≤ 2 ^ p) :
    1 ≤ f64ToRat (fdiv (registerCountF p) (i2f zeros)) ∧
      f64ToRat (fdiv (registerCountF p) (i2f zeros)) ≤ 65536 := by
  rw [countingOperand_eq hp h0 hz]
  exact ⟨representable_one.le_fround (one_le_quotient h0 hz), representable_65536.fround_le (quotient_le hp h0)⟩

theorem countingOperand_finitePositive (hp : legalPrecision p) (h0 : 0 < zeros) (hz : zeros ≤ 2 ^ p) :
    f64FinitePositive (fdiv (registerCountF p) (i2f zeros)) = true := by
  have hbounds := countingOperand_bounds hp h0 hz
  have hquotient := one_le_quotient h0 hz
  refine f64FinitePositive_iff_worth.2 ⟨?_, by linarith⟩
  rw [countingOperand_eq hp h0 hz]
  exact representable_65536.worth_fround (by linarith) (quotient_le hp h0)

/-- With a register that is not 0, the operand of linear counting is clearly above 1. -/
theorem lt_countingOperand (hp : legalPrecision p) (h0 : 0 < zeros) (hz : zeros < 2 ^ p) :
    1 + 1 / 2 ^ 17 ≤ f64ToRat (fdiv (registerCountF p) (i2f zeros)) := by
  have hrep : Representable (1 + 1 / 2 ^ 17) := by
    have h := Representable.of_dyadic (n := 131073) (k := -17) (by norm_num) (by norm_num)
      (lt_overflow (j := 1) (by decide) (by norm_num))
    norm_num at h ⊢
    exact h
  rw [countingOperand_eq hp h0 hz.le]
  refine hrep.le_fround ?_
  have hzq : (0 : ℚ) < zeros := by exact_mod_cast h0
  have hsucc : (zeros : ℚ) + 1 ≤ 2 ^ p := by exact_mod_cast hz
  have hle : (2 : ℚ) ^ p ≤ 2 ^ 16 := pow_le_pow_right₀ one_le_two hp.2
  rw [le_div_iff₀ hzq]
  linarith

/-- The operand of linear counting is 1.0 exactly when every register is 0 (R125). -/
theorem countingOperand_eq_one_iff (hp : legalPrecision p) (h0 : 0 < zeros) (hz : zeros ≤ 2 ^ p) :
    fdiv (registerCountF p) (i2f zeros) = 0x3FF0000000000000#64 ↔ zeros = 2 ^ p := by
  constructor
  · intro hone
    refine hz.eq_of_not_lt fun hlt => ?_
    have hclear := lt_countingOperand hp h0 hlt
    rw [hone, worth_one.value] at hclear
    norm_num at hclear
  · rintro rfl
    rw [countingOperand_eq hp h0 hz, Nat.cast_pow, Nat.cast_ofNat, div_self (pow_ne_zero _ two_ne_zero), fround_one]

/-! ### Linear counting -/

/-- The multiplication of linear counting is exact (R118). -/
theorem worth_linearCount (hp : legalPrecision p) (h0 : 0 < zeros) (hz : zeros ≤ 2 ^ p) :
    Worth (linearCount LN p zeros) (2 ^ p * f64ToRat (LN (fdiv (registerCountF p) (i2f zeros)))) := by
  have hq := countingOperand_finitePositive hp h0 hz
  exact (worth_registerCountF hp).fmul (worth_LN hq (countingOperand_bounds hp h0 hz).1)
    (representable_mul_LN hq (hp.2.trans (by norm_num)))

/-- Settles O46: the threshold, the operand and the value of linear counting, and the two cases that keep the raw
estimate. -/
theorem smallRangeCorrection : Obligations.SmallRangeCorrection := by
  intro s hinv hC zeros raw q
  have hp := (hinv.scanBounded hC).legal
  have hz : zeros ≤ 2 ^ s.precision := zeroCount_le _ _
  have hiff := smallRangeApplies_iff hp zeros s.M
  refine ⟨(worth_smallThreshold hp).value, fun hraw h0 => ?_, fun hraw => ?_, fun h0 => ?_⟩
  · have hsmall : smallRange LN s.precision zeros raw = linearCount LN s.precision zeros :=
      smallRange_of_applies (hiff.2 ⟨hraw, h0⟩)
    obtain ⟨hq1, hq2⟩ := countingOperand_bounds hp h0 hz
    refine ⟨countingOperand_eq hp h0 hz, hq1, hq2, countingOperand_eq_one_iff hp h0 hz, hsmall, ?_⟩
    rw [hsmall]
    exact (worth_linearCount hp h0 hz).value
  · exact smallRange_of_not_applies fun happ => (hiff.1 happ).1.not_gt hraw
  · exact smallRange_of_not_applies fun happ => (hiff.1 happ).2.ne' h0

/-- The logarithm unit is at most `726818 / 65536` on the operands of linear counting (R124). -/
theorem LN_le_of_le_65536 {x : F64} (h : f64FinitePositive x = true) (hx : f64ToRat x ≤ 65536) :
    f64ToRat (LN x) ≤ 726818 / 65536 := by
  by_cases hone : x = 0x3FF0000000000000#64
  · rw [hone, LN_one, worth_zero.value]
    norm_num
  have hrep : Representable (726818 / 65536) := by
    have h := (Representable.natCast (n := 726818) (by norm_num)).div_two_pow (j := 16) (by norm_num) (by norm_num)
    norm_num at h ⊢
    exact h
  refine LN_le h hone hrep ?_
  have hpos := Rat.cast_pos (K := ℝ).2 (f64FinitePositive_iff_worth.1 h).2
  have hle : (f64ToRat x : ℝ) ≤ 2 ^ 16 := by
    have := (Rat.cast_le (K := ℝ)).2 hx
    norm_num at this ⊢
    exact this
  have hlog := Real.log_le_log hpos hle
  have h2 := Real.log_two_lt_d9
  rw [Real.log_pow] at hlog
  push_cast at hlog ⊢
  norm_num
  linarith

/-- Where linear counting is used its value is at most 726818 (R124). -/
theorem linearCount_le (hp : legalPrecision p) (h0 : 0 < zeros) (hz : zeros ≤ 2 ^ p) :
    f64ToRat (linearCount LN p zeros) ≤ 726818 := by
  have hln := LN_le_of_le_65536 (countingOperand_finitePositive hp h0 hz) (countingOperand_bounds hp h0 hz).2
  rw [(worth_linearCount hp h0 hz).value]
  calc 2 ^ p * f64ToRat (LN (fdiv (registerCountF p) (i2f zeros)))
    _ ≤ 2 ^ p * (726818 / 65536) := by gcongr
    _ ≤ 2 ^ 16 * (726818 / 65536) := by
      gcongr
      · exact one_le_two
      · exact hp.2
    _ = 726818 := by norm_num

/-- Step 4 does nothing to an estimate that is not above `T_LARGE`. -/
theorem largeRangeApplies_of_le {v : ℚ} (he : Worth e v) (hv : v ≤ f64ToRat tLarge) :
    largeRangeApplies e = false := by
  have hgt : fgt e tLarge = false := Bool.eq_false_iff.2 fun h => ((he.fgt_iff worth_tLarge).1 h).not_ge hv
  rw [largeRangeApplies, hgt, Bool.false_and]

theorem largeRange_of_not_applies (h : largeRangeApplies e = false) : largeRange ln e = e := by
  rw [largeRange, h, if_neg Bool.false_ne_true]

/-- Settles O49: the greatest value of linear counting is far below `T_LARGE`. -/
theorem correctionsNeverBothApply : Obligations.CorrectionsNeverBothApply := by
  intro s hinv hC happ
  have hp := (hinv.scanBounded hC).legal
  have hz := zeroCount_le s.precision s.M
  obtain ⟨-, h0⟩ := (smallRangeApplies_iff hp _ s.M).1 happ
  have hw := worth_linearCount hp h0 hz
  have hle := linearCount_le hp h0 hz
  have hlarge : 726818 ≤ f64ToRat tLarge := by rw [tLarge_value]; norm_num
  have hnone := largeRangeApplies_of_le hw (hw.value ▸ hle.trans hlarge)
  refine ⟨hle, hnone, ?_⟩
  rw [estimate, smallRange_of_applies happ, largeRange_of_not_applies hnone]

end Sys2Proof.Machine
end

/-! ## Family 42_estimate: the large-range correction (R120, R121, R126) -/

section
namespace Sys2Proof.Machine

variable {p : Nat} {e : F64} {v : ℚ} {M : List Host.Cell}

/-! ### The argument of the correction -/

/-- For an estimate of at least 1 the scaling by `2^-32` is exact, and the argument rounds once, at the subtraction
(R120). -/
theorem largeArgument_eq (he : Worth e v) (hv : 1 ≤ v) : largeArgument e = fround (1 - v / 2 ^ 32) := by
  have hscale : v * (2 : ℚ) ^ (-32 : Int) = v / 2 ^ 32 := by rw [zpow_neg, zpow_ofNat, div_eq_mul_inv]
  have hrep : Representable (v / 2 ^ 32) :=
    he.representable.div_two_pow (by norm_num) (by rwa [abs_of_nonneg he.nonneg])
  have hscaled := he.fmul (worth_pow2 (k := -32) (by norm_num) (by norm_num)) (hscale ▸ hrep)
  exact worth_fround_one.fsub_eq (hscaled.congr hscale)

/-- A binary64 value below `2^32` is at most `2^32 - 2^-21`. -/
theorem le_of_lt_two_pow_32 (he : Worth e v) (hv : v < 2 ^ 32) : v ≤ 2 ^ 32 - 1 / 2 ^ 21 := by
  have h32 := worth_pow2 (k := 32) (by norm_num) (by norm_num)
  have hlast : patternValue 0x41EFFFFFFFFFFFFF = 2 ^ 32 - 1 / 2 ^ 21 := by decide +kernel
  rw [← hlast]
  exact he.le_patternValue h32 (by decide) hv

theorem one_lt_of_tLarge_lt (hlarge : f64ToRat tLarge < v) : 1 < v := by
  rw [tLarge_value] at hlarge
  linarith

/-- From `2^32` on the argument is not positive, and finite (R121). -/
theorem largeArgument_nonpos (he : Worth e v) (hv : 2 ^ 32 ≤ v) :
    f64Finite (largeArgument e) = true ∧ f64ToRat (largeArgument e) ≤ 0 := by
  rw [largeArgument_eq he (by linarith)]
  constructor
  · refine he.representable.f64Finite_fround ?_
    rw [abs_of_nonneg he.nonneg, abs_le]
    constructor <;> linarith
  · exact (Representable.natCast (n := 0) (by norm_num)).fround_le (by push_cast; linarith)

/-! ### Whether the correction applies -/

/-- From `2^32` on the guard of the logarithm fails (R121). -/
theorem largeRangeApplies_of_ge (he : Worth e v) (hv : 2 ^ 32 ≤ v) : largeRangeApplies e = false := by
  obtain ⟨hfin, hle⟩ := largeArgument_nonpos he hv
  have hguard : fgt (largeArgument e) (fround 0) = false := by
    refine Bool.eq_false_iff.2 fun h => ?_
    rw [fgt_iff hfin worth_fround_zero.finite, worth_fround_zero.value] at h
    exact h.not_ge hle
  rw [largeRangeApplies, hguard, Bool.and_false]

theorem largeRange_of_applies {ln : F64 → F64} (h : largeRangeApplies e = true) :
    largeRange ln e = fneg (fmul (pow2 32) (ln (largeArgument e))) := if_pos h

/-! ### The corrected estimate -/

theorem f64Sign_of_neg {a : F64} (h : f64ToRat a < 0) : f64Sign a = true := by
  by_contra hs
  rw [f64ToRat, if_neg hs] at h
  exact h.not_ge (f64Magnitude_nonneg a)

/-- The negated, scaled logarithm of an operand below 1: the scaling is exact, and the result is positive (R120). -/
theorem worth_fneg_fmul_LN {x : F64} (hx : f64FinitePositive x = true) (h1 : f64ToRat x < 1) :
    Worth (fneg (fmul (pow2 32) (LN x))) (-(2 ^ 32 * f64ToRat (LN x))) := by
  have h32 := worth_pow2 (k := 32) (by norm_num) (by norm_num)
  have hneg : f64ToRat (LN x) < 0 := (LN_le_of_lt_one hx h1).trans_lt (neg_lt_zero.2 (zpow_pos two_pos _))
  have hrep : Representable (2 ^ 32 * f64ToRat (LN x)) := representable_mul_LN hx (by norm_num)
  have hprod : fmul (pow2 32) (LN x) = fround (2 ^ 32 * f64ToRat (LN x)) := by
    rw [fmul_of_finite h32.finite (f64Finite_LN hx), h32.sign, f64Sign_of_neg hneg, h32.value, zpow_ofNat,
      Bool.false_xor]
    exact roundSigned_of_neg (by linarith)
  rw [hprod]
  refine ⟨?_, ?_, ?_⟩
  · rw [f64Finite_fneg]
    exact hrep.f64Finite_fround le_rfl
  · rw [f64Sign_fneg, f64Sign_fround, decide_eq_true (by linarith), Bool.not_true]
  · rw [f64ToRat_fneg, hrep.f64ToRat_fround]

/-! ### Between `T_LARGE` and `2^32` (R120, R121, R162) -/

section
variable (he : Worth e v) (hlarge : f64ToRat tLarge < v) (hv : v < 2 ^ 32)
include he hlarge hv

/-- The argument lies between `1 - (2^32 - 2^-21) / 2^32` and `1 - T_LARGE / 2^32` rounded up. -/
theorem largeArgument_bounds :
    1 / 2 ^ 53 ≤ f64ToRat (largeArgument e) ∧ f64ToRat (largeArgument e) ≤ 8706959279582959 / 2 ^ 53 := by
  have hlow : Representable (1 / 2 ^ 53) := representable_one.div_two_pow (by norm_num) (by norm_num)
  have hhigh : Representable (8706959279582959 / 2 ^ 53) :=
    (Representable.natCast (n := 8706959279582959) (by norm_num)).div_two_pow (by norm_num) (by norm_num)
  have hle := le_of_lt_two_pow_32 he hv
  rw [largeArgument_eq he (one_lt_of_tLarge_lt hlarge).le]
  rw [tLarge_value] at hlarge
  exact ⟨hlow.le_fround (by linarith), hhigh.fround_le (by linarith)⟩

theorem largeArgument_finitePositive : f64FinitePositive (largeArgument e) = true := by
  obtain ⟨hpos, -⟩ := largeArgument_bounds he hlarge hv
  refine f64FinitePositive_iff_worth.2 ⟨?_, lt_of_lt_of_le (by norm_num) hpos⟩
  have hone := one_lt_of_tLarge_lt hlarge
  rw [largeArgument_eq he hone.le]
  exact representable_one.worth_fround (by linarith) (by linarith)

theorem largeArgument_lt_one : f64ToRat (largeArgument e) < 1 :=
  (largeArgument_bounds he hlarge hv).2.trans_lt (by norm_num)

/-- Step 4 replaces an estimate between `T_LARGE` and `2^32` (R120, R121). -/
theorem largeRangeApplies_of_lt : largeRangeApplies e = true := by
  have hx := f64FinitePositive_iff_worth.1 (largeArgument_finitePositive he hlarge hv)
  rw [largeRangeApplies, Bool.and_eq_true]
  exact ⟨(he.fgt_iff worth_tLarge).2 hlarge, (hx.1.fgt_iff worth_fround_zero).2 hx.2⟩

/-- The corrected estimate between `T_LARGE` and `2^32`. -/
theorem worth_largeRange_of_lt : Worth (largeRange LN e) (-(2 ^ 32 * f64ToRat (LN (largeArgument e)))) := by
  rw [largeRange_of_applies (largeRangeApplies_of_lt he hlarge hv)]
  exact worth_fneg_fmul_LN (largeArgument_finitePositive he hlarge hv) (largeArgument_lt_one he hlarge hv)

theorem largeRange_pos : 0 < f64ToRat (largeRange LN e) := by
  have hln := LN_le_of_lt_one (largeArgument_finitePositive he hlarge hv) (largeArgument_lt_one he hlarge hv)
  have hpos : (0 : ℚ) < (2 : ℚ) ^ (-54 : Int) := zpow_pos two_pos _
  rw [(worth_largeRange_of_lt he hlarge hv).value]
  linarith

end

/-- Settles O47: the cases of the estimate up to `T_LARGE`, up to `2^32`, and from there on. -/
theorem largeRangeCorrection : Obligations.LargeRangeCorrection := by
  intro e hpos x
  obtain ⟨he, -⟩ := f64FinitePositive_iff_worth.1 hpos
  refine ⟨fun hle => largeRange_of_not_applies (largeRangeApplies_of_le he hle),
    fun hlarge => largeArgument_eq he (one_lt_of_tLarge_lt hlarge).le, fun hlarge hlt => ?_, fun hge => ?_⟩
  · have hcorrected := worth_largeRange_of_lt he hlarge hlt
    obtain ⟨hlow, hhigh⟩ := largeArgument_bounds he hlarge hlt
    exact ⟨lt_of_lt_of_le (by norm_num) hlow, hhigh.trans_lt (by norm_num),
      largeRange_of_applies (largeRangeApplies_of_lt he hlarge hlt), hcorrected.value, largeRange_pos he hlarge hlt⟩
  · exact ⟨(largeArgument_nonpos he hge).2, largeRange_of_not_applies (largeRangeApplies_of_ge he hge)⟩

/-! ### The estimate -/

/-- Step 3 answers a finite value with sign bit 0. -/
theorem worth_smallRange (hp : legalPrecision p) (M : List Host.Cell) :
    ∃ v, Worth (smallRange LN p (zeroCount p M) (rawEstimate p M)) v := by
  by_cases happ : smallRangeApplies p (zeroCount p M) (rawEstimate p M) = true
  · have h0 := ((smallRangeApplies_iff hp _ M).1 happ).2
    rw [smallRange_of_applies happ]
    exact ⟨_, worth_linearCount hp h0 (zeroCount_le p M)⟩
  · rw [smallRange_of_not_applies happ]
    exact ⟨_, worth_rawEstimate hp M⟩

/-- Step 4 keeps a finite value with sign bit 0 such a value. -/
theorem worth_largeRange (he : Worth e v) : ∃ w, Worth (largeRange LN e) w := by
  obtain hle | hlarge := le_or_gt v (f64ToRat tLarge)
  · exact ⟨v, by rwa [largeRange_of_not_applies (largeRangeApplies_of_le he hle)]⟩
  obtain hlt | hge := lt_or_ge v (2 ^ 32)
  · exact ⟨_, worth_largeRange_of_lt he hlarge hlt⟩
  · exact ⟨v, by rwa [largeRange_of_not_applies (largeRangeApplies_of_ge he hge)]⟩

/-- Settles O51: steps 3 and 4 each answer a finite value with sign bit 0. -/
theorem estimateIsFiniteAndNonnegative : Obligations.EstimateIsFiniteAndNonnegative := by
  intro s hinv hC
  obtain ⟨v, hsmall⟩ := worth_smallRange (hinv.scanBounded hC).legal s.M
  obtain ⟨w, hw⟩ := worth_largeRange hsmall
  exact ⟨hw.finite, hw.sign⟩

/-! ### Registers that are all equal (R125, R127, R128) -/

/-- With no register at 0, step 3 does nothing (R119). -/
theorem estimate_of_no_zeros (h0 : zeroCount p M = 0) : estimate LN p M = largeRange LN (rawEstimate p M) := by
  have happ : ¬smallRangeApplies p (zeroCount p M) (rawEstimate p M) = true := by simp [smallRangeApplies, h0]
  rw [estimate, smallRange_of_not_applies happ]

/-- `alpha * 2^j` is between `2/3 * 2^j` and `3/4 * 2^j`. -/
theorem alpha_mul_two_pow_bounds (hp : legalPrecision p) (j : Nat) :
    2 / 3 * 2 ^ j < f64ToRat (alpha p) * 2 ^ j ∧ f64ToRat (alpha p) * 2 ^ j < 3 / 4 * 2 ^ j :=
  ⟨mul_lt_mul_of_pos_right (two_thirds_lt_alpha hp) (by positivity),
    mul_lt_mul_of_pos_right (alpha_lt_three_quarters hp) (by positivity)⟩

/-- Settles O53: the exact raw estimate `alpha * 2^(P + k)` against `T_LARGE` and `2^32`. -/
theorem uniformSketchRegimes : Obligations.UniformSketchRegimes := by
  intro k s _ hp hk1 hk hu
  have hraw := rawEstimate_of_uniform hp hk hu
  have hw : Worth (rawEstimate s.precision s.M) _ :=
    hraw ▸ worth_alpha_add_exponent hp (j := s.precision + k) (by have := hp.2; omega)
  obtain ⟨hlow, hhigh⟩ := alpha_mul_two_pow_bounds hp (s.precision + k)
  have hmono {i j : Nat} (hij : i ≤ j) : (2 : ℚ) ^ i ≤ 2 ^ j := pow_le_pow_right₀ one_le_two hij
  have hestimate := estimate_of_no_zeros (zeroCount_of_uniform hk1 hu)
  have htLarge := tLarge_value
  refine ⟨hraw, fun ⟨h28, h32⟩ => ?_, fun hother => ?_⟩
  · have hpow28 := hmono h28
    have hpow32 := hmono h32
    have happ := largeRangeApplies_of_lt hw (by linarith) (by linarith)
    exact ⟨happ, hestimate.trans (largeRange_of_applies happ)⟩
  · refine hestimate.trans (largeRange_of_not_applies ?_)
    obtain h27 | h33 := hother
    · have hpow27 := hmono h27
      exact largeRangeApplies_of_le hw (by linarith)
    · have hpow33 := hmono h33.ge
      exact largeRangeApplies_of_ge hw (by linarith)

/-- `1 - 2 * alpha` is exact: `alpha` has its last place at `2^-53` (R127). -/
theorem representable_one_sub_two_alpha (hp : legalPrecision p) : Representable (1 - 2 * f64ToRat (alpha p)) := by
  obtain ⟨hge, hle⟩ := alpha_toNat_mem hp
  obtain ⟨e, sig, hm, hsig, hcases⟩ := exists_significand (alpha p).toNat
  obtain rfl : e = 1021 := by omega
  have h52 : 2 ^ 52 ≤ sig := by omega
  have hval : f64ToRat (alpha p) = sig * (2 : ℚ) ^ (-53 : Int) := by
    rw [← (worth_alpha hp).patternValue_eq, hm, patternValue_of_significand hsig.le (.inr h52)]
    norm_num
  have hexact : 1 - 2 * f64ToRat (alpha p) = -((sig - 2 ^ 52 : Nat) * (2 : ℚ) ^ (-52 : Int)) := by
    rw [hval, Nat.cast_sub h52]
    norm_num
    ring
  rw [hexact]
  refine (Representable.of_dyadic (by omega) (by norm_num) (lt_overflow (j := 53) (by decide) ?_)).neg
  calc ((sig - 2 ^ 52 : Nat) : ℚ) * (2 : ℚ) ^ (-52 : Int)
    _ ≤ (sig - 2 ^ 52 : Nat) :=
      mul_le_of_le_one_right (Nat.cast_nonneg _) (zpow_le_one_of_nonpos₀ one_le_two (by norm_num))
    _ ≤ 2 ^ 53 := by exact_mod_cast (by omega : sig - 2 ^ 52 ≤ 2 ^ 53)

/-- The argument of the correction of `alpha * 2^33` is exact (R127). -/
theorem largeArgument_of_saturated (hp : legalPrecision p) (he : Worth e (f64ToRat (alpha p) * 2 ^ 33)) :
    f64ToRat (largeArgument e) = 1 - 2 * f64ToRat (alpha p) := by
  have hlow := (alpha_mul_two_pow_bounds hp 33).1
  have hscale : 1 - f64ToRat (alpha p) * 2 ^ 33 / 2 ^ 32 = 1 - 2 * f64ToRat (alpha p) := by ring
  rw [largeArgument_eq he (by linarith), hscale, (representable_one_sub_two_alpha hp).f64ToRat_fround]

/-- Settles O52: the raw estimate `alpha * 2^33` is above `2^32`, so that step 4 keeps it. -/
theorem saturatedSketchKeepsTheRawEstimate : Obligations.SaturatedSketchKeepsTheRawEstimate := by
  refine ⟨fun a s hC hp hu => ?_, fun p p' hp hp' hlt => ?_⟩
  · have hp16 := hp.2
    have hadd : s.precision + (33 - s.precision) = 33 := by omega
    have hk : 33 - s.precision ≤ maxRank s.precision := le_rfl
    have hraw := rawEstimate_of_uniform hp hk hu
    rw [hadd] at hraw
    have hw : Worth (rawEstimate s.precision s.M) _ := hraw ▸ worth_alpha_add_exponent hp le_rfl
    obtain ⟨hlow, -⟩ := alpha_mul_two_pow_bounds hp 33
    have hge : 2 ^ 32 ≤ f64ToRat (alpha s.precision) * 2 ^ 33 := by linarith
    have hzeros := zeroCount_of_uniform (k := 33 - s.precision) (by omega) hu
    have hlarge : f64ToRat tLarge < f64ToRat (alpha s.precision) * 2 ^ 33 := by
      rw [tLarge_value]
      linarith
    have harg := largeArgument_of_saturated hp hw
    refine ⟨?_, hzeros, ?_, (hw.fgt_iff worth_tLarge).2 hlarge, harg, ?_, _, exec_est hC a, ?_⟩
    · rw [zAcc_of_uniform (by omega) hu, maxRank, Nat.sub_self, pow_zero, mul_one]
    · rw [harmonicSum_of_uniform hp hk hu]
      congr 1
      omega
    · have := two_thirds_lt_alpha hp
      rw [harg]
      linarith
    · rw [State.respond_response, f64bits, estimate_of_no_zeros hzeros,
        largeRange_of_not_applies (largeRangeApplies_of_ge hw hge), hraw]
  · rw [(worth_alpha_add_exponent hp (j := 33) le_rfl).value, (worth_alpha_add_exponent hp' (j := 33) le_rfl).value]
    exact mul_lt_mul_of_pos_right (alpha_lt hp hp' hlt) (by positivity)

/-- With every register at 0, linear counting answers `+0.0` (R125). -/
theorem linearCount_all_zero (hp : legalPrecision p) : linearCount LN p (2 ^ p) = 0x0000000000000000#64 := by
  have hpos : 0 < 2 ^ p := by positivity
  have hone := (countingOperand_eq_one_iff hp hpos le_rfl).2 rfl
  have hw := worth_linearCount hp hpos le_rfl
  rw [hone, LN_one, worth_zero.value, mul_zero] at hw
  exact hw.unique worth_zero

/-- Settles O50: with every register at 0 the raw estimate is `alpha * 2^P`, below the threshold, and `LN(1.0)` is
`+0.0`. -/
theorem emptySketchEstimatesZero : Obligations.EmptySketchEstimatesZero := by
  intro n a s
  have hp := clampPrecision_legal n
  obtain ⟨p, hpe⟩ : ∃ p, (clampPrecision n).toNat = p := ⟨_, rfl⟩
  refine ⟨_, _, exec_init n s, exec_est (s.construct_CON _) a, ?_⟩
  rw [State.construct_precision, State.construct_M, State.respond_response, hpe]
  rw [hpe] at hp
  have hu : ∀ i < 2 ^ p, (Memory.read [] i).toNat = 0 := fun _ _ => rfl
  have hzeros : zeroCount p [] = 2 ^ p := zeroCount_uniform (v := 0#8) fun _ _ => rfl
  have hraw := rawEstimate_of_uniform hp (Nat.zero_le _) hu
  have hw : Worth (rawEstimate p []) (f64ToRat (alpha p) * 2 ^ p) :=
    hraw ▸ worth_alpha_add_exponent hp (j := p) (by have := hp.2; omega)
  have hbelow : f64ToRat (alpha p) * 2 ^ p ≤ 5 / 2 * 2 ^ p := by
    have := alpha_lt_three_quarters hp
    gcongr
    linarith
  have happ : smallRangeApplies p (2 ^ p) (rawEstimate p []) = true :=
    (smallRangeApplies_iff hp _ _).2 ⟨hw.value.trans_le hbelow, by positivity⟩
  have hestimate : estimate LN p [] = 0x0000000000000000#64 := by
    rw [estimate, hzeros, smallRange_of_applies happ, linearCount_all_zero hp]
    exact largeRange_of_not_applies (largeRangeApplies_of_le worth_zero worth_tLarge.nonneg)
  refine ⟨hzeros, ?_, hw.unique (worth_alpha_mul_registerCountF hp), ?_, congrArg some hestimate⟩
  · rw [harmonicSum_of_uniform hp (Nat.zero_le _) hu, Nat.cast_zero, sub_zero, zpow_natCast]
  · exact (hw.fle_iff (worth_smallThreshold hp)).2 hbelow

end Sys2Proof.Machine
end

/-! ## Family 42_estimate: EST as a command (R110, R112, R123, R129) -/

section
namespace Sys2Proof.Machine

variable {s t : State}

/-- Settles O37: `exec_est` with the stages of `estimate` written out. -/
theorem estAnswersTheStagedEstimate : Obligations.EstAnswersTheStagedEstimate := by
  intro a s m zacc zeros z e1 e2 x e3
  refine ⟨fun hC => ?_, fun hC => exec_refused_iff.2 ⟨rfl, hC, nofun⟩⟩
  have hraw : rawEstimate s.precision s.M = e1 := rfl
  have hsmall : smallRange LN s.precision (zeroCount s.precision s.M) e1 = e2 := by
    have hzeros : zeroCount s.precision s.M = zeros := zeroCount_eq_card _ _
    have hconst : mkRat 5 2 = 5 / 2 := by decide +kernel
    rw [hzeros, smallRange, smallRangeApplies, smallThreshold, hconst]
    simp only [Bool.and_eq_true, decide_eq_true_eq]
    rfl
  have hlarge : largeRange LN e2 = e3 := by
    rw [largeRange, largeRangeApplies]
    simp only [Bool.and_eq_true, ite_and]
    rfl
  have hestimate : estimate LN s.precision s.M = e3 := by rw [estimate, hraw, hsmall, hlarge]
  exact ⟨_, exec_est hC a, congrArg (fun e => some (f64bits e)) hestimate, rfl, rfl, rfl, rfl, rfl⟩

/-- Settles O38: both answer the estimate, which reads only the index domain. -/
theorem estimateDependsOnlyOnTheSketch : Obligations.EstimateDependsOnlyOnTheSketch := by
  intro a b s s' hC hC' hP hM
  have hp : s.precision = s'.precision := congrArg BitVec.toNat hP
  refine ⟨_, _, _, exec_est hC a, exec_est hC' b, rfl, ?_⟩
  rw [State.respond_response, ← hp, estimate_congr LN hM]

/-- A command of a constructed engine does the same whatever was delivered before. -/
theorem exec_withDelivered (hC : s.CON = true) (i : Instr) (ws : List ResponseWord) :
    ∃ t, exec i s = .next t ∧ t.CON = true ∧ t.delivered = s.delivered ∧
      exec i { s with delivered := ws } = .next { t with delivered := ws } := by
  cases i with
  | init n => exact ⟨_, exec_init n s, rfl, rfl, rfl⟩
  | add d => exact ⟨_, exec_add hC d, hC, rfl, exec_add (s := { s with delivered := ws }) hC d⟩
  | est a => exact ⟨_, exec_est hC a, hC, rfl, exec_est (s := { s with delivered := ws }) hC a⟩
  | rcnt a => exact ⟨_, exec_rcnt hC a, hC, rfl, exec_rcnt (s := { s with delivered := ws }) hC a⟩

theorem State.deliver_withDelivered (s : State) (ws : List ResponseWord) :
    State.deliver { s with delivered := ws } = { s.deliver with delivered := ws ++ s.response.toList } := by
  cases hr : s.response <;> simp [State.deliver, hr]

/-- A list of commands of a constructed engine does the same whatever was delivered before: it adds the same
responses. -/
theorem execAll_withDelivered (hC : s.CON = true) (is : List Instr) (ws : List ResponseWord) :
    ∃ t new, execAll is s = .next t ∧ t.delivered = s.delivered ++ new ∧
      execAll is { s with delivered := ws } = .next { t with delivered := ws ++ new } := by
  induction is generalizing s ws with
  | nil => exact ⟨s, [], rfl, (List.append_nil _).symm, by rw [List.append_nil]; rfl⟩
  | cons i is ih =>
    obtain ⟨t, hi, hC', hdel, hi'⟩ := exec_withDelivered hC i ws
    obtain ⟨u, new, hrun, hnew, hrun'⟩ := ih (s := t.deliver) (by simpa using hC') (ws ++ t.response.toList)
    refine ⟨u, t.response.toList ++ new, ?_, ?_, ?_⟩
    · rw [execAll_cons_of_next hi, hrun]
    · rw [hnew, State.deliver_delivered, hdel, List.append_assoc]
    · rw [execAll_cons_of_next hi', State.deliver_withDelivered, hrun', List.append_assoc]

/-- Settles O39: EST leaves the state as it was but for one delivered word, and no later command reads that. -/
theorem estDoesNotDisturbLaterCommands : Obligations.EstDoesNotDisturbLaterCommands := by
  intro a s later hC hn
  obtain ⟨v, hv⟩ : ∃ v, f64bits (estimate LN s.precision s.M) = v := ⟨_, rfl⟩
  have hest : (s.respond v).deliver = { s with delivered := s.delivered ++ [v] } := by
    rw [State.deliver_some _ (s.respond_response v), State.respond, ← hn]
  obtain ⟨u', new, hrun', hnew, hrun⟩ := execAll_withDelivered hC later (s.delivered ++ [v])
  have hwith := execAll_est_cons hC a later
  rw [hv, hest, hrun] at hwith
  exact ⟨v, _, u', new, hwith, hrun', rfl, rfl, rfl, rfl, rfl, rfl, hnew⟩

/-! ### The zero count after INIT and ADD commands (R112) -/

/-- After ADD of a list of digests to an empty sketch, a register is 0 exactly when its bucket received no digest
(R97). -/
theorem read_addDigests_nil_eq_zero_iff {p : Nat} (hp : p ≤ 32) (ds : List Digest) (i : Nat) :
    Memory.read (Memory.addDigests p [] ds) i = 0#8 ↔ ∀ d ∈ ds, bucketIndex p d ≠ i := by
  have hread := Memory.read_addDigests (M := []) ⟨.nil, by simp⟩ p ds i
  rw [Memory.read_nil, show Config.unlistedRegister.toNat = 0 from rfl, Nat.zero_max] at hread
  rw [← BitVec.toNat_inj, hread, BitVec.toNat_ofNat, Nat.zero_mod, ← Nat.le_zero, highestRank_le_iff]
  refine forall₂_congr fun d _ => ⟨fun h hd => ?_, fun h hd => absurd hd h⟩
  have := rank_pos hp d
  have := h hd
  omega

/-- The zero count after ADD of a list of digests to an empty sketch. -/
theorem zeroCount_addDigests_nil {p : Nat} (hp : p ≤ 32) (ds : List Digest) :
    zeroCount p (Memory.addDigests p [] ds) =
      ((Finset.range (2 ^ p)).filter fun i => ∀ d ∈ ds, bucketIndex p d ≠ i).card := by
  rw [zeroCount_eq_card]
  exact congrArg _ (Finset.filter_congr fun i _ => read_addDigests_nil_eq_zero_iff hp ds i)

theorem zeroCount_addDigests_nil_eq_all_iff {p : Nat} (hp : p ≤ 32) (ds : List Digest) :
    zeroCount p (Memory.addDigests p [] ds) = 2 ^ p ↔ ds = [] := by
  have hcard := Finset.card_filter_eq_iff (s := Finset.range (2 ^ p)) (p := fun i => ∀ d ∈ ds, bucketIndex p d ≠ i)
  rw [Finset.card_range, ← zeroCount_addDigests_nil hp] at hcard
  rw [hcard, List.eq_nil_iff_forall_not_mem]
  constructor
  · exact fun h d hd => h _ (Finset.mem_range.2 (bucketIndex_lt hp d)) d hd rfl
  · exact fun h i _ d hd => absurd hd (h d)

theorem zeroCount_addDigests_nil_eq_zero_iff {p : Nat} (hp : p ≤ 32) (ds : List Digest) :
    zeroCount p (Memory.addDigests p [] ds) = 0 ↔ ∀ i < 2 ^ p, ∃ d ∈ ds, bucketIndex p d = i := by
  rw [zeroCount_addDigests_nil hp, Finset.card_eq_zero, Finset.filter_eq_empty_iff]
  simp only [Finset.mem_range, not_forall, exists_prop, not_not]

/-- Settles O41: a register is 0 exactly when its bucket received no digest, and every digest has a bucket. -/
theorem zeroCountCountsUntouchedBuckets : Obligations.ZeroCountCountsUntouchedBuckets := by
  intro n ds s
  have hinit := execAll_cons_of_next (exec_init n s) (ds.map .add)
  obtain ⟨t, hrun, hprec, hM⟩ := execAll_add_sketch (s := (s.construct (clampPrecision n)).deliver) (by simp) ds
  rw [State.deliver_M, State.construct_M, ← hprec] at hM
  have hp : t.precision ≤ 32 := t.precision_lt.le
  refine ⟨t, hinit.trans hrun, zeroCount_eq_card _ _, ?_, zeroCount_le _ _, ?_, ?_⟩
  all_goals rw [hM]
  · exact zeroCount_addDigests_nil hp ds
  · exact zeroCount_addDigests_nil_eq_all_iff hp ds
  · exact zeroCount_addDigests_nil_eq_zero_iff hp ds

end Sys2Proof.Machine
end

/-! ## Family 43_leading_zero_count: the leading-zero count (R140 to R144) -/

section
namespace Sys2Proof.Machine

/-- A word that is not zero is not zero as a number, the form in which `lzc32_eq` takes it. -/
theorem word_toNat_ne_zero {x : BitVec 32} (hx : x ≠ 0#32) : x.toNat ≠ 0 :=
  BitVec.toNat_ne_iff_ne.2 hx

/-- Read the other way, the leading-zero count gives the position of the highest set bit (R140). -/
theorem sub_lzc32 {x : BitVec 32} (hx : x.toNat ≠ 0) : 31 - lzc32 x = x.toNat.log2 := by
  have hlt : x.toNat.log2 < 32 := (Nat.log2_lt hx).2 x.isLt
  rw [lzc32_eq hx]
  omega

theorem lzc32_le_of_ne_zero {x : BitVec 32} (hx : x.toNat ≠ 0) : lzc32 x ≤ 31 := by
  rw [lzc32_eq hx]
  exact Nat.sub_le _ _

theorem lzc32_le (x : BitVec 32) : lzc32 x ≤ 32 := by
  by_cases hx : x = 0#32
  · rw [hx, lzc32_zero]
  · exact (lzc32_le_of_ne_zero (word_toNat_ne_zero hx)).trans (by decide)

/-- The bit below the counted zeros is set. -/
theorem getLsbD_sub_lzc32 {x : BitVec 32} (hx : x.toNat ≠ 0) : x.getLsbD (31 - lzc32 x) = true := by
  rw [sub_lzc32 hx]
  exact Nat.testBit_log2 hx

/-- The counted bits are zero. -/
theorem getLsbD_of_sub_lzc32_lt {x : BitVec 32} (hx : x.toNat ≠ 0) {j : Nat} (hj : 31 - lzc32 x < j) :
    x.getLsbD j = false := by
  rw [sub_lzc32 hx] at hj
  exact Nat.testBit_eq_false_of_lt ((Nat.log2_lt hx).1 hj)

/-- The leading-zero count is the one `n` whose powers of two enclose the word (R140). -/
theorem two_pow_enclose_iff_eq_lzc32 {x : BitVec 32} (hx : x.toNat ≠ 0) {n : Nat} (hn : n ≤ 31) :
    (2 ^ (31 - n) ≤ x.toNat ∧ x.toNat < 2 ^ (32 - n)) ↔ n = lzc32 x := by
  have hlog : x.toNat.log2 = 31 - n ↔ 2 ^ (31 - n) ≤ x.toNat ∧ x.toNat < 2 ^ (31 - n + 1) := Nat.log2_eq_iff hx
  have hle := lzc32_le_of_ne_zero hx
  rw [show 32 - n = 31 - n + 1 by omega, ← hlog, ← sub_lzc32 hx]
  omega

/-- A larger word has no more leading zeros (R144): its highest set bit is no lower. -/
theorem lzc32_antitone {x y : BitVec 32} (hxy : x ≤ y) : lzc32 y ≤ lzc32 x := by
  by_cases hx : x = 0#32
  · rw [hx, lzc32_zero]
    exact lzc32_le y
  · have hle : x.toNat ≤ y.toNat := hxy
    have hx0 := word_toNat_ne_zero hx
    have hy0 : y.toNat ≠ 0 := by omega
    rw [lzc32_eq hx0, lzc32_eq hy0]
    exact Nat.sub_le_sub_left ((Nat.le_log2 hy0).2 ((Nat.log2_self_le hx0).trans hle)) 31

/-- Settles O21: the count is 31 less the position of the highest set bit, from which the rest follows. -/
theorem leadingZeroCount : Obligations.LeadingZeroCount := by
  refine ⟨lzc32_zero, by decide, by decide, fun x hx => ?_⟩
  have hx0 := word_toNat_ne_zero hx
  exact ⟨lzc32_le_of_ne_zero hx0, getLsbD_sub_lzc32 hx0, fun j => getLsbD_of_sub_lzc32_lt hx0,
    fun n => two_pow_enclose_iff_eq_lzc32 hx0⟩

/-- Settles O22: a larger word has its highest set bit no lower; the listed values are computed. -/
theorem leadingZeroCountAntitone : Obligations.LeadingZeroCountAntitone :=
  ⟨fun _ _ => lzc32_antitone, by decide⟩

end Sys2Proof.Machine
end

/-! ## Family 44_binary64_numerics: signs, comparisons, conversions and the one rounding (R153 to R158) -/

section
namespace Sys2Proof.Machine

variable {a b : F64} {r : ℚ}

/-! ### The sign of a value -/

/-- A value that is not zero says the sign bit of its pattern. -/
theorem f64Sign_of_ne_zero (h : f64ToRat a ≠ 0) : f64Sign a = decide (f64ToRat a < 0) := by
  obtain hneg | hpos := lt_or_gt_of_ne h
  · rw [f64Sign_of_neg hneg, decide_eq_true hneg]
  · rw [decide_eq_false hpos.not_gt, ← Bool.not_eq_true]
    intro hs
    rw [f64ToRat, if_pos hs] at hpos
    exact hpos.not_ge (neg_nonpos.2 (f64Magnitude_nonneg a))

/-- A pattern is determined by its value, unless that is zero. -/
theorem f64_eq_of_value (hv : f64ToRat a = f64ToRat b) (h0 : f64ToRat a ≠ 0) : a = b :=
  f64_ext (by rw [f64Sign_of_ne_zero h0, f64Sign_of_ne_zero (hv ▸ h0), hv]) hv

/-- The exclusive-or of the sign bits is the sign of a product that is not zero. -/
theorem f64Sign_xor_of_mul_ne_zero (h : f64ToRat a * f64ToRat b ≠ 0) :
    (f64Sign a ^^ f64Sign b) = decide (f64ToRat a * f64ToRat b < 0) := by
  obtain ⟨ha, hb⟩ := mul_ne_zero_iff.1 h
  rw [f64Sign_of_ne_zero ha, f64Sign_of_ne_zero hb, Bool.eq_iff_iff, decide_eq_true_eq, mul_neg_iff, bne_iff_ne, ne_eq,
    decide_eq_decide]
  obtain ha | ha := lt_or_gt_of_ne ha <;> obtain hb | hb := lt_or_gt_of_ne hb <;>
    simp [ha, hb, ha.not_gt, hb.not_gt]

/-- Settles O34: negation keeps the low 63 bits of the pattern, and the laws of the sign and the value. -/
theorem negationInvertsTheSign : Obligations.NegationInvertsTheSign := by
  intro a
  refine ⟨fun j hj => ?_, f64Sign_fneg a, f64ToRat_fneg a, rfl⟩
  have hone : (1#64 <<< 63).getLsbD j = false := by
    simp only [BitVec.getLsbD_shiftLeft, hj, decide_true, Bool.not_true, Bool.and_false, Bool.false_and]
  rw [fneg, BitVec.getLsbD_xor, hone, Bool.xor_false]

/-! ### Comparisons and conversions -/

/-- Negative zero is finite and worth 0 (R150). -/
theorem f64ToRat_negative_zero :
    f64Finite 0x8000000000000000#64 = true ∧ f64ToRat 0x8000000000000000#64 = 0 := by decide +kernel

/-- Settles O33: on finite operands the comparisons are those of the values, and both zeros are worth 0. -/
theorem comparisonsAreThoseOfTheReals : Obligations.ComparisonsAreThoseOfTheReals := by
  obtain ⟨hfin, hval⟩ := f64ToRat_negative_zero
  refine ⟨fun a b ha hb => ⟨fle_iff ha hb, fgt_iff ha hb⟩, ?_, ?_, ?_, ?_⟩
  · rw [fle_iff hfin worth_zero.finite, hval, worth_zero.value]
  · rw [fle_iff worth_zero.finite hfin, hval, worth_zero.value]
  · rw [← Bool.not_eq_true, fgt_iff hfin worth_zero.finite, hval, worth_zero.value]
    exact lt_irrefl 0
  · rw [← Bool.not_eq_true, fgt_iff worth_zero.finite hfin, hval, worth_zero.value]
    exact lt_irrefl 0

/-- An integer of at most 53 bits is representable. -/
theorem Representable.intCast {n : Int} (hn : |n| ≤ 2 ^ 53) : Representable n := by
  obtain ⟨m, rfl | rfl⟩ := n.eq_nat_or_neg
  · exact Representable.natCast (n := m) (by rw [Nat.abs_cast] at hn; exact_mod_cast hn)
  · rw [Int.cast_neg]
    exact (Representable.natCast (n := m) (by rw [abs_neg, Nat.abs_cast] at hn; exact_mod_cast hn)).neg

/-- Settles O32: integers of at most 53 bits are representable, and `pow2` is `worth_pow2`. -/
theorem conversionsAreExact : Obligations.ConversionsAreExact := by
  refine ⟨fun n hn => ?_, fun k h1 h2 => ?_⟩
  · have hrep : Representable n := .intCast hn
    exact ⟨hrep.f64Finite_fround le_rfl, hrep.f64ToRat_fround⟩
  · have h := worth_pow2 h1 h2
    exact ⟨h.finite, h.value, pow2_toNat h1 h2⟩

/-! ### One rounding -/

/-- Rounding an exact zero gives a zero, of either sign. -/
theorem f64ToRat_roundSigned_zero (neg : Bool) : f64ToRat (roundSigned neg 0) = 0 := by
  cases neg <;> decide +kernel

/-- Under the sign of its argument, `roundSigned` gives the value of `fround`; the sign of an exact zero is free. -/
theorem f64ToRat_roundSigned {neg : Bool} (h : r ≠ 0 → neg = decide (r < 0)) :
    f64ToRat (roundSigned neg r) = f64ToRat (fround r) := by
  obtain rfl | hr := eq_or_ne r 0
  · rw [f64ToRat_roundSigned_zero, fround, f64ToRat_roundSigned_zero]
  · rw [h hr, fround]

theorem f64ToRat_fmul (ha : f64Finite a = true) (hb : f64Finite b = true) :
    f64ToRat (fmul a b) = f64ToRat (fround (f64ToRat a * f64ToRat b)) := by
  rw [fmul_of_finite ha hb]
  exact f64ToRat_roundSigned f64Sign_xor_of_mul_ne_zero

theorem f64Sign_fmul (ha : f64Finite a = true) (hb : f64Finite b = true) :
    f64Sign (fmul a b) = (f64Sign a ^^ f64Sign b) := by
  rw [fmul_of_finite ha hb, roundSigned, f64Sign_withSign _ (roundMagnitude_lt _ _ _)]

theorem f64ToRat_fdiv (ha : f64Finite a = true) (hb : f64Finite b = true) (h : f64ToRat b ≠ 0) :
    f64ToRat (fdiv a b) = f64ToRat (fround (f64ToRat a / f64ToRat b)) := by
  rw [fdiv_of_finite ha hb h]
  refine f64ToRat_roundSigned fun hquotient => ?_
  have ha0 : f64ToRat a ≠ 0 := (div_ne_zero_iff.1 hquotient).1
  rw [f64Sign_xor_of_mul_ne_zero (mul_ne_zero ha0 h), decide_eq_decide, mul_neg_iff, div_neg_iff]

/-- A sum of finite patterns that is not an exact zero is the exact sum rounded once (R153). -/
theorem fadd_of_ne_zero (ha : f64Finite a = true) (hb : f64Finite b = true) (h : f64ToRat a + f64ToRat b ≠ 0) :
    fadd a b = fround (f64ToRat a + f64ToRat b) := by
  rw [fadd, ha, hb, Bool.and_self, if_pos rfl, if_neg h]

/-- An exact zero sum is a zero, negative only when both operands have the sign bit set (R153). -/
theorem fadd_of_eq_zero (ha : f64Finite a = true) (hb : f64Finite b = true) (h : f64ToRat a + f64ToRat b = 0) :
    fadd a b = f64WithSign (f64Sign a && f64Sign b) 0 := by
  rw [fadd, ha, hb, Bool.and_self, if_pos rfl, if_pos h]

theorem f64ToRat_fadd (ha : f64Finite a = true) (hb : f64Finite b = true) :
    f64ToRat (fadd a b) = f64ToRat (fround (f64ToRat a + f64ToRat b)) := by
  by_cases h : f64ToRat a + f64ToRat b = 0
  · rw [fadd_of_eq_zero ha hb h, h, worth_fround_zero.value, f64ToRat_withSign _ (by norm_num), patternValue_zero,
      neg_zero, ite_self]
  · rw [fadd_of_ne_zero ha hb h]

/-- An exact zero sum of opposite sign bits is `+0.0` (R153). -/
theorem fadd_of_opposite (ha : f64Finite a = true) (hb : f64Finite b = true) (h : f64ToRat a + f64ToRat b = 0)
    (hs : f64Sign a ≠ f64Sign b) : fadd a b = 0x0000000000000000#64 := by
  have hand : (f64Sign a && f64Sign b) = false := by
    rw [Bool.eq_not.2 hs, Bool.not_and_self]
  rw [fadd_of_eq_zero ha hb h, hand]
  decide

/-- Settles O30: the three operations on finite patterns, subtraction being the sum with the negated operand. -/
theorem operationsRoundTheExactResultOnce : Obligations.OperationsRoundTheExactResultOnce := by
  intro a b ha hb
  have hneg : f64Finite (fneg b) = true := (f64Finite_fneg b).trans hb
  refine ⟨f64ToRat_fadd ha hb, ?_, fadd_of_opposite ha hb, fun h hs => ?_, f64ToRat_fdiv ha hb⟩
  · rw [fsub, f64ToRat_fadd ha hneg, f64ToRat_fneg, sub_eq_add_neg]
  · refine fadd_of_opposite ha hneg (by rw [f64ToRat_fneg, ← sub_eq_add_neg, h]) ?_
    rw [f64Sign_fneg, hs]
    exact (Bool.not_ne_self _).symm

/-! ### Multiplication by a power of two -/

/-- Moving the exponent field of a normal pattern, within the normal range, scales its value by a power of two. -/
theorem patternValue_move_exponent {m m' : Nat} {k : Int} (hm : 2 ^ 52 ≤ m) (hm' : 2 ^ 52 ≤ m')
    (h : (m' : Int) = m + k * 2 ^ 52) : patternValue m' = patternValue m * (2 : ℚ) ^ k := by
  have hexp : ((m' / 2 ^ 52 : Nat) : Int) - 1075 = ((m / 2 ^ 52 : Nat) : Int) - 1075 + k := by omega
  have hfrac : m' % 2 ^ 52 = m % 2 ^ 52 := by omega
  rw [patternValue, patternValue, if_neg (by omega), if_neg (by omega), hexp, hfrac, zpow_add₀ two_ne_zero, mul_assoc]

/-- The product of a normal pattern with a power of two, within the normal range: the sign of the pattern over its
magnitude with the exponent field moved (R154). -/
theorem fmul_pow2 {k : Int} {m' : Nat} (ha : f64Finite a = true) (h1 : -1022 ≤ k) (h2 : k ≤ 1023)
    (hm : 2 ^ 52 ≤ a.toNat % 2 ^ 63) (hm' : 2 ^ 52 ≤ m') (hlt : m' < f64Infinity)
    (h : (m' : Int) = (a.toNat % 2 ^ 63 : Nat) + k * 2 ^ 52) :
    f64ToRat (fmul a (pow2 k)) = f64ToRat a * 2 ^ k ∧ fmul a (pow2 k) = f64WithSign (f64Sign a) m' := by
  have hpow := worth_pow2 h1 h2
  have hm63 : m' < 2 ^ 63 := hlt.trans (by norm_num [f64Infinity])
  have hmoved : f64ToRat (f64WithSign (f64Sign a) m') = f64ToRat a * 2 ^ k := by
    rw [f64ToRat_withSign _ hm63, f64ToRat, f64Magnitude_eq, patternValue_move_exponent hm hm' h, ← neg_mul, ite_mul]
  have hfin : f64Finite (f64WithSign (f64Sign a) m') = true := by
    rw [f64Finite_withSign _ hm63, decide_eq_true hlt]
  have hvalue : f64ToRat (fmul a (pow2 k)) = f64ToRat a * 2 ^ k := by
    rw [f64ToRat_fmul ha hpow.finite, hpow.value, ← hmoved, (Representable.of_finite hfin).f64ToRat_fround]
  refine ⟨hvalue, f64_ext ?_ (hvalue.trans hmoved.symm)⟩
  rw [f64Sign_fmul ha hpow.finite, hpow.sign, Bool.xor_false, f64Sign_withSign _ hm63]

/-- The exponent field of a pattern built from a sign and a magnitude. -/
theorem f64Exponent_withSign (neg : Bool) {m : Nat} (h : m < 2 ^ 63) :
    f64Exponent (f64WithSign neg m) = m / 2 ^ 52 := by
  rw [f64Exponent_eq, f64WithSign_toNat neg h]
  split <;> omega

/-- The fraction of a pattern built from a sign and a magnitude. -/
theorem f64Fraction_withSign (neg : Bool) {m : Nat} (h : m < 2 ^ 63) :
    f64Fraction (f64WithSign neg m) = m % 2 ^ 52 := by
  rw [f64Fraction_eq, f64WithSign_toNat neg h]
  split <;> omega

/-- Settles O31: the product rounded once with its sign, and for a power of two the pattern of `fmul_pow2`. -/
theorem multiplicationByPowerOfTwoIsExact : Obligations.MultiplicationByPowerOfTwoIsExact := by
  refine ⟨fun a b ha hb => ⟨f64ToRat_fmul ha hb, f64Sign_fmul ha hb⟩, fun a k ha h1 h2 hnormal hlow hhigh => ?_⟩
  have hexp := f64Exponent_eq a
  obtain ⟨m', hm'⟩ := Int.eq_ofNat_of_zero_le
    (show 0 ≤ ((a.toNat % 2 ^ 63 : Nat) : Int) + k * 2 ^ 52 by omega)
  have hlt : m' < f64Infinity := by rw [f64Infinity]; omega
  have hm63 : m' < 2 ^ 63 := hlt.trans (by norm_num [f64Infinity])
  obtain ⟨hvalue, hpattern⟩ := fmul_pow2 ha h1 h2 (by omega) (by omega) hlt hm'.symm
  refine ⟨hvalue, ?_, ?_⟩
  · rw [hpattern, f64Fraction_withSign _ hm63, f64Fraction_eq]
    omega
  · rw [hpattern, f64Exponent_withSign _ hm63]
    omega

end Sys2Proof.Machine
end

/-! ## Family 44_binary64_numerics: the operands of the logarithm unit (R162) -/

section
namespace Sys2Proof.Machine

variable {e : F64} {v : ℚ}

/-- The large-range correction applies only to estimates between `T_LARGE` and `2^32` (R120, R121). -/
theorem lt_of_largeRangeApplies (he : Worth e v) (h : largeRangeApplies e = true) :
    f64ToRat tLarge < v ∧ v < 2 ^ 32 := by
  constructor
  · refine lt_of_not_ge fun hle => ?_
    rw [largeRangeApplies_of_le he hle] at h
    exact Bool.false_ne_true h
  · refine lt_of_not_ge fun hge => ?_
    rw [largeRangeApplies_of_ge he hge] at h
    exact Bool.false_ne_true h

/-- Settles O54: the operand of linear counting is `m / zeros` rounded, and the estimate of the large-range correction
lies between `T_LARGE` and `2^32`. -/
theorem logarithmOperandsAreInRange : Obligations.LogarithmOperandsAreInRange := by
  intro s hinv hC zeros e
  have hp := (hinv.scanBounded hC).legal
  have hz : zeros ≤ 2 ^ s.precision := zeroCount_le _ _
  refine ⟨fun happ => ?_, fun happ => ?_⟩
  · obtain ⟨-, h0⟩ := (smallRangeApplies_iff hp zeros s.M).1 happ
    exact ⟨h0, hz, countingOperand_finitePositive hp h0 hz, countingOperand_bounds hp h0 hz⟩
  · obtain ⟨v, he⟩ := worth_smallRange hp s.M
    obtain ⟨hlarge, hv⟩ := lt_of_largeRangeApplies he happ
    obtain ⟨hlow, hhigh⟩ := largeArgument_bounds he hlarge hv
    exact ⟨largeArgument_finitePositive he hlarge hv, hlow, hhigh.trans_lt (by norm_num)⟩

end Sys2Proof.Machine
end

/-! ## Family 44_binary64_numerics: rounding to nearest, ties to even (R151, R152) -/

section
namespace Sys2Proof.Machine

variable {n d : Nat} {q : ℚ} {y : F64}

/-- Rounding a quotient to nearest is off by at most one half, and by exactly one half only to an even number. -/
theorem abs_divNearest_sub_le (n : Nat) (hd : 0 < d) :
    |(divNearest n d : ℚ) - (n : ℚ) / d| ≤ 1 / 2 ∧
      (|(divNearest n d : ℚ) - (n : ℚ) / d| = 1 / 2 → divNearest n d % 2 = 0) := by
  obtain ⟨hbelow, habove, heven⟩ := divNearest_spec n hd
  have hdq : (0 : ℚ) < d := by exact_mod_cast hd
  have hmul : (n : ℚ) / d * d = n := div_mul_cancel₀ _ hdq.ne'
  constructor
  · have hbelow : (2 : ℚ) * n ≤ (2 * divNearest n d + 1) * d := by exact_mod_cast hbelow
    have habove : (2 : ℚ) * (divNearest n d * d) ≤ 2 * n + d := by exact_mod_cast habove
    rw [abs_le]
    constructor <;> refine le_of_mul_le_mul_right ?_ hdq <;> linarith
  · intro hhalf
    refine heven ?_
    obtain h | h := eq_or_eq_neg_of_abs_eq hhalf
    · right
      have : (2 : ℚ) * (divNearest n d * d) = 2 * n + d := by rw [← hmul, sub_eq_iff_eq_add.1 h]; ring
      exact_mod_cast this
    · left
      have : (2 : ℚ) * n = (2 * divNearest n d + 1) * d := by rw [← hmul, sub_eq_iff_eq_add.1 h]; ring
      exact_mod_cast this

/-- The rounded significand is off by at most half a unit in the last place, and by exactly half only when even. -/
theorem abs_roundedSignificand_sub_le (n : Nat) (hd : 0 < d) :
    |roundedSignificand divNearest n d * (2 : ℚ) ^ ulpExponent n d - (n : ℚ) / d| ≤ (2 : ℚ) ^ ulpExponent n d / 2 ∧
      (|roundedSignificand divNearest n d * (2 : ℚ) ^ ulpExponent n d - (n : ℚ) / d| =
          (2 : ℚ) ^ ulpExponent n d / 2 → roundedSignificand divNearest n d % 2 = 0) := by
  have hulp : (0 : ℚ) < (2 : ℚ) ^ ulpExponent n d := by positivity
  have hD : 0 < d * 2 ^ (ulpExponent n d).toNat := by positivity
  obtain ⟨hle, heven⟩ := abs_divNearest_sub_le (n * 2 ^ (-ulpExponent n d).toNat) hD
  rw [← scaled_quotient n d (ulpExponent n d), ← sub_mul, abs_mul, abs_of_pos hulp, div_eq_inv_mul _ (2 : ℚ), ← one_div]
  exact ⟨mul_le_mul_of_nonneg_right hle hulp.le, fun h => heven (mul_right_cancel₀ hulp.ne' h)⟩

/-- A pattern that shares the rounded exponent is worth its significand in units of the last place. -/
theorem patternValue_same_exponent {k : Nat} (h1 : k ≤ 2 ^ 53) (h2 : ulpExponent n d = -1074 ∨ 2 ^ 52 ≤ k) :
    patternValue ((ulpExponent n d + 1074).toNat * 2 ^ 52 + k) = k * (2 : ℚ) ^ ulpExponent n d := by
  have hge := ulpExponent_ge n d
  have hexp : ((ulpExponent n d + 1074).toNat : Int) - 1074 = ulpExponent n d := by omega
  rw [patternValue_of_significand h1 (by omega), hexp]

section
variable (hn : 0 < n) (hd : 0 < d) (hfin : roundMagnitude divNearest n d < f64Infinity)
include hn hfin

/-- The pattern rounding gives where it does not overflow. -/
theorem roundMagnitude_eq_of_finite : roundMagnitude divNearest n d =
    (ulpExponent n d + 1074).toNat * 2 ^ 52 + roundedSignificand divNearest n d := by
  rw [roundMagnitude_eq hn] at hfin ⊢
  omega

include hd

/-- Where rounding goes up, every lower pattern is at least half a unit in the last place away: the significand is not
the least of its binade. -/
theorem half_unit_le_of_lt (hup : (n : ℚ) / d < patternValue (roundMagnitude divNearest n d)) {m : Nat}
    (hm : m < roundMagnitude divNearest n d) :
    (2 : ℚ) ^ ulpExponent n d / 2 ≤ (n : ℚ) / d - patternValue m := by
  obtain ⟨hsig53, hsig52⟩ := roundedSignificand_range divNearest_neighbour hn hd
  have hhalf := (abs_le.1 (abs_roundedSignificand_sub_le n hd).1).2
  rw [roundMagnitude_value divNearest_neighbour hn hd hfin] at hup
  rw [roundMagnitude_eq_of_finite hn hfin] at hm
  obtain ⟨k, hk⟩ : ∃ k, roundedSignificand divNearest n d = k + 1 := by
    refine Nat.exists_eq_succ_of_ne_zero fun h0 => hup.not_ge ?_
    rw [h0, Nat.cast_zero, zero_mul]
    positivity
  have hk52 : ulpExponent n d = -1074 ∨ 2 ^ 52 ≤ k := by
    by_contra hc
    have hleast : k + 1 = 2 ^ 52 := by omega
    rw [hk, hleast] at hup
    refine hup.not_ge ((two_pow_mul_ulp_le hn hd (by omega)).trans_eq' ?_)
    rw [zpow_add₀ two_ne_zero, zpow_ofNat, Nat.cast_pow, Nat.cast_ofNat]
  have hbelow : patternValue m ≤ patternValue ((ulpExponent n d + 1074).toNat * 2 ^ 52 + k) :=
    patternValue_strictMono.monotone (by omega)
  rw [patternValue_same_exponent (by omega) hk52] at hbelow
  rw [hk] at hhalf
  push_cast at hhalf
  linarith

/-- Where rounding goes down, every higher pattern is at least half a unit in the last place away: the significand is
not the carry into the next binade. -/
theorem half_unit_le_of_gt (hdown : patternValue (roundMagnitude divNearest n d) < (n : ℚ) / d) {m : Nat}
    (hm : roundMagnitude divNearest n d < m) :
    (2 : ℚ) ^ ulpExponent n d / 2 ≤ patternValue m - (n : ℚ) / d := by
  obtain ⟨hsig53, hsig52⟩ := roundedSignificand_range divNearest_neighbour hn hd
  have hhalf := (abs_le.1 (abs_roundedSignificand_sub_le n hd).1).1
  rw [roundMagnitude_value divNearest_neighbour hn hd hfin] at hdown
  rw [roundMagnitude_eq_of_finite hn hfin] at hm
  have hlt53 : roundedSignificand divNearest n d < 2 ^ 53 := by
    refine hsig53.lt_of_ne fun hcarry => ?_
    rw [hcarry] at hdown
    refine hdown.not_gt ((lt_two_pow_mul_ulp hn hd).trans_eq ?_)
    rw [zpow_add₀ two_ne_zero, zpow_ofNat, Nat.cast_pow, Nat.cast_ofNat]
  have habove : patternValue ((ulpExponent n d + 1074).toNat * 2 ^ 52 + (roundedSignificand divNearest n d + 1)) ≤
      patternValue m := patternValue_strictMono.monotone (by omega)
  rw [patternValue_same_exponent (by omega) (by omega)] at habove
  push_cast at habove
  linarith

/-- Every other pattern is farther from the quotient than the rounded one, or at least half a unit in the last place
away. -/
theorem nearer_or_half_unit_le {m : Nat} (hm : m ≠ roundMagnitude divNearest n d) :
    |patternValue (roundMagnitude divNearest n d) - (n : ℚ) / d| < |patternValue m - (n : ℚ) / d| ∨
      (2 : ℚ) ^ ulpExponent n d / 2 ≤ |patternValue m - (n : ℚ) / d| := by
  obtain hlt | hgt := lt_or_gt_of_ne hm
  · have hvalue : patternValue m < patternValue (roundMagnitude divNearest n d) := patternValue_strictMono hlt
    obtain hdown | hup := le_or_gt (patternValue (roundMagnitude divNearest n d)) ((n : ℚ) / d)
    · left
      rw [abs_of_nonpos (sub_nonpos.2 hdown), abs_of_neg (sub_neg.2 (hvalue.trans_le hdown))]
      linarith
    · right
      rw [abs_sub_comm]
      exact (half_unit_le_of_lt hn hd hfin hup hlt).trans (le_abs_self _)
  · have hvalue : patternValue (roundMagnitude divNearest n d) < patternValue m := patternValue_strictMono hgt
    obtain hdown | hup := lt_or_ge (patternValue (roundMagnitude divNearest n d)) ((n : ℚ) / d)
    · right
      exact (half_unit_le_of_gt hn hd hfin hdown hgt).trans (le_abs_self _)
    · left
      rw [abs_of_nonneg (sub_nonneg.2 hup), abs_of_pos (sub_pos.2 (hup.trans_lt hvalue))]
      linarith

end

/-- No pattern is nearer to the quotient than the rounded one, and if another is as near then the rounded one is
even. -/
theorem roundMagnitude_nearest (hd : 0 < d) (hfin : roundMagnitude divNearest n d < f64Infinity) {m : Nat}
    (hm : m ≠ roundMagnitude divNearest n d) :
    |patternValue (roundMagnitude divNearest n d) - (n : ℚ) / d| ≤ |patternValue m - (n : ℚ) / d| ∧
      (|patternValue (roundMagnitude divNearest n d) - (n : ℚ) / d| = |patternValue m - (n : ℚ) / d| →
        roundMagnitude divNearest n d % 2 = 0) := by
  obtain rfl | hn := n.eq_zero_or_pos
  · simp [roundMagnitude]
  obtain ⟨hhalf, heven⟩ := abs_roundedSignificand_sub_le n hd
  rw [← roundMagnitude_value divNearest_neighbour hn hd hfin] at hhalf heven
  obtain hlt | hfar := nearer_or_half_unit_le hn hd hfin hm
  · exact ⟨hlt.le, fun h => absurd h hlt.ne⟩
  · refine ⟨hhalf.trans hfar, fun h => ?_⟩
    have := heven (le_antisymm hhalf (h ▸ hfar))
    rw [roundMagnitude_eq_of_finite hn hfin]
    omega

/-- The magnitude of a finite rounding does not overflow. -/
theorem roundMagnitude_lt_of_finite {round : Nat → Nat → Nat} (hfin : f64Finite (roundWith round q) = true) :
    roundMagnitude round q.num.natAbs q.den < f64Infinity := by
  rwa [roundWith, f64Finite_withSign _ (roundMagnitude_lt _ _ _), decide_eq_true_eq] at hfin

/-- The value of `fround` is off by as much as its magnitude. -/
theorem abs_fround_sub (q : ℚ) : |f64ToRat (fround q) - q| =
    |patternValue (roundMagnitude divNearest q.num.natAbs q.den) - (q.num.natAbs : ℚ) / q.den| := by
  rw [f64ToRat_fround, natAbs_num_div_den]
  split
  · rename_i hneg
    rw [abs_of_neg hneg, sub_neg_eq_add, ← abs_neg, neg_sub, sub_neg_eq_add, add_comm]
  · rename_i hnonneg
    rw [abs_of_nonneg (not_lt.1 hnonneg)]

/-- The magnitudes of two values are no farther apart than the values. -/
theorem abs_patternValue_sub_le (y : F64) (q : ℚ) :
    |patternValue (y.toNat % 2 ^ 63) - (q.num.natAbs : ℚ) / q.den| ≤ |f64ToRat y - q| := by
  rw [natAbs_num_div_den, ← f64Magnitude_eq, ← abs_f64ToRat]
  exact abs_abs_sub_abs_le _ _

/-- `fround` gives a nearest binary64 value, where it does not overflow. -/
theorem fround_nearest (hfin : f64Finite (fround q) = true) (y : F64) :
    |f64ToRat (fround q) - q| ≤ |f64ToRat y - q| := by
  rw [abs_fround_sub]
  refine le_trans ?_ (abs_patternValue_sub_le y q)
  by_cases hm : y.toNat % 2 ^ 63 = roundMagnitude divNearest q.num.natAbs q.den
  · rw [hm]
  · exact (roundMagnitude_nearest q.den_pos (roundMagnitude_lt_of_finite hfin) hm).1

/-- Two opposite values that are not 0 are equally far from 0 alone. -/
theorem eq_zero_of_abs_sub_eq_abs_neg_sub {v : ℚ} (h : |v - q| = |-v - q|) (hv : v ≠ 0) : q = 0 := by
  obtain h | h := abs_eq_abs.1 h
  · exact absurd (by linarith) hv
  · linarith

/-- On a tie `fround` gives the value whose fraction is even. -/
theorem fround_even_of_tie (hfin : f64Finite (fround q) = true)
    (htie : |f64ToRat (fround q) - q| = |f64ToRat y - q|) (hne : f64ToRat y ≠ f64ToRat (fround q)) :
    f64Fraction (fround q) % 2 = 0 := by
  suffices heven : roundMagnitude divNearest q.num.natAbs q.den % 2 = 0 by
    rw [fround, roundSigned, f64Fraction_withSign _ (roundMagnitude_lt _ _ _)]
    omega
  by_cases hm : y.toNat % 2 ^ 63 = roundMagnitude divNearest q.num.natAbs q.den
  · have habs : |f64ToRat y| = |f64ToRat (fround q)| := by
      rw [abs_f64ToRat, abs_f64ToRat, f64Magnitude_eq, hm, fround, roundSigned,
        f64Magnitude_withSign _ (roundMagnitude_lt _ _ _)]
    have hopposite := (abs_eq_abs.1 habs).resolve_left hne
    have hv : f64ToRat (fround q) ≠ 0 := fun h0 => hne (by rw [hopposite, h0, neg_zero])
    rw [hopposite] at htie
    rw [eq_zero_of_abs_sub_eq_abs_neg_sub htie hv]
    decide
  · obtain ⟨hle, heven⟩ := roundMagnitude_nearest q.den_pos (roundMagnitude_lt_of_finite hfin) hm
    refine heven (le_antisymm hle ?_)
    rw [← abs_fround_sub, htie]
    exact abs_patternValue_sub_le y q

/-- The greatest finite value (R150). -/
theorem representable_greatest : Representable ((2 ^ 53 - 1) * 2 ^ 971) := by
  have hrep : Representable ((2 ^ 53 - 1 : Nat) : ℚ) := .natCast (Nat.sub_le _ _)
  have hlt : |((2 : ℚ) ^ 53 - 1)| * 2 ^ 971 < 2 ^ 53 * 2 ^ 971 := by
    gcongr
    norm_num [abs_of_pos]
  exact Representable.mul_two_pow (by exact_mod_cast hrep) 971 (hlt.trans_eq (pow_add 2 53 971).symm)

/-- Settles O29: the nearest value and its parity, and the constants evaluate. -/
theorem roundingIsToNearestEven : Obligations.RoundingIsToNearestEven := by
  refine ⟨fun q hq => ?_, ?_⟩
  · have hfin : f64Finite (fround q) = true := representable_greatest.f64Finite_fround (hq.trans (le_abs_self _))
    exact ⟨hfin, fun y _ => ⟨fround_nearest hfin y, fround_even_of_tie hfin⟩⟩
  · decide +kernel

end Sys2Proof.Machine
end

/-! ## Family 44_binary64_numerics: rounding down and up, and the spacing of values (R150, R160) -/

section
namespace Sys2Proof.Machine

variable {n d : Nat} {r s u v : ℚ} {x y : F64}

/-! ### The neighbours of a rational -/

theorem roundMagnitude_divDown_le (hd : 0 < d) (hfin : roundMagnitude divDown n d < f64Infinity) :
    patternValue (roundMagnitude divDown n d) ≤ (n : ℚ) / d := by
  obtain rfl | hn := n.eq_zero_or_pos
  · simp [roundMagnitude]
  have hD : 0 < d * 2 ^ (ulpExponent n d).toNat := by positivity
  rw [roundMagnitude_value divDown_neighbour hn hd hfin, ← scaled_quotient n d (ulpExponent n d)]
  refine mul_le_mul_of_nonneg_right ?_ (by positivity)
  rw [le_div_iff₀ (by exact_mod_cast hD)]
  exact_mod_cast divDown_mul_le (n * 2 ^ (-ulpExponent n d).toNat) _

theorem le_roundMagnitude_divUp (hd : 0 < d) (hfin : roundMagnitude divUp n d < f64Infinity) :
    (n : ℚ) / d ≤ patternValue (roundMagnitude divUp n d) := by
  obtain rfl | hn := n.eq_zero_or_pos
  · simp [roundMagnitude]
  have hD : 0 < d * 2 ^ (ulpExponent n d).toNat := by positivity
  rw [roundMagnitude_value divUp_neighbour hn hd hfin, ← scaled_quotient n d (ulpExponent n d)]
  refine mul_le_mul_of_nonneg_right ?_ (by positivity)
  rw [div_le_iff₀ (by exact_mod_cast hD)]
  exact_mod_cast le_divUp_mul (n * 2 ^ (-ulpExponent n d).toNat) hD

/-- `froundDown` does not rise above its argument. -/
theorem froundDown_le (hfin : f64Finite (froundDown r) = true) : f64ToRat (froundDown r) ≤ r := by
  have hmag := roundMagnitude_lt_of_finite (q := r) hfin
  have hvalue := f64ToRat_roundWith (if r < 0 then divUp else divDown) r
  refine hvalue.trans_le ?_
  by_cases hneg : r < 0
  · rw [if_pos hneg] at hmag ⊢
    have h := le_roundMagnitude_divUp r.den_pos hmag
    rw [natAbs_num_div_den, abs_of_neg hneg] at h
    rw [if_pos hneg]
    linarith
  · rw [if_neg hneg] at hmag ⊢
    have h := roundMagnitude_divDown_le r.den_pos hmag
    rw [natAbs_num_div_den, abs_of_nonneg (not_lt.1 hneg)] at h
    rwa [if_neg hneg]

/-- `froundUp` does not fall below its argument. -/
theorem le_froundUp (hfin : f64Finite (froundUp r) = true) : r ≤ f64ToRat (froundUp r) := by
  have hmag := roundMagnitude_lt_of_finite (q := r) hfin
  have hvalue := f64ToRat_roundWith (if r < 0 then divDown else divUp) r
  refine hvalue.trans_ge ?_
  by_cases hneg : r < 0
  · rw [if_pos hneg] at hmag ⊢
    have h := roundMagnitude_divDown_le r.den_pos hmag
    rw [natAbs_num_div_den, abs_of_neg hneg] at h
    rw [if_pos hneg]
    linarith
  · rw [if_neg hneg] at hmag ⊢
    have h := le_roundMagnitude_divUp r.den_pos hmag
    rw [natAbs_num_div_den, abs_of_nonneg (not_lt.1 hneg)] at h
    rwa [if_neg hneg]

/-- `froundDown` is the greatest binary64 value that is at most its argument. -/
theorem Representable.le_froundDown_iff (hv : Representable v) (hfin : f64Finite (froundDown r) = true) :
    v ≤ f64ToRat (froundDown r) ↔ v ≤ r := by
  refine ⟨fun h => h.trans (froundDown_le hfin), fun h => ?_⟩
  obtain ⟨round, hr, heq⟩ := froundDown_eq_roundWith r
  exact heq ▸ hv.le_roundWith hr h

/-- `froundUp` is the least binary64 value that is at least its argument. -/
theorem Representable.froundUp_le_iff (hv : Representable v) (hfin : f64Finite (froundUp r) = true) :
    f64ToRat (froundUp r) ≤ v ↔ r ≤ v := by
  refine ⟨fun h => (le_froundUp hfin).trans h, fun h => ?_⟩
  obtain ⟨round, hr, heq⟩ := froundUp_eq_roundWith r
  exact heq ▸ hv.roundWith_le hr h

/-- Rounding to nearest is monotone: two values that it takes past each other would both lie in one gap, and each be
nearer to the other's argument. -/
theorem fround_mono (hr : f64Finite (fround r) = true) (hs : f64Finite (fround s) = true) (h : r ≤ s) :
    f64ToRat (fround r) ≤ f64ToRat (fround s) := by
  obtain rfl | hlt := h.eq_or_lt
  · rfl
  by_contra hcross
  rw [not_le] at hcross
  have hlow : f64ToRat (fround s) < r :=
    lt_of_not_ge fun hle => hcross.not_ge ((Representable.of_finite hs).fround_le hle)
  have hhigh : s < f64ToRat (fround r) :=
    lt_of_not_ge fun hle => hcross.not_ge ((Representable.of_finite hr).le_fround hle)
  have hnear1 := fround_nearest hr (fround s)
  have hnear2 := fround_nearest hs (fround r)
  rw [abs_of_pos (by linarith), abs_of_neg (by linarith)] at hnear1
  rw [abs_of_neg (by linarith), abs_of_pos (by linarith)] at hnear2
  linarith

/-! ### The spacing of values -/

/-- A value of at least `2^-55` in magnitude is a whole number of units `2^-108`. -/
theorem Representable.exists_units (h : Representable v) (hv : 1 / 2 ^ 55 ≤ |v|) :
    ∃ m : Int, v = m * (2 : ℚ) ^ (-108 : Int) := by
  obtain ⟨n, k, hn, -, hval, -⟩ := h
  have hk : -108 ≤ k := by
    by_contra hc
    refine hv.not_gt (hval.trans_lt ?_)
    calc (n : ℚ) * (2 : ℚ) ^ k
      _ ≤ 2 ^ (53 : Nat) * (2 : ℚ) ^ k := by gcongr; exact_mod_cast hn
      _ = (2 : ℚ) ^ (53 + k) := by rw [zpow_add₀ two_ne_zero, zpow_ofNat]
      _ < (2 : ℚ) ^ (-55 : Int) := zpow_lt_zpow_right₀ one_lt_two (by omega)
      _ = 1 / 2 ^ 55 := by norm_num
  obtain ⟨j, rfl⟩ : ∃ j : Nat, k = j + -108 := ⟨(k + 108).toNat, by omega⟩
  have hunits : |v| = ((n * 2 ^ j : Nat) : Int) * (2 : ℚ) ^ (-108 : Int) := by
    rw [hval, zpow_add₀ two_ne_zero, zpow_natCast]
    push_cast
    ring
  obtain hsign | hsign := abs_choice v
  · exact ⟨_, hsign ▸ hunits⟩
  · refine ⟨-((n * 2 ^ j : Nat) : Int), ?_⟩
    rw [Int.cast_neg, neg_mul, ← hunits, hsign, neg_neg]

/-- Two values of at least `2^-55` in magnitude that are closer than `2^-108` are equal. -/
theorem Representable.eq_of_near (hu : Representable u) (hv : Representable v) (hu0 : 1 / 2 ^ 55 ≤ |u|)
    (hv0 : 1 / 2 ^ 55 ≤ |v|) (hnear : |u - v| < 1 / 2 ^ 108) : u = v := by
  obtain ⟨m, rfl⟩ := hu.exists_units hu0
  obtain ⟨m', rfl⟩ := hv.exists_units hv0
  have hunit : (2 : ℚ) ^ (-108 : Int) = 1 / 2 ^ 108 := by norm_num
  have hpos : (0 : ℚ) < 1 / 2 ^ 108 := by positivity
  rw [← sub_mul, hunit, abs_mul, abs_of_pos hpos, mul_lt_iff_lt_one_left hpos] at hnear
  have hzero : m - m' = 0 := Int.abs_lt_one_iff.1 (by exact_mod_cast hnear)
  rw [sub_eq_zero.1 hzero]

/-- A magnitude pattern is worth at least `1 + 2^-53` times the one before it. -/
theorem patternValue_succ_ge (m : Nat) : patternValue m * (1 + 1 / 2 ^ 53) ≤ patternValue (m + 1) := by
  obtain ⟨e, sig, rfl, h1, h2⟩ := exists_significand m
  have hsig : (sig : ℚ) * (1 + 1 / 2 ^ 53) ≤ ((sig + 1 : Nat) : ℚ) := by
    have : (sig : ℚ) ≤ 2 ^ 53 := by exact_mod_cast h1.le
    push_cast
    linarith
  rw [add_assoc, patternValue_of_significand h1.le h2,
    patternValue_of_significand (sig := sig + 1) h1 (by omega), mul_right_comm]
  gcongr

/-- Finite positive patterns are ordered as their values. -/
theorem toNat_lt_of_f64ToRat_lt (hx : f64FinitePositive x = true) (hy : f64FinitePositive y = true)
    (hlt : f64ToRat x < f64ToRat y) : x.toNat < y.toNat := by
  obtain ⟨hwx, -⟩ := f64FinitePositive_iff_worth.1 hx
  obtain ⟨hwy, -⟩ := f64FinitePositive_iff_worth.1 hy
  rwa [← hwx.patternValue_eq, ← hwy.patternValue_eq, patternValue_strictMono.lt_iff_lt] at hlt

/-- The real logarithms of different operands are at least `2^-54` apart. -/
theorem log_add_le_of_lt (hx : f64FinitePositive x = true) (hy : f64FinitePositive y = true)
    (hlt : f64ToRat x < f64ToRat y) :
    Real.log (f64ToRat x : ℝ) + 1 / 2 ^ 54 ≤ Real.log (f64ToRat y : ℝ) := by
  obtain ⟨hwx, hx0⟩ := f64FinitePositive_iff_worth.1 hx
  obtain ⟨hwy, -⟩ := f64FinitePositive_iff_worth.1 hy
  have hratio : f64ToRat x * (1 + 1 / 2 ^ 53) ≤ f64ToRat y := by
    rw [← hwx.patternValue_eq, ← hwy.patternValue_eq]
    exact (patternValue_succ_ge _).trans (patternValue_strictMono.monotone (toNat_lt_of_f64ToRat_lt hx hy hlt))
  have hx0 : (0 : ℝ) < f64ToRat x := by exact_mod_cast hx0
  have hratio : (f64ToRat x : ℝ) * (1 + 1 / 2 ^ 53) ≤ f64ToRat y := by
    have := (Rat.cast_le (K := ℝ)).2 hratio
    push_cast at this
    exact this
  calc Real.log (f64ToRat x : ℝ) + 1 / 2 ^ 54
    _ ≤ Real.log (f64ToRat x : ℝ) + Real.log (1 + 1 / 2 ^ 53) := by
      have hlog := Real.one_sub_inv_le_log_of_pos (x := 1 + 1 / 2 ^ 53) (by positivity)
      norm_num at hlog ⊢
      linarith
    _ = Real.log ((f64ToRat x : ℝ) * (1 + 1 / 2 ^ 53)) := (Real.log_mul hx0.ne' (by positivity)).symm
    _ ≤ Real.log (f64ToRat y : ℝ) := Real.log_le_log (by positivity) hratio

end Sys2Proof.Machine
end

/-! ## Family 44_binary64_numerics: the logarithm units conform (R159 to R161) -/

section
namespace Sys2Proof.Machine

variable {round : Nat → Nat → Nat} {r v : ℚ} {x y : F64}

/-! ### The enclosure of a logarithm -/

/-- The rationals between the two ends of the enclosure of `ln x`. -/
def InEnclosure (x : F64) (r : ℚ) : Prop := lnUnits (lnLow x) ≤ r ∧ r ≤ lnUnits (lnHigh x)

/-- The real logarithm lies in its enclosure. -/
theorem log_mem_enclosure (h : f64FinitePositive x = true) :
    ((lnUnits (lnLow x) : ℚ) : ℝ) ≤ Real.log (f64ToRat x : ℝ) ∧
      Real.log (f64ToRat x : ℝ) ≤ ((lnUnits (lnHigh x) : ℚ) : ℝ) := by
  obtain ⟨hlow, hhigh⟩ := ln_enclosure h
  have hscale : (0 : ℝ) < 2 ^ lnScale := by positivity
  rw [lnUnits_eq, lnUnits_eq]
  push_cast
  exact ⟨(div_le_iff₀' hscale).2 hlow, (le_div_iff₀' hscale).2 hhigh⟩

theorem lnLow_le_lnHigh (h : f64FinitePositive x = true) : lnLow x ≤ lnHigh x := by
  obtain ⟨hlow, hhigh⟩ := ln_enclosure h
  exact_mod_cast hlow.trans hhigh

theorem lnUnits_lnLow_le_lnHigh (h : f64FinitePositive x = true) : lnUnits (lnLow x) ≤ lnUnits (lnHigh x) := by
  obtain ⟨hlow, hhigh⟩ := log_mem_enclosure h
  exact_mod_cast hlow.trans hhigh

theorem inEnclosure_low (h : f64FinitePositive x = true) : InEnclosure x (lnUnits (lnLow x)) :=
  ⟨le_rfl, lnUnits_lnLow_le_lnHigh h⟩

theorem inEnclosure_high (h : f64FinitePositive x = true) : InEnclosure x (lnUnits (lnHigh x)) :=
  ⟨lnUnits_lnLow_le_lnHigh h, le_rfl⟩

/-- The enclosure is far narrower than the spacing of values around a logarithm. -/
theorem enclosure_width_lt (h : f64FinitePositive x = true) :
    lnUnits (lnHigh x) - lnUnits (lnLow x) < 1 / 2 ^ 200 := by
  have hwidth : (lnHigh x : ℚ) - lnLow x < 2 ^ 18 := by
    have : (lnHigh x : ℚ) < lnLow x + 2 ^ 18 := by exact_mod_cast lnHigh_lt h
    linarith
  rw [lnUnits_eq, lnUnits_eq, ← sub_div, div_lt_div_iff₀ (by positivity) (by positivity), one_mul, lnScale]
  calc ((lnHigh x : ℚ) - lnLow x) * 2 ^ 200
    _ < 2 ^ 18 * 2 ^ 200 := mul_lt_mul_of_pos_right hwidth (by positivity)
    _ ≤ 2 ^ 320 := by rw [← pow_add]; exact pow_le_pow_right₀ one_le_two (by decide)

/-- What lies in the enclosure is within `2^-200` of the real logarithm. -/
theorem InEnclosure.abs_sub_log_lt (h : f64FinitePositive x = true) (hr : InEnclosure x r) :
    |(r : ℝ) - Real.log (f64ToRat x : ℝ)| < 1 / 2 ^ 200 := by
  obtain ⟨hlow, hhigh⟩ := log_mem_enclosure h
  have hwidth := (Rat.cast_lt (K := ℝ)).2 (enclosure_width_lt h)
  have hr1 := (Rat.cast_le (K := ℝ)).2 hr.1
  have hr2 := (Rat.cast_le (K := ℝ)).2 hr.2
  push_cast at hwidth
  rw [abs_lt]
  constructor <;> linarith

/-- The enclosures of different operands do not meet. -/
theorem lnUnits_lnHigh_lt_lnLow (hx : f64FinitePositive x = true) (hy : f64FinitePositive y = true)
    (hlt : f64ToRat x < f64ToRat y) : lnUnits (lnHigh x) < lnUnits (lnLow y) := by
  have hlog := log_add_le_of_lt hx hy hlt
  have hhigh := (abs_lt.1 ((inEnclosure_high hx).abs_sub_log_lt hx)).2
  have hlow := (abs_lt.1 ((inEnclosure_low hy).abs_sub_log_lt hy)).1
  exact (Rat.cast_lt (K := ℝ)).1 (by linarith)

/-- The pattern of 1 is an operand of the logarithm. -/
theorem f64FinitePositive_one : f64FinitePositive 0x3FF0000000000000#64 = true := by decide

/-- The real logarithm of the pattern of 1 is 0. -/
theorem log_one_pattern : Real.log (f64ToRat 0x3FF0000000000000#64 : ℝ) = 0 := by
  rw [worth_one.value, Rat.cast_one, Real.log_one]

/-- Above 1 the enclosure is clear above 0. -/
theorem InEnclosure.ge_of_one_lt (h : f64FinitePositive x = true) (h1 : 1 < f64ToRat x) (hr : InEnclosure x r) :
    1 / 2 ^ 55 ≤ r := by
  have hlog := log_add_le_of_lt f64FinitePositive_one h (worth_one.value.trans_lt h1)
  have hnear := (abs_lt.1 (hr.abs_sub_log_lt h)).1
  rw [log_one_pattern, zero_add] at hlog
  refine (Rat.cast_le (K := ℝ)).1 ?_
  push_cast
  linarith

/-- Below 1 the enclosure is clear below 0. -/
theorem InEnclosure.le_of_lt_one (h : f64FinitePositive x = true) (h1 : f64ToRat x < 1) (hr : InEnclosure x r) :
    r ≤ -(1 / 2 ^ 55) := by
  have hlog := log_add_le_of_lt h f64FinitePositive_one (h1.trans_eq worth_one.value.symm)
  have hnear := (abs_lt.1 (hr.abs_sub_log_lt h)).2
  rw [log_one_pattern] at hlog
  refine (Rat.cast_le (K := ℝ)).1 ?_
  push_cast
  linarith

/-- A finite positive operand other than the pattern of 1 is worth less or more than 1. -/
theorem lt_or_gt_one (h : f64FinitePositive x = true) (hx : x ≠ 0x3FF0000000000000#64) :
    f64ToRat x < 1 ∨ 1 < f64ToRat x :=
  lt_or_gt_of_ne fun h1 => hx (((f64FinitePositive_iff_worth.1 h).1.congr h1).unique worth_one)

/-- Away from 1 the enclosure is clear of 0. -/
theorem InEnclosure.abs_ge (h : f64FinitePositive x = true) (hx : x ≠ 0x3FF0000000000000#64)
    (hr : InEnclosure x r) : 1 / 2 ^ 55 ≤ |r| := by
  obtain h1 | h1 := lt_or_gt_one h hx
  · exact le_abs'.2 (.inl (hr.le_of_lt_one h h1))
  · exact le_abs'.2 (.inr (hr.ge_of_one_lt h h1))

/-! ### Rounding what lies in the enclosure -/

/-- Rounding what lies in the enclosure does not overflow. -/
theorem InEnclosure.f64Finite_roundWith (h : f64FinitePositive x = true) (hround : RoundsToNeighbour round)
    (hr : InEnclosure x r) : f64Finite (roundWith round r) = true := by
  have hlow := (abs_le.1 (abs_lnUnits_le h le_rfl (lnLow_le_lnHigh h))).1
  have hhigh := (abs_le.1 (abs_lnUnits_le h (lnLow_le_lnHigh h) le_rfl)).2
  refine representable_1075.f64Finite_roundWith hround ?_
  rw [abs_of_pos (by norm_num : (0 : ℚ) < 1075), abs_le]
  exact ⟨hlow.trans hr.1, hr.2.trans hhigh⟩

/-- Away from 1, rounding what lies in the enclosure gives a value clear of 0. -/
theorem InEnclosure.abs_roundWith_ge (h : f64FinitePositive x = true) (hx : x ≠ 0x3FF0000000000000#64)
    (hround : RoundsToNeighbour round) (hr : InEnclosure x r) : 1 / 2 ^ 55 ≤ |f64ToRat (roundWith round r)| := by
  have hrep : Representable (1 / 2 ^ 55) := representable_one.div_two_pow (by norm_num) (by norm_num)
  obtain h1 | h1 := lt_or_gt_one h hx
  · exact le_abs'.2 (.inl (hrep.neg.roundWith_le hround (hr.le_of_lt_one h h1)))
  · exact le_abs'.2 (.inr (hrep.le_roundWith hround (hr.ge_of_one_lt h h1)))

/-- `v` rounds the enclosure of `ln x` to one of the values around it: no value that lies below the enclosure is above
`v`, none that lies above it is below `v`, and no value but `v` lies in it. -/
structure RoundsEnclosure (x : F64) (v : ℚ) : Prop where
  le_of_le_low : ∀ u, Representable u → u ≤ lnUnits (lnLow x) → u ≤ v
  ge_of_high_le : ∀ u, Representable u → lnUnits (lnHigh x) ≤ u → v ≤ u
  eq_of_mem : ∀ u, Representable u → InEnclosure x u → u = v

/-- A rounding of some rational of the enclosure rounds the enclosure, if it is near to every value in the enclosure:
values there are too far apart for a second one. -/
theorem InEnclosure.roundsEnclosure (h : f64FinitePositive x = true) (hx : x ≠ 0x3FF0000000000000#64)
    (hround : RoundsToNeighbour round) (hr : InEnclosure x r)
    (hnear : ∀ u, Representable u → InEnclosure x u → |u - f64ToRat (roundWith round r)| < 1 / 2 ^ 108) :
    RoundsEnclosure x (f64ToRat (roundWith round r)) where
  le_of_le_low _ hu hlow := hu.le_roundWith hround (hlow.trans hr.1)
  ge_of_high_le _ hu hhigh := hu.roundWith_le hround (hr.2.trans hhigh)
  eq_of_mem u hu hmem := hu.eq_of_near (.of_finite (hr.f64Finite_roundWith h hround)) (hmem.abs_ge h hx)
    (hr.abs_roundWith_ge h hx hround) (hnear u hu hmem)

/-- No binary64 value lies between the rounded enclosure and the real logarithm (R160 (a)). -/
theorem RoundsEnclosure.faithful (h : f64FinitePositive x = true) (hv : RoundsEnclosure x v) {u : ℚ}
    (hu : Representable u) (hne : u ≠ v) :
    ¬((v : ℝ) ≤ u ∧ (u : ℝ) ≤ Real.log (f64ToRat x : ℝ)) ∧ ¬(Real.log (f64ToRat x : ℝ) ≤ u ∧ (u : ℝ) ≤ v) := by
  obtain ⟨hlow, hhigh⟩ := log_mem_enclosure h
  constructor
  · rintro ⟨hvu, hlog⟩
    have hvu : v ≤ u := by exact_mod_cast hvu
    have huhigh : u ≤ lnUnits (lnHigh x) := by exact_mod_cast hlog.trans hhigh
    obtain hle | hge := le_total u (lnUnits (lnLow x))
    · exact hne (le_antisymm (hv.le_of_le_low u hu hle) hvu)
    · exact hne (hv.eq_of_mem u hu ⟨hge, huhigh⟩)
  · rintro ⟨hlog, huv⟩
    have huv : u ≤ v := by exact_mod_cast huv
    have hulow : lnUnits (lnLow x) ≤ u := by exact_mod_cast hlow.trans hlog
    obtain hle | hge := le_total u (lnUnits (lnHigh x))
    · exact hne (hv.eq_of_mem u hu ⟨hulow, hle⟩)
    · exact hne (le_antisymm huv (hv.ge_of_high_le u hu hge))

/-- Above 1 the rounded enclosure is positive (R160 (b)). -/
theorem RoundsEnclosure.pos (h : f64FinitePositive x = true) (hv : RoundsEnclosure x v) (h1 : 1 < f64ToRat x) :
    0 < v := by
  have hrep : Representable (1 / 2 ^ 55) := representable_one.div_two_pow (by norm_num) (by norm_num)
  have hle := hv.le_of_le_low _ hrep ((inEnclosure_low h).ge_of_one_lt h h1)
  exact lt_of_lt_of_le (by norm_num) hle

/-- Below 1 the rounded enclosure is negative (R160 (b)). -/
theorem RoundsEnclosure.neg (h : f64FinitePositive x = true) (hv : RoundsEnclosure x v) (h1 : f64ToRat x < 1) :
    v < 0 := by
  have hrep : Representable (1 / 2 ^ 55) := representable_one.div_two_pow (by norm_num) (by norm_num)
  have hle := hv.ge_of_high_le _ hrep.neg ((inEnclosure_high h).le_of_lt_one h h1)
  exact lt_of_le_of_lt hle (by norm_num)

/-! ### Conformance from the rounded enclosure -/

/-- A logarithm unit conforms if it answers `+0.0` at 1 and elsewhere rounds the enclosure monotonically. -/
theorem conformingLn_of_roundsEnclosure {ln : F64 → F64}
    (hone : ln 0x3FF0000000000000#64 = 0x0000000000000000#64)
    (hfin : ∀ x, f64FinitePositive x = true → f64Finite (ln x) = true)
    (hround : ∀ x, f64FinitePositive x = true → x ≠ 0x3FF0000000000000#64 → RoundsEnclosure x (f64ToRat (ln x)))
    (hmono : ∀ x y, f64FinitePositive x = true → f64FinitePositive y = true → x ≠ 0x3FF0000000000000#64 →
      y ≠ 0x3FF0000000000000#64 → f64ToRat x < f64ToRat y → f64ToRat (ln x) ≤ f64ToRat (ln y)) :
    ConformingLn ln := by
  have hzero : f64ToRat (ln 0x3FF0000000000000#64) = 0 := by rw [hone, worth_zero.value]
  have hsign (x : F64) (h : f64FinitePositive x = true) :
      (1 < f64ToRat x → 0 < f64ToRat (ln x)) ∧ (f64ToRat x < 1 → f64ToRat (ln x) < 0) := by
    have hx (h1 : f64ToRat x ≠ 1) : x ≠ 0x3FF0000000000000#64 := fun he => h1 (he ▸ worth_one.value)
    exact ⟨fun h1 => (hround x h (hx h1.ne')).pos h h1, fun h1 => (hround x h (hx h1.ne)).neg h h1⟩
  refine ⟨hone, hfin, fun x h y hy hne => ?_, hsign, fun x y hx hy hle => ?_⟩
  · obtain rfl | h1 := eq_or_ne x 0x3FF0000000000000#64
    · rw [hzero] at hne ⊢
      rw [log_one_pattern, Rat.cast_zero]
      have hne : (f64ToRat y : ℝ) ≠ 0 := by exact_mod_cast hne
      exact ⟨fun h => hne (le_antisymm h.2 h.1), fun h => hne (le_antisymm h.2 h.1)⟩
    · exact (hround x h h1).faithful h (.of_finite hy) hne
  · obtain heq | hlt := hle.eq_or_lt
    · obtain ⟨hwx, -⟩ := f64FinitePositive_iff_worth.1 hx
      obtain ⟨hwy, -⟩ := f64FinitePositive_iff_worth.1 hy
      rw [hwx.unique (hwy.congr heq.symm)]
    · obtain rfl | hx1 := eq_or_ne x 0x3FF0000000000000#64
      · rw [hzero]
        exact ((hsign y hy).1 (worth_one.value ▸ hlt)).le
      · obtain rfl | hy1 := eq_or_ne y 0x3FF0000000000000#64
        · rw [hzero]
          exact ((hsign x hx).2 (worth_one.value ▸ hlt)).le
        · exact hmono x y hx hy hx1 hy1 hlt

end Sys2Proof.Machine
end

/-! ## Family 44_binary64_numerics: the engine's logarithm unit and the reference one (R159 to R161) -/

section
namespace Sys2Proof.Machine

variable {v : ℚ} {x y : F64}

/-! ### The value below and the value above the logarithm -/

theorem lnBelow_eq_roundWith (x : F64) :
    ∃ round, RoundsToNeighbour round ∧ lnBelow x = roundWith round (lnUnits (lnHigh x)) :=
  froundDown_eq_roundWith _

theorem lnAbove_eq_roundWith (x : F64) :
    ∃ round, RoundsToNeighbour round ∧ lnAbove x = roundWith round (lnUnits (lnLow x)) :=
  froundUp_eq_roundWith _

theorem f64Finite_lnBelow (h : f64FinitePositive x = true) : f64Finite (lnBelow x) = true := by
  obtain ⟨round, hr, heq⟩ := lnBelow_eq_roundWith x
  exact heq ▸ (inEnclosure_high h).f64Finite_roundWith h hr

theorem f64Finite_lnAbove (h : f64FinitePositive x = true) : f64Finite (lnAbove x) = true := by
  obtain ⟨round, hr, heq⟩ := lnAbove_eq_roundWith x
  exact heq ▸ (inEnclosure_low h).f64Finite_roundWith h hr

theorem Representable.le_lnBelow_iff (hv : Representable v) (h : f64FinitePositive x = true) :
    v ≤ f64ToRat (lnBelow x) ↔ v ≤ lnUnits (lnHigh x) := hv.le_froundDown_iff (f64Finite_lnBelow h)

theorem Representable.lnAbove_le_iff (hv : Representable v) (h : f64FinitePositive x = true) :
    f64ToRat (lnAbove x) ≤ v ↔ lnUnits (lnLow x) ≤ v := hv.froundUp_le_iff (f64Finite_lnAbove h)

theorem lnBelow_le (h : f64FinitePositive x = true) : f64ToRat (lnBelow x) ≤ lnUnits (lnHigh x) :=
  froundDown_le (f64Finite_lnBelow h)

theorem le_lnAbove (h : f64FinitePositive x = true) : lnUnits (lnLow x) ≤ f64ToRat (lnAbove x) :=
  le_froundUp (f64Finite_lnAbove h)

theorem roundsEnclosure_lnBelow (h : f64FinitePositive x = true) (hx : x ≠ 0x3FF0000000000000#64) :
    RoundsEnclosure x (f64ToRat (lnBelow x)) := by
  obtain ⟨round, hr, heq⟩ := lnBelow_eq_roundWith x
  rw [heq]
  refine (inEnclosure_high h).roundsEnclosure h hx hr fun u hu hmem => ?_
  have hle := (hu.le_lnBelow_iff h).2 hmem.2
  have hhigh := lnBelow_le h
  have hwidth := enclosure_width_lt h
  rw [← heq, abs_of_nonpos (sub_nonpos.2 hle)]
  linarith [hmem.1]

theorem roundsEnclosure_lnAbove (h : f64FinitePositive x = true) (hx : x ≠ 0x3FF0000000000000#64) :
    RoundsEnclosure x (f64ToRat (lnAbove x)) := by
  obtain ⟨round, hr, heq⟩ := lnAbove_eq_roundWith x
  rw [heq]
  refine (inEnclosure_low h).roundsEnclosure h hx hr fun u hu hmem => ?_
  have hge := (hu.lnAbove_le_iff h).2 hmem.1
  have hlow := le_lnAbove h
  have hwidth := enclosure_width_lt h
  rw [← heq, abs_of_nonneg (sub_nonneg.2 hge)]
  linarith [hmem.2]

theorem lnBelow_ne_zero (h : f64FinitePositive x = true) (hx : x ≠ 0x3FF0000000000000#64) :
    f64ToRat (lnBelow x) ≠ 0 := by
  obtain ⟨round, hr, heq⟩ := lnBelow_eq_roundWith x
  have hclear := (inEnclosure_high h).abs_roundWith_ge h hx hr
  rw [heq, ← abs_pos]
  exact lt_of_lt_of_le (by norm_num) hclear

/-- Two operands with different values below their logarithms have a binary64 value between the logarithms. -/
theorem lnAbove_le_lnBelow_of_lt (hx : f64FinitePositive x = true) (hy : f64FinitePositive y = true)
    (hgap : f64ToRat (lnBelow x) < f64ToRat (lnBelow y)) : f64ToRat (lnAbove x) ≤ f64ToRat (lnBelow y) := by
  have hrep := Representable.of_finite (f64Finite_lnBelow hy)
  have hhigh : lnUnits (lnHigh x) < f64ToRat (lnBelow y) :=
    lt_of_not_ge fun hle => hgap.not_ge ((hrep.le_lnBelow_iff hx).2 hle)
  exact (hrep.lnAbove_le_iff hx).2 ((lnUnits_lnLow_le_lnHigh hx).trans hhigh.le)

/-! ### The engine's unit -/

theorem LN_eq (h : f64FinitePositive x = true) (hx : x ≠ 0x3FF0000000000000#64) :
    LN x = if (Config.lnRoundsUpFrom (lnBelow x)).toNat ≤ x.toNat then lnAbove x else lnBelow x := by
  rw [LN, if_neg hx, if_pos h]

theorem roundsEnclosure_LN (h : f64FinitePositive x = true) (hx : x ≠ 0x3FF0000000000000#64) :
    RoundsEnclosure x (f64ToRat (LN x)) := by
  rw [LN_eq h hx]
  split
  · exact roundsEnclosure_lnAbove h hx
  · exact roundsEnclosure_lnBelow h hx

section
variable (hx : f64FinitePositive x = true) (hy : f64FinitePositive y = true) (hlt : f64ToRat x < f64ToRat y)
include hx hy hlt

theorem lnBelow_mono : f64ToRat (lnBelow x) ≤ f64ToRat (lnBelow y) := by
  rw [(Representable.of_finite (f64Finite_lnBelow hx)).le_lnBelow_iff hy]
  exact (lnBelow_le hx).trans ((lnUnits_lnHigh_lt_lnLow hx hy hlt).le.trans (lnUnits_lnLow_le_lnHigh hy))

theorem lnAbove_mono : f64ToRat (lnAbove x) ≤ f64ToRat (lnAbove y) := by
  rw [(Representable.of_finite (f64Finite_lnAbove hy)).lnAbove_le_iff hx]
  exact (lnUnits_lnLow_le_lnHigh hx).trans ((lnUnits_lnHigh_lt_lnLow hx hy hlt).le.trans (le_lnAbove hy))

theorem lnBelow_le_lnAbove_of_lt : f64ToRat (lnBelow x) ≤ f64ToRat (lnAbove y) :=
  (lnBelow_le hx).trans ((lnUnits_lnHigh_lt_lnLow hx hy hlt).le.trans (le_lnAbove hy))

/-- In one gap the free choice turns from down to up once; between different gaps lies a binary64 value
(R160 (c)). -/
theorem LN_mono (hx1 : x ≠ 0x3FF0000000000000#64) (hy1 : y ≠ 0x3FF0000000000000#64) :
    f64ToRat (LN x) ≤ f64ToRat (LN y) := by
  rw [LN_eq hx hx1, LN_eq hy hy1]
  split <;> rename_i hcx <;> split <;> rename_i hcy
  · exact lnAbove_mono hx hy hlt
  · refine lnAbove_le_lnBelow_of_lt hx hy ((lnBelow_mono hx hy hlt).lt_of_ne fun hgap => hcy ?_)
    rw [← f64_eq_of_value hgap (lnBelow_ne_zero hx hx1)]
    exact hcx.trans (toNat_lt_of_f64ToRat_lt hx hy hlt).le
  · exact lnBelow_le_lnAbove_of_lt hx hy hlt
  · exact lnBelow_mono hx hy hlt

end

/-- The engine's unit conforms for every free choice. -/
theorem conformingLn_LN : ConformingLn LN :=
  conformingLn_of_roundsEnclosure LN_one (fun _ => f64Finite_LN) (fun _ => roundsEnclosure_LN)
    fun _ _ hx hy hx1 hy1 hlt => LN_mono hx hy hlt hx1 hy1

/-- The real logarithm of 65536 is at most the value that R160 names. -/
theorem log_65536_le : Real.log (65536 : ℝ) ≤ (f64ToRat 0x40262E42FEFA39F0#64 : ℝ) := by
  have hvalue : f64ToRat 0x40F0000000000000#64 = 65536 := by decide +kernel
  have hhigh := (log_mem_enclosure (x := 0x40F0000000000000#64) (by decide)).2
  have hbound : lnUnits (lnHigh 0x40F0000000000000#64) ≤ f64ToRat 0x40262E42FEFA39F0#64 := by decide +kernel
  rw [hvalue] at hhigh
  exact hhigh.trans (by exact_mod_cast hbound)

/-- Settles O35: the engine's unit conforms, and a result above the stated bound would have the bound between it and the
real logarithm. -/
theorem logarithmUnitConforms : Obligations.LogarithmUnitConforms := by
  refine ⟨conformingLn_LN, fun x h h1 h2 => ⟨(worth_LN h h1).nonneg, le_of_not_gt fun hgt => ?_⟩⟩
  have hx0 : (0 : ℝ) < f64ToRat x := by exact_mod_cast (f64FinitePositive_iff_worth.1 h).2
  have hlog := (Real.log_le_log hx0 (by exact_mod_cast h2)).trans log_65536_le
  exact (conformingLn_LN.faithful x h 0x40262E42FEFA39F0#64 (by decide) hgt.ne).2 ⟨hlog, by exact_mod_cast hgt.le⟩

/-! ### The reference unit -/

theorem lnRef_eq (h : f64FinitePositive x = true) (hx : x ≠ 0x3FF0000000000000#64) :
    lnRef x = fround (lnUnits (lnLow x)) := by
  rw [lnRef, if_neg hx, if_pos h]

theorem lnRef_one : lnRef 0x3FF0000000000000#64 = 0x0000000000000000#64 := if_pos rfl

theorem f64Finite_fround_lnLow (h : f64FinitePositive x = true) : f64Finite (fround (lnUnits (lnLow x))) = true :=
  (inEnclosure_low h).f64Finite_roundWith h divNearest_neighbour

/-- The reference unit answers a finite value. -/
theorem f64Finite_lnRef (h : f64FinitePositive x = true) : f64Finite (lnRef x) = true := by
  obtain rfl | hx := eq_or_ne x 0x3FF0000000000000#64
  · rw [lnRef_one]
    exact worth_zero.finite
  · rw [lnRef_eq h hx]
    exact f64Finite_fround_lnLow h

/-- A value in the enclosure is near to the lower end, and the nearest value to that end is no farther from it. -/
theorem roundsEnclosure_lnRef (h : f64FinitePositive x = true) (hx : x ≠ 0x3FF0000000000000#64) :
    RoundsEnclosure x (f64ToRat (lnRef x)) := by
  rw [lnRef_eq h hx]
  refine (inEnclosure_low h).roundsEnclosure h hx divNearest_neighbour fun u hu hmem => ?_
  have hwidth := enclosure_width_lt h
  have hnearest := fround_nearest (f64Finite_fround_lnLow h) (fround u)
  rw [hu.f64ToRat_fround, abs_of_nonneg (sub_nonneg.2 hmem.1)] at hnearest
  have htri := abs_sub_le u (lnUnits (lnLow x)) (f64ToRat (fround (lnUnits (lnLow x))))
  rw [abs_of_nonneg (sub_nonneg.2 hmem.1), abs_sub_comm (lnUnits (lnLow x))] at htri
  refine htri.trans_lt ?_
  linarith [hmem.2]

/-- The reference unit conforms. -/
theorem conformingLn_lnRef : ConformingLn lnRef :=
  conformingLn_of_roundsEnclosure lnRef_one (fun _ => f64Finite_lnRef) (fun _ => roundsEnclosure_lnRef)
    fun x y hx hy hx1 hy1 hlt => by
      rw [lnRef_eq hx hx1, lnRef_eq hy hy1]
      exact fround_mono (f64Finite_fround_lnLow hx) (f64Finite_fround_lnLow hy)
        ((lnUnits_lnLow_le_lnHigh hx).trans (lnUnits_lnHigh_lt_lnLow hx hy hlt).le)

/-- Settles O36: the reference unit conforms, and the samples evaluate. -/
theorem referenceLogarithmConforms : Obligations.ReferenceLogarithmConforms :=
  ⟨conformingLn_lnRef, by decide +kernel, by decide +kernel, by decide +kernel, by decide +kernel⟩

end Sys2Proof.Machine
end

/-! ## Family 60_exceptions: faults, refusals and the idle engine (R180, R183, R184, R195, R201) -/

section
namespace Sys2Proof.Machine

variable {s : State}

/-! ### What a step answers -/

/-- A step answers a next state unless it accepts a command word (R66). -/
theorem step_next_or_accepts (s : State) :
    (∃ t, step s = .next t) ∨
    ∃ e rest w, s.inputs = e :: rest ∧ e.rst = false ∧ e.command = some w ∧ s.response = none := by
  match hi : s.inputs with
  | [] => exact .inl ⟨s, step_of_no_input hi⟩
  | e :: rest =>
    cases hr : e.rst with
    | true => exact .inl ⟨_, step_of_reset hi hr⟩
    | false =>
      cases hn : s.response with
      | some v => exact .inl ⟨_, step_of_waiting hi hr hn⟩
      | none =>
        cases hc : e.command with
        | none => exact .inl ⟨_, step_of_idle hi hr hc hn⟩
        | some w => exact .inr ⟨e, rest, w, rfl, hr, hc, rfl⟩

/-- A step completes or is refused as unconstructed: there is no third outcome (R180, R184). -/
theorem step_next_or_unconstructed (s : State) : (∃ t, step s = .next t) ∨ step s = .refused .unconstructed := by
  obtain hnext | ⟨e, rest, w, hi, hr, hc, hn⟩ := step_next_or_accepts s
  · exact .inl hnext
  · rw [step_of_command hi hr hc hn]
    exact exec_next_or_unconstructed _ _

/-- What completes or is refused does not fault. -/
theorem ne_fault_of_next_or_unconstructed {o : Host.Outcome State Fault Refusal}
    (h : (∃ t, o = .next t) ∨ o = .refused .unconstructed) (f : Fault) : o ≠ .fault f := by
  obtain ⟨t, rfl⟩ | rfl := h <;> nofun

/-- All that a step refuses: an accepted command other than INIT while `CON = 0` (R183, R184). -/
theorem step_refused_iff {r : Refusal} :
    step s = .refused r ↔
      r = .unconstructed ∧ s.CON = false ∧ s.response = none ∧ ∃ e rest w, s.inputs = e :: rest ∧ e.rst = false ∧
        e.command = some w ∧ ∀ p, decode w ≠ .init p := by
  constructor
  · intro h
    obtain ⟨t, hnext⟩ | ⟨e, rest, w, hi, hr, hc, hn⟩ := step_next_or_accepts s
    · exact nomatch hnext.symm.trans h
    · rw [step_of_command hi hr hc hn] at h
      obtain ⟨hrefusal, hC, hinit⟩ := exec_refused_iff.1 h
      exact ⟨hrefusal, hC, hn, e, rest, w, hi, hr, hc, hinit⟩
  · rintro ⟨hrefusal, hC, hn, e, rest, w, hi, hr, hc, hinit⟩
    rw [step_of_command hi hr hc hn]
    exact exec_refused_iff.2 ⟨hrefusal, hC, hinit⟩

/-! ### Runs that are refused -/

/-- A refused run stays refused, with the same reason, when more steps are asked for. -/
theorem run_refused_add {M : Host.Core} {n : Nat} {s : M.State} {r : M.Refusal} (h : M.run n s = .refused r)
    (k : Nat) : M.run (n + k) s = .refused r := by
  induction n generalizing s with
  | zero => cases h
  | succ n ih =>
    rw [Nat.succ_add]
    cases hs : M.step s with
    | next t =>
      rw [run_succ_next hs] at h ⊢
      exact ih h
    | fault f => simp [Host.Core.run, hs] at h
    | refused r' =>
      rw [run_succ_refused hs] at h ⊢
      exact h

/-! ### The statements -/

/-- Settles O12: admission refuses every command but INIT, and a run stops at its first refusal. -/
theorem unconstructedEngineRefuses : Obligations.UnconstructedEngineRefuses := by
  refine ⟨fun s hC => ⟨fun d => ?_, fun a => ?_, fun a => ?_, fun n => ?_⟩, fun s n k _ h => ?_⟩
  · exact exec_refused_iff.2 ⟨rfl, hC, nofun⟩
  · exact exec_refused_iff.2 ⟨rfl, hC, nofun⟩
  · exact exec_refused_iff.2 ⟨rfl, hC, nofun⟩
  · exact ⟨_, exec_init n s, s.construct_CON _⟩
  · exact run_refused_add (M := Sys2Proof.core) h k

/-- Settles O14: commands and steps have two outcomes only, and `P` is at most 31, so that the top `P` bits of a digest
are a number below `2^P`. -/
theorem nothingFaults : Obligations.NothingFaults :=
  ⟨fun i s => ne_fault_of_next_or_unconstructed (exec_next_or_unconstructed i s),
    fun s => ne_fault_of_next_or_unconstructed (step_next_or_unconstructed s),
    fun s => bucketIndex_lt s.precision_lt.le⟩

/-- Settles O58: where a step refuses, and that the run stops there. -/
theorem refusalIsFinal : Obligations.RefusalIsFinal :=
  ⟨fun _ _ => step_refused_iff, fun _ e rest w n hC hn hi hr hc hinit =>
    runSteps_succ_refused (step_refused_iff.2 ⟨rfl, hC, hn, e, rest, w, hi, hr, hc, hinit⟩) n⟩

/-- Settles O7: the two ways of having nothing to do. -/
theorem idleStepChangesNothing : Obligations.IdleStepChangesNothing :=
  ⟨fun _ => step_of_no_input, fun _ _ _ => step_of_idle⟩

end Sys2Proof.Machine
end

/-! ## Family 70_reset_and_hazards: reset, and the programs that run to their end (R200 to R204, R208) -/

section
namespace Sys2Proof.Machine

variable {s t : State}

/-! ### The host's duty before ADD, EST and RCNT -/

/-- A host fails its duty exactly when it starts an unconstructed engine with a command other than INIT (R204). -/
theorem initFirst_cons_eq_false_iff {con : Bool} {i : Instr} {rest : List Instr} :
    initFirst con (i :: rest) = false ↔ con = false ∧ ∀ p, i ≠ .init p := by
  cases i <;> simp [initFirst]

/-- The host fails its duty exactly where the first command is refused (R184). -/
theorem initFirst_cons_eq_false_iff_refused {i : Instr} {rest : List Instr} :
    initFirst s.CON (i :: rest) = false ↔ exec i s = .refused .unconstructed := by
  rw [initFirst_cons_eq_false_iff, exec_refused_iff, eq_self_iff_true, true_and]

/-- On a constructed engine every list of commands is allowed. -/
theorem initFirst_constructed (is : List Instr) : initFirst true is = true := by
  cases is with
  | nil => rfl
  | cons i rest => cases i <;> rfl

/-- A command that completes leaves the engine constructed. -/
theorem exec_constructs {i : Instr} (h : exec i s = .next t) : t.CON = true := by
  obtain ⟨n, -, rfl⟩ | ⟨d, -, hC, rfl⟩ | ⟨v, -, hC, rfl⟩ := exec_cases h
  · exact s.construct_CON _
  · exact hC
  · exact hC

/-! ### Lists of commands -/

/-- A host that keeps its duty sees every command of its list complete and takes every response.  The first command
leaves the engine constructed, so that the duty is kept for the rest of the list. -/
theorem execAll_completes {is : List Instr} (hn : s.response = none) (h : initFirst s.CON is = true) :
    ∃ t, execAll is s = .next t ∧ t.inputs = s.inputs ∧ t.response = none := by
  induction is generalizing s with
  | nil => exact ⟨s, rfl, rfl, hn⟩
  | cons i rest ih =>
    obtain ⟨u, hi⟩ | hrefused := exec_next_or_unconstructed i s
    · have hduty : initFirst u.deliver.CON rest = true := by
        rw [State.deliver_CON, exec_constructs hi, initFirst_constructed]
      obtain ⟨t, hrun, hin, hresp⟩ := ih u.deliver_response hduty
      refine ⟨t, ?_, ?_, hresp⟩
      · rw [execAll_cons_of_next hi, hrun]
      · rw [hin, State.deliver_inputs, exec_keeps_inputs hi]
    · exact nomatch h.symm.trans (initFirst_cons_eq_false_iff_refused.2 hrefused)

/-- A host that fails its duty is refused, at the first command of its list. -/
theorem execAll_refused {is : List Instr} (h : initFirst s.CON is = false) :
    execAll is s = .refused .unconstructed := by
  cases is with
  | nil => cases h
  | cons i rest => exact execAll_cons_of_refused (initFirst_cons_eq_false_iff_refused.1 h) rest

/-! ### The statements -/

/-- Settles O15: the ports run the list of the program's commands, which completes or is refused as the host keeps or
fails its duty. -/
theorem programCompletesExactlyWhenInitFirst : Obligations.ProgramCompletesExactlyWhenInitFirst := by
  intro s ws hin hn
  rw [portsRefineSerialExecution s ws hin hn]
  refine ⟨fun h => ?_, execAll_refused⟩
  obtain ⟨t, hrun, hin', hresp⟩ := execAll_completes hn h
  exact ⟨t, hrun, hin'.trans hin, hresp⟩

/-- Settles O8: a reset edge is the reset event, and no other port has a say. -/
theorem resetWins : Obligations.ResetWins := by
  intro s e rest hi hr
  exact ⟨State.powerOnReset { s with inputs := rest }, step_of_reset hi hr, State.powerOnReset_CON _, rfl, rfl,
    State.powerOnReset_inputs _, State.powerOnReset_delivered _⟩

/-- Settles O9: each port and each list of `State.reset` as it is defined. -/
theorem resetStateIsUnconstructed : Obligations.ResetStateIsUnconstructed :=
  ⟨State.reset_CON, rfl, rfl, State.reset_inputs, State.reset_delivered⟩

end Sys2Proof.Machine
end

/-! ## The command words written out in the test vectors (R61 to R63, table 2.1) -/

section
namespace Sys2Proof

/-- Settles O4: each word is its opcode digit put before its operand field, so it decodes by the row of the opcode map
(R62) for that digit; INIT reads its field as a signed number (R63). -/
theorem decodeOfWrittenOutWords : Obligations.DecodeOfWrittenOutWords :=
  ⟨decode_init_word 4#32, decode_init_word 10#32, decode_init_word 100#32, decode_init_word 0xFFFFFFFF#32,
    decode_add_word 0#32, decode_add_word 0xDEADBEEF#32, decode_add_word 0xFFFFFFFF#32,
    decode_est_word 0#32, decode_est_word 0xDEADBEEF#32,
    decode_rcnt_word 0#32, decode_rcnt_word 0xFFFFFFFF#32⟩

end Sys2Proof
end
